-- ==== Sys2Proof/Word.lean ====
section
/-! DEFINITION. The word types of the PRU core (00_scope.md R10: bit 0 is the least significant bit; all values are
unsigned). Registers, constant-table entries and data addresses have 32 bits, register-file and data-memory cells 8,
instruction addresses 16 (00_scope.md R9, last paragraph). -/

namespace Sys2Proof

/-- A register, a constant-table entry or a data address: 32 bits (R9, R20, R40, R61). -/
abbrev Word := BitVec 32

/-- A byte of the register file or of data memory (R21, R62). -/
abbrev Byte := BitVec 8

/-- An instruction address: 16 bits, counting instructions (R34). -/
abbrev InstrAddr := BitVec 16

end Sys2Proof
end

