-- ==== Sys2Proof/Syntax.lean ====
section
/-! DEFINITION. The instruction set as syntax (30_encoding.md R90 to R108): the operand classes and one constructor of
`Instr` for each of the 47 rows of spec/opcode_table.json (R104). An immediate is the already evaluated number (R99);
its range is checked by WellFormed.lean. What the assembler's classes admit by form only (a whole register as a base,
`r1.b0` to `r1.b3` as a pointer, `r0.b0` to `r0.b3` as a count) is a type here. -/

namespace Sys2Proof

/-- Which part of a register a register field names (10_state.md R22). -/
inductive Sel where
  | b0 | b1 | b2 | b3 | w0 | w1 | w2 | full
  deriving DecidableEq, Repr

/-- A register field, the operand class `REG` (R22, R91): a register number 0..31 and a part of it. -/
structure Field where
  reg : Fin 32
  sel : Sel
  deriving DecidableEq, Repr

/-- `OP(n)`, the union of `REG` and `IM(n)` (R98). The bound `n` is the instruction's, checked by `operandCheck`. -/
inductive Operand where
  /-- a register field -/
  | reg (f : Field)
  /-- an immediate, the evaluated number -/
  | imm (v : Nat)
  deriving DecidableEq, Repr

/-- The byte count of a burst or XFR instruction (R94, R210): Format 1 `IM(124)`, or Format 2 `bn`, byte `n` of R0. -/
inductive Count where
  | imm (n : Nat)
  | r0 (k : Fin 4)
  deriving DecidableEq, Repr

/-- An operand of MVIB, MVIW, MVID: exactly the four forms of 42_register_load_store.md R202. A pointer is one of
`r1.b0` to `r1.b3`, named by its byte number (10_state.md R28). -/
inductive MviOperand where
  /-- the register field itself -/
  | direct (f : Field)
  /-- `*r1.bk` -/
  | ptr (k : Fin 4)
  /-- `*r1.bk++`, post-increment -/
  | ptrInc (k : Fin 4)
  /-- `*--r1.bk`, pre-decrement -/
  | ptrDec (k : Fin 4)
  deriving DecidableEq, Repr

/-- The instructions, in the order of R104. `dist` is a label held as its distance from the instruction, label minus
the instruction's own address (43_control_flow.md R260). `start` of a burst or XFR instruction is the register-file
byte offset `off(REG1)` of its `&REG1` (R101, R210): only the offset plays a part. -/
inductive Instr where
  | add (rd rs : Field) (op : Operand)
  | adc (rd rs : Field) (op : Operand)
  | sub (rd rs : Field) (op : Operand)
  | suc (rd rs : Field) (op : Operand)
  | rsb (rd rs : Field) (op : Operand)
  | rsc (rd rs : Field) (op : Operand)
  | lsl (rd rs : Field) (op : Operand)
  | lsr (rd rs : Field) (op : Operand)
  | and (rd rs : Field) (op : Operand)
  | or (rd rs : Field) (op : Operand)
  | xor (rd rs : Field) (op : Operand)
  | not (rd rs : Field)
  | min (rd rs : Field) (op : Operand)
  | max (rd rs : Field) (op : Operand)
  | clr (rd rs : Field) (op : Operand)
  | set (rd rs : Field) (op : Operand)
  | scan (rn : Fin 32) (op : Operand)
  | lmbd (rd rs : Field) (op : Operand)
  | mov (rd : Field) (src : Operand)
  | ldi (rd : Field) (imm : Nat)
  | mvib (dst src : MviOperand)
  | mviw (dst src : MviOperand)
  | mvid (dst src : MviOperand)
  | lbbo (start : Fin 128) (base : Fin 32) (op : Operand) (cnt : Count)
  | sbbo (start : Fin 128) (base : Fin 32) (op : Operand) (cnt : Count)
  | lbco (start : Fin 128) (base : Fin 32) (op : Operand) (cnt : Count)
  | sbco (start : Fin 128) (base : Fin 32) (op : Operand) (cnt : Count)
  | zero (start len : Nat)
  | xin (dev : Nat) (start : Fin 128) (cnt : Count)
  | xout (dev : Nat) (start : Fin 128) (cnt : Count)
  | xchg (dev : Nat) (start : Fin 128) (cnt : Count)
  | jmp (target : Operand)
  | jal (rd : Field) (target : Operand)
  | qbgt (dist : Int) (rs : Field) (op : Operand)
  | qbge (dist : Int) (rs : Field) (op : Operand)
  | qblt (dist : Int) (rs : Field) (op : Operand)
  | qble (dist : Int) (rs : Field) (op : Operand)
  | qbeq (dist : Int) (rs : Field) (op : Operand)
  | qbne (dist : Int) (rs : Field) (op : Operand)
  | qba (dist : Int)
  | qbbs (dist : Int) (rs : Field) (op : Operand)
  | qbbc (dist : Int) (rs : Field) (op : Operand)
  | wbs (rs : Field) (op : Operand)
  | wbc (rs : Field) (op : Operand)
  | halt
  | slp (wake : Bool)
  | loop (dist : Int) (cnt : Operand)
  deriving DecidableEq, Repr

/-- A bit field `F.tx` (10_state.md R26): bit `x` of the field `F`, counted from bit 0 of `F`. -/
structure BitRef where
  field : Field
  bit : Fin 32
  deriving DecidableEq, Repr

/-! The calling formats of CLR, SET, QBBS, QBBC, WBS and WBC that are shorthand for Format 1 (R97, R107). -/

/-- `CLR REG1, OP(31)` (Format 2). -/
def Instr.clrSame (rd : Field) (op : Operand) : Instr := .clr rd rd op
/-- `CLR REG1, F.tx` (Format 3). -/
def Instr.clrBit (rd : Field) (b : BitRef) : Instr := .clr rd b.field (.imm b.bit)
/-- `CLR F.tx` (Format 4). -/
def Instr.clrBitSame (b : BitRef) : Instr := .clr b.field b.field (.imm b.bit)
/-- `SET REG1, OP(31)` (Format 2). -/
def Instr.setSame (rd : Field) (op : Operand) : Instr := .set rd rd op
/-- `SET REG1, F.tx` (Format 3). -/
def Instr.setBit (rd : Field) (b : BitRef) : Instr := .set rd b.field (.imm b.bit)
/-- `SET F.tx` (Format 4). -/
def Instr.setBitSame (b : BitRef) : Instr := .set b.field b.field (.imm b.bit)
/-- `QBBS LABEL, F.tx` (Format 2). -/
def Instr.qbbsBit (dist : Int) (b : BitRef) : Instr := .qbbs dist b.field (.imm b.bit)
/-- `QBBC LABEL, F.tx` (Format 2). -/
def Instr.qbbcBit (dist : Int) (b : BitRef) : Instr := .qbbc dist b.field (.imm b.bit)
/-- `WBS F.tx` (Format 2). -/
def Instr.wbsBit (b : BitRef) : Instr := .wbs b.field (.imm b.bit)
/-- `WBC F.tx` (Format 2). -/
def Instr.wbcBit (b : BitRef) : Instr := .wbc b.field (.imm b.bit)

/-- The expansion of a pseudo-op that stands at one address (R107): MOV is AND or LDI, WBS is QBBC to itself, WBC is
QBBS to itself. Every other instruction is its own expansion. -/
def Instr.expand : Instr → Instr
  | .mov rd (.reg f) => .and rd f (.reg f)
  | .mov rd (.imm v) => .ldi rd v
  | .wbs rs op => .qbbc 0 rs op
  | .wbc rs op => .qbbs 0 rs op
  | i => i

end Sys2Proof
end

