-- ==== Sys2Proof/Config.lean ====
section
/-! DEFINITION. What the implementation, the device or the platform fixes (00_scope.md R9), and the free values: what
the environment answers, under no law (R12 `draw`).

The parameters of a run are a plain structure that `Machine.State` carries unchanged (R352: "given by the claim,
constant for the run"), so a claim about every state is a claim about every choice of them. -/

namespace Sys2Proof.Config

/-- The core revision (R2, R9). -/
inductive CoreRev where
  | v1 | v3
  deriving DecidableEq, Repr

/-- What XCHG does (42_register_load_store.md R226): the source defines an exchange and doubts it. -/
inductive XchgBehaviour where
  | refuse | asXin | exchange
  deriving DecidableEq, Repr

/-- What stands behind a region of data memory (00_scope.md R9 "RAM, device"): memory, which a load reads back, or a
device, whose reads the environment answers (20_memory.md R68, R72). -/
inductive RegionKind where
  | ram | device
  deriving DecidableEq, Repr

/-- One class of requests that the platform admits (20_memory.md R69). A request is a direction, an address and a byte
count, and a region admits it as a whole. Any predicate on requests is a list of regions. DESIGN CHOICE: this form of the
predicate, and that the first region of the list that admits a request says what answers it (log entry 13). -/
structure Region where
  /-- first address -/
  base : Word
  /-- number of bytes, from `base` up, modulo 2^32: every byte of the request lies among them -/
  size : Nat
  /-- smallest byte count -/
  minLen : Nat
  /-- greatest byte count -/
  maxLen : Nat
  /-- the first address of the request is a multiple of this; 1 is no condition -/
  align : Nat
  /-- whether it admits reads -/
  reads : Bool
  /-- whether it admits writes -/
  writes : Bool
  /-- what answers its reads -/
  kind : RegionKind
  deriving DecidableEq, Repr

/-- The parameters of a run (R9, R352). -/
structure Params where
  /-- core revision (R105) -/
  rev : CoreRev
  /-- whether a V1 core has SCAN (R9, R158) -/
  hasScan : Bool
  /-- what XCHG does (R226) -/
  xchg : XchgBehaviour
  /-- where execution starts (70_reset_and_hazards.md R351) -/
  entryPC : InstrAddr
  /-- the constant table c0 to c31 (10_state.md R40) -/
  ct : Vector Word 32
  /-- the admission predicate of data memory (R69) -/
  regions : List Region
  /-- reach of the QBxx distance, lowest and highest, if bounded (43_control_flow.md R260) -/
  qbRange : Option (Int × Int)
  /-- reach of the LOOP distance, lowest and highest, if bounded (R260) -/
  loopRange : Option (Int × Int)
  deriving DecidableEq, Repr

/-- The parameters right after reset. The spec's defaults: `rev` V3 (D2), `hasScan` = (CoreRev = V1) (R9), `xchg`
refuse (D28), no reach bound (D35). DESIGN CHOICE, unsafe: `entryPC` 0 (log entry 7), every constant-table entry 0
(log entry 11), every request of 1 to 124 bytes admitted, as one of memory (log entry 13). -/
def Params.default : Params where
  rev := .v3
  hasScan := false
  xchg := .refuse
  entryPC := 0
  ct := Vector.replicate 32 0
  regions := [{ base := 0, size := 2 ^ 32, minLen := 1, maxLen := 124, align := 1, reads := true, writes := true, kind := .ram }]
  qbRange := none
  loopRange := none

/-- What the core does that the world outside it can see, and its accesses to data memory (R354, R72). -/
inductive Event where
  /-- `MemRead(addr, n)` (20_memory.md R62, R72) -/
  | memRead (addr : Word) (n : Nat)
  /-- `MemWrite(addr, n, v)` (R62) -/
  | memWrite (addr : Word) (bytes : List Byte)
  /-- `XfrOut(dev, o, n, v)` (42_register_load_store.md R222) -/
  | xfrOut (dev start : Nat) (bytes : List Byte)
  /-- `R31Out(F, v)` (10_state.md R31) -/
  | r31Out (f : Field) (v : Word)
  /-- `R30Out`: the value R30 holds after a write to it (10_state.md R32) -/
  | r30Out (v : Word)
  deriving DecidableEq, Repr

/-! The free values. Each is an uninterpreted constant applied to the history of events and to the moment of the draw
(`State.moment`), so that no proof can see what it is. -/

/-- FREE VALUE, safe. `R31In` (10_state.md R29): the 32 input event flags one instruction reads (log entry 14). -/
opaque r31In : List Event → Nat → Word

/-- FREE VALUE, safe. `Xfr[dev]` (42_register_load_store.md R222): byte `i` of the `n` bytes the device answers an
XIN of the register-file bytes from `start` (log entry 15). Arguments: history, moment, device, start, n, i. -/
opaque xfrIn : List Event → Nat → Nat → Nat → Nat → Nat → Byte

/-- FREE VALUE, safe. `MemOracle` for a device (20_memory.md R68, R72): byte `i` of the `n` bytes that a read of a device
region at `addr` answers (log entry 20). Arguments: history, moment, address, n, i. -/
opaque memIn : List Event → Nat → Word → Nat → Nat → Byte

/-- FREE VALUE, safe. `WakeEvent` (60_exceptions.md R331): whether an enabled event holds at this moment (log
entry 16). -/
opaque wakeEvent : List Event → Nat → Bool

end Sys2Proof.Config
end

