-- ==== Sys2Proof/WellFormed.lean ====
section
/-! DEFINITION. Which instructions are well-formed, and where (30_encoding.md R99, R105, R108, R109; 43_control_flow.md
R260, R292): an operand in its class and range, an instruction the core revision has, a label the instruction can
reach. Each check has a reason of its own. -/

namespace Sys2Proof

open Config (Params CoreRev XchgBehaviour)

/-- Why an instruction is not well-formed at an address (R109 (a), (b), (c)). -/
inductive IllFormed where
  /-- an immediate outside the range of its class `IM(n)` or `OP(n)` (R99, R108) -/
  | immediateRange
  /-- an immediate byte count outside 1..124 (R108, R213) -/
  | countRange
  /-- a ZERO start offset outside 0..123 (R108, R220) -/
  | zeroStart
  /-- a device id outside 0..253 (R108, R223) -/
  | deviceId
  /-- an MVIx with no pointer operand (R202) -/
  | noPointer
  /-- an immediate LOOP count outside 1..256 (R108, R292 (a)) -/
  | loopCount
  /-- a label that is no 16-bit instruction address (R100, R108) -/
  | labelRange
  /-- a QBxx label outside `QBRange` (R260) -/
  | branchReach
  /-- a LOOP label outside `LoopRange` (R260, R292 (g)) -/
  | loopReach
  /-- a LOOP whose label is not after a non-empty body (R292 (d)) -/
  | emptyLoop
  /-- an instruction the core revision does not have (R105) -/
  | notInRevision
  /-- XCHG where `XchgBehaviour` is `refuse` (42_register_load_store.md R226) -/
  | xchgRefused
  /-- FILL or ILOOP, which the source names and does not describe (R106, R109 (c)) -/
  | undescribed
  deriving DecidableEq, Repr

/-- `refuseUnless ok why`: no complaint if `ok` holds, the complaint `why` otherwise. -/
def refuseUnless (ok : Bool) (why : IllFormed) : Option IllFormed := if ok then none else some why

/-- An `OP(n)` operand: a register field is not limited by `n`; an immediate is at most `n` (R98, R99). -/
def Operand.check (n : Nat) : Operand → Option IllFormed
  | .reg _ => none
  | .imm v => refuseUnless (decide (v ≤ n)) .immediateRange

/-- A byte count: immediate 1..124 (R108, R213), or a byte of R0. -/
def Count.check : Count → Option IllFormed
  | .imm n => refuseUnless (decide (1 ≤ n ∧ n ≤ 124)) .countRange
  | .r0 _ => none

/-- Whether an MVIx operand is one of the pointer forms (R202). -/
def MviOperand.isPointer : MviOperand → Bool
  | .direct _ => false
  | .ptr _ => true
  | .ptrInc _ => true
  | .ptrDec _ => true

/-- The operands of an instruction, each in its class and range (R108). -/
def operandCheck : Instr → Option IllFormed
  | .add _ _ op | .adc _ _ op | .sub _ _ op | .suc _ _ op | .rsb _ _ op | .rsc _ _ op => op.check 255
  | .lsl _ _ op | .lsr _ _ op => op.check 31
  | .and _ _ op | .or _ _ op | .xor _ _ op => op.check 255
  | .not _ _ => none
  | .min _ _ op | .max _ _ op => op.check 255
  | .clr _ _ op | .set _ _ op => op.check 31
  | .scan _ op => op.check 255
  | .lmbd _ _ op => op.check 255
  | .mov _ src => src.check 65535
  | .ldi _ imm => refuseUnless (decide (imm ≤ 65535)) .immediateRange
  | .mvib d s | .mviw d s | .mvid d s => refuseUnless (d.isPointer || s.isPointer) .noPointer
  | .lbbo _ _ op cnt | .sbbo _ _ op cnt | .lbco _ _ op cnt | .sbco _ _ op cnt => op.check 255 <|> cnt.check
  | .zero start len =>
    refuseUnless (decide (start ≤ 123)) .zeroStart <|> refuseUnless (decide (1 ≤ len ∧ len ≤ 124)) .countRange
  | .xin dev _ cnt | .xout dev _ cnt | .xchg dev _ cnt =>
    refuseUnless (decide (dev ≤ 253)) .deviceId <|> cnt.check
  | .jmp t => t.check 65535
  | .jal _ t => t.check 65535
  | .qbgt _ _ op | .qbge _ _ op | .qblt _ _ op | .qble _ _ op | .qbeq _ _ op | .qbne _ _ op => op.check 255
  | .qba _ => none
  | .qbbs _ _ op | .qbbc _ _ op => op.check 31
  | .wbs _ op | .wbc _ op => op.check 31
  | .halt => none
  | .slp _ => none
  | .loop _ (.imm v) => refuseUnless (decide (1 ≤ v ∧ v ≤ 256)) .loopCount
  | .loop _ (.reg _) => none

/-- Whether the core has the instruction (R105): SCAN on V1 only, and there only where the core has it (R9); MVIB, MVIW,
MVID, ZERO as one instruction, XIN, XOUT, XCHG and LOOP on V3 only; every other one on both. -/
def available (p : Params) : Instr → Bool
  | .scan _ _ => p.rev = .v1 && p.hasScan
  | .mvib _ _ | .mviw _ _ | .mvid _ _ => p.rev = .v3
  | .zero _ _ => p.rev = .v3
  | .xin _ _ _ | .xout _ _ _ | .xchg _ _ _ => p.rev = .v3
  | .loop _ _ => p.rev = .v3
  | .add .. | .adc .. | .sub .. | .suc .. | .rsb .. | .rsc .. | .lsl .. | .lsr .. | .and .. | .or .. | .xor .. => true
  | .not .. | .min .. | .max .. | .clr .. | .set .. | .lmbd .. | .mov .. | .ldi .. => true
  | .lbbo .. | .sbbo .. | .lbco .. | .sbco .. | .jmp .. | .jal .. => true
  | .qbgt .. | .qbge .. | .qblt .. | .qble .. | .qbeq .. | .qbne .. | .qba .. | .qbbs .. | .qbbc .. => true
  | .wbs .. | .wbc .. | .halt | .slp .. => true

/-- XCHG is well-formed only where the parameter gives it a behaviour (R226). -/
def xchgCheck (p : Params) : Instr → Option IllFormed
  | .xchg _ _ _ => refuseUnless (decide (p.xchg ≠ .refuse)) .xchgRefused
  | _ => none

/-- Whether a distance lies in an optional reach (R260): no bound where none is set. -/
def inReach (range : Option (Int × Int)) (dist : Int) : Bool :=
  match range with
  | none => true
  | some (lo, hi) => decide (lo ≤ dist ∧ dist ≤ hi)

/-- The label of a QBxx at address `pc`, distance `dist`: a 16-bit instruction address (R100) within reach (R260). -/
def branchCheck (p : Params) (pc : InstrAddr) (dist : Int) : Option IllFormed :=
  refuseUnless (decide (0 ≤ (pc.toNat : Int) + dist ∧ (pc.toNat : Int) + dist ≤ 65535)) .labelRange
    <|> refuseUnless (inReach p.qbRange dist) .branchReach

/-- The label of a LOOP (R292 (d), (g)): a 16-bit address after a non-empty body, within reach. -/
def loopCheck (p : Params) (pc : InstrAddr) (dist : Int) : Option IllFormed :=
  refuseUnless (decide (0 ≤ (pc.toNat : Int) + dist ∧ (pc.toNat : Int) + dist ≤ 65535)) .labelRange
    <|> refuseUnless (decide (2 ≤ dist)) .emptyLoop
    <|> refuseUnless (inReach p.loopRange dist) .loopReach

/-- The label of an instruction that holds one (R260); WBS and WBC branch to themselves (R107). -/
def labelCheck (p : Params) (pc : InstrAddr) : Instr → Option IllFormed
  | .qbgt d _ _ | .qbge d _ _ | .qblt d _ _ | .qble d _ _ | .qbeq d _ _ | .qbne d _ _ => branchCheck p pc d
  | .qba d | .qbbs d _ _ | .qbbc d _ _ => branchCheck p pc d
  | .wbs _ _ | .wbc _ _ => branchCheck p pc 0
  | .loop d _ => loopCheck p pc d
  | _ => none

/-- Every check on the instruction `i` standing at the address `pc` of a core with the parameters `p`; `none` is
well-formed, `some why` the first check that fails. -/
def check (p : Params) (pc : InstrAddr) (i : Instr) : Option IllFormed :=
  operandCheck i <|> refuseUnless (available p i) .notInRevision <|> xchgCheck p i <|> labelCheck p pc i

/-- The instruction `i` at the address `pc` is well-formed for the parameters `p` (R109). -/
abbrev WellFormed (p : Params) (pc : InstrAddr) (i : Instr) : Prop := check p pc i = none

end Sys2Proof
end

