-- ==== Sys2Proof/Decode.lean ====
section
/-! DEFINITION. The binary encoding (30_encoding.md R120 to R131): a decoder of 32-bit words, total, rejecting by name,
and after it an encoder written from the same tables.

PRESUMED, unsafe: the whole encoding is general knowledge, not the source's (R120; log entry 2). What the decoder does
with bits the rules say nothing of: log entry 3. MOV, WBS and WBC have no words of their own (R131): their words decode
to AND, LDI, QBBC and QBBS. MVIB, MVIW and MVID have no known word (R124; log entry 5). -/

namespace Sys2Proof

/-- Why a word is no instruction of the spec (R130, and the names of R106). -/
inductive Reject where
  /-- bits 31:29 are `101` (R121, R130) -/
  | format101
  /-- format 2, sub-operation 6: believed to be the MVIx group, whose layout is not known (R124, R130) -/
  | mviGroup
  /-- format 2, sub-operation 9 to 14 (R124, R130) -/
  | subop (n : Nat)
  /-- LDI's bit 24 is not 0 (R124) -/
  | ldiBit24
  /-- an XFR word with bits 24:23 `00` (R130) -/
  | xfrDirection
  /-- an XFR word with bit 14 set, not a form of this spec (R124) -/
  | xfrBit14
  /-- FILL, believed to be an XIN from device 254: named and not described (R106, R124) -/
  | fill
  /-- an XIN from device 255 (ZERO, R124) with a register count, which ZERO does not have (R220) -/
  | zeroRegisterCount
  /-- ILOOP, bit 15 of a LOOP word: named and not described (R106, R124) -/
  | iloop
  /-- a compare-and-branch word with no relation bit set (R130) -/
  | noRelation
  /-- a bit-test word with bits 28:27 `00` or `11` (R130) -/
  | noBitSense
  /-- a bit that R124 says is 0 is set (JMP, HALT, SLP, LOOP) -/
  | reservedBits
  deriving DecidableEq, Repr

/-- Bits `hi` down to `lo` of a word, as a number (R10). -/
def bits (w : Word) (hi lo : Nat) : Nat := w.toNat / 2 ^ lo % 2 ^ (hi + 1 - lo)

/-- The part of a register that bits 7:5 of a register byte select (R122). -/
def decodeSel : Nat → Sel
  | 0 => .b0
  | 1 => .b1
  | 2 => .b2
  | 3 => .b3
  | 4 => .w0
  | 5 => .w1
  | 6 => .w2
  | _ => .full

/-- A register byte (R122): bits 7:5 the part, bits 4:0 the register number. -/
def decodeField (b : Nat) : Field := ⟨Fin.ofNat 32 b, decodeSel (b / 32 % 8)⟩

/-- The `OP(n)` operand of formats 1, 2, 4, 5 and 6: bit 24 chooses the immediate in bits 23:16 or a register byte. -/
def decodeOp (w : Word) : Operand :=
  if bits w 24 24 = 1 then .imm (bits w 23 16) else .reg (decodeField (bits w 23 16))

/-- The `OP(65535)` operand of JMP and JAL: an address in bits 23:8, or a register byte in bits 23:16 (R124). -/
def decodeTarget (w : Word) : Operand :=
  if bits w 24 24 = 1 then .imm (bits w 23 8) else .reg (decodeField (bits w 23 16))

/-- A length code (R127): the count minus 1 for 1 to 124, then the four bytes of R0. -/
def decodeCount (code : Nat) : Count := if code < 124 then .imm (code + 1) else .r0 (Fin.ofNat 4 code)

/-- The register-file start of formats 6 and XFR: byte `bits 6:5` of register `bits 4:0` (R124, R127). -/
def decodeStart (w : Word) : Fin 128 := Fin.ofNat 128 (4 * bits w 4 0 + bits w 6 5)

/-- The signed 10-bit distance of formats 4 and 5 (R125): `broff[9:8]` in bits 26:25, `broff[7:0]` in bits 7:0. -/
def decodeDist (w : Word) : Int :=
  let v := bits w 26 25 * 256 + bits w 7 0
  if v < 512 then v else (v : Int) - 1024

/-- Format 1, ALU (R123). NOT's third operand is ignored (log entry 3). -/
def decodeAlu (w : Word) : Instr :=
  let rd := decodeField (bits w 7 0)
  let rs := decodeField (bits w 15 8)
  let op := decodeOp w
  match bits w 28 25 with
  | 0 => .add rd rs op
  | 1 => .adc rd rs op
  | 2 => .sub rd rs op
  | 3 => .suc rd rs op
  | 4 => .lsl rd rs op
  | 5 => .lsr rd rs op
  | 6 => .rsb rd rs op
  | 7 => .rsc rd rs op
  | 8 => .and rd rs op
  | 9 => .or rd rs op
  | 10 => .xor rd rs op
  | 11 => .not rd rs
  | 12 => .min rd rs op
  | 13 => .max rd rs op
  | 14 => .clr rd rs op
  | _ => .set rd rs op

/-- The XFR group, format 2 sub-operation 7 (R124). An XIN word of device 255 is ZERO and one of device 254 FILL, as
the tools are believed to emit them (log entry 4). -/
def decodeXfr (w : Word) : Except Reject Instr :=
  let dev := bits w 22 15
  let start := decodeStart w
  let cnt := decodeCount (bits w 13 7)
  if bits w 14 14 ≠ 0 then .error .xfrBit14
  else match bits w 24 23 with
    | 0 => .error .xfrDirection
    | 1 =>
      if dev = 255 then
        match cnt with
        | .imm n => .ok (.zero start n)
        | .r0 _ => .error .zeroRegisterCount
      else if dev = 254 then .error .fill
      else .ok (.xin dev start cnt)
    | 2 => .ok (.xout dev start cnt)
    | _ => .ok (.xchg dev start cnt)

/-- Format 2 (R124). -/
def decodeMisc (w : Word) : Except Reject Instr :=
  let rd := decodeField (bits w 7 0)
  match bits w 28 25 with
  | 0 =>
    if bits w 7 0 ≠ 0 ∨ (bits w 24 24 = 0 ∧ bits w 15 8 ≠ 0) then .error .reservedBits else .ok (.jmp (decodeTarget w))
  | 1 => if bits w 24 24 = 0 ∧ bits w 15 8 ≠ 0 then .error .reservedBits else .ok (.jal rd (decodeTarget w))
  | 2 => if bits w 24 24 ≠ 0 then .error .ldiBit24 else .ok (.ldi rd (bits w 23 8))
  | 3 => .ok (.lmbd rd (decodeField (bits w 15 8)) (decodeOp w))
  | 4 => .ok (.scan (Fin.ofNat 32 (bits w 4 0)) (decodeOp w))
  | 5 => if bits w 24 0 ≠ 0 then .error .reservedBits else .ok .halt
  | 6 => .error .mviGroup
  | 7 => decodeXfr w
  | 8 =>
    if bits w 15 15 ≠ 0 then .error .iloop
    else if bits w 14 8 ≠ 0 then .error .reservedBits
    else .ok (.loop (bits w 7 0)
      (if bits w 24 24 = 1 then .imm (bits w 23 16 + 1) else .reg (decodeField (bits w 23 16))))
  | 15 =>
    if bits w 24 24 ≠ 0 ∨ bits w 22 0 ≠ 0 then .error .reservedBits else .ok (.slp (decide (bits w 23 23 = 1)))
  | n => .error (.subop n)

/-- Format 4, compare and branch (R125): bits 29:27 are `gt`, `eq`, `lt`. QBA ignores its operands. -/
def decodeCompare (w : Word) : Except Reject Instr :=
  let dist := decodeDist w
  let rs := decodeField (bits w 15 8)
  let op := decodeOp w
  match bits w 29 27 with
  | 0 => .error .noRelation
  | 1 => .ok (.qblt dist rs op)
  | 2 => .ok (.qbeq dist rs op)
  | 3 => .ok (.qble dist rs op)
  | 4 => .ok (.qbgt dist rs op)
  | 5 => .ok (.qbne dist rs op)
  | 6 => .ok (.qbge dist rs op)
  | _ => .ok (.qba dist)

/-- Format 5, bit test and branch (R126). -/
def decodeBitTest (w : Word) : Except Reject Instr :=
  match bits w 28 27 with
  | 1 => .ok (.qbbc (decodeDist w) (decodeField (bits w 15 8)) (decodeOp w))
  | 2 => .ok (.qbbs (decodeDist w) (decodeField (bits w 15 8)) (decodeOp w))
  | _ => .error .noBitSense

/-- Format 6, burst (R127): the length code is bits 27:25, 15:13 and 7. `table` tells the constant-table base. -/
def decodeBurst (table : Bool) (w : Word) : Instr :=
  let cnt := decodeCount (bits w 27 25 * 16 + bits w 15 13 * 2 + bits w 7 7)
  let start := decodeStart w
  let base := Fin.ofNat 32 (bits w 12 8)
  let op := decodeOp w
  match table, decide (bits w 28 28 = 1) with
  | false, true => .lbbo start base op cnt
  | false, false => .sbbo start base op cnt
  | true, true => .lbco start base op cnt
  | true, false => .sbco start base op cnt

/-- The instruction a 32-bit word stands for, or why it stands for none (R121). -/
def decode (w : Word) : Except Reject Instr :=
  match bits w 31 29 with
  | 0 => .ok (decodeAlu w)
  | 1 => decodeMisc w
  | 2 => decodeCompare w
  | 3 => decodeCompare w
  | 4 => .ok (decodeBurst true w)
  | 5 => .error .format101
  | 6 => decodeBitTest w
  | _ => .ok (decodeBurst false w)

/-- The instruction the decoder reads from an instruction of the opcode table whose `nbits` bits are `w`, the bits
above them 0. An instruction is one 32-bit word (R121), at one address. -/
def decodeTableWord (nbits w : Nat) : Option Instr :=
  if w % 2 ^ nbits < 2 ^ 32 then
    match decode (BitVec.ofNat 32 (w % 2 ^ nbits)) with
    | .ok i => some i
    | .error _ => none
  else none

/-! The encoder. It is for well-formed operands (`operandCheck`): an immediate out of its class has no place in a word. -/

/-- Bits 7:5 of a register byte (R122). -/
def encodeSel : Sel → Nat
  | .b0 => 0
  | .b1 => 1
  | .b2 => 2
  | .b3 => 3
  | .w0 => 4
  | .w1 => 5
  | .w2 => 6
  | .full => 7

/-- A register byte (R122). -/
def encodeField (f : Field) : Nat := encodeSel f.sel * 32 + f.reg

/-- Bits 24 (`io`) and 23:16 (`op2`) of an `OP(n)` operand, in place. -/
def encodeOp : Operand → Nat
  | .imm v => 2 ^ 24 + v * 2 ^ 16
  | .reg f => encodeField f * 2 ^ 16

/-- Bits 24:8 of the target of JMP and JAL, in place (R124). -/
def encodeTarget : Operand → Nat
  | .imm v => 2 ^ 24 + v * 2 ^ 8
  | .reg f => encodeField f * 2 ^ 16

/-- A length code (R127). -/
def encodeCount : Count → Nat
  | .imm n => n - 1
  | .r0 k => 124 + k

/-- Bits 6:0 of a register-file start: the byte in bits 6:5, the register in bits 4:0 (R124, R127). -/
def encodeStart (start : Nat) : Nat := start % 4 * 32 + start / 4

/-- Format 1 (R123). -/
def encodeAlu (aluop : Nat) (rd rs : Field) (op : Operand) : Option Word :=
  some (BitVec.ofNat 32 (aluop * 2 ^ 25 + encodeOp op + encodeField rs * 2 ^ 8 + encodeField rd))

/-- Format 2 with the operands of format 1 in bits 24:0 (R124, LMBD). -/
def encodeMisc (subop low : Nat) : Option Word := some (BitVec.ofNat 32 (2 ^ 29 + subop * 2 ^ 25 + low))

/-- The XFR group (R124): `dir` is bits 24:23. -/
def encodeXfr (dir dev start code : Nat) : Option Word :=
  encodeMisc 7 (dir * 2 ^ 23 + dev * 2 ^ 15 + code * 2 ^ 7 + encodeStart start)

/-- The distance of formats 4 and 5, in place, where the 10 bits can hold it (R125, R128). -/
def encodeDist (dist : Int) : Option Nat :=
  if -512 ≤ dist ∧ dist ≤ 511 then
    let v := (dist % 1024).toNat
    some (v / 256 * 2 ^ 25 + v % 256)
  else none

/-- Formats 4 and 5 (R125, R126): `head` is bits 31:27, `low` the operand bits. -/
def encodeBranch (head : Nat) (dist : Int) (low : Nat) : Option Word :=
  match encodeDist dist with
  | some d => some (BitVec.ofNat 32 (head * 2 ^ 27 + d + low))
  | none => none

/-- Format 6 (R127): `head` is bits 31:28. -/
def encodeBurst (head : Nat) (start : Fin 128) (base : Fin 32) (op : Operand) (cnt : Count) : Option Word :=
  let code := encodeCount cnt
  some (BitVec.ofNat 32 (head * 2 ^ 28 + code / 16 * 2 ^ 25 + encodeOp op + code / 2 % 8 * 2 ^ 13 + base * 2 ^ 8
    + code % 2 * 2 ^ 7 + encodeStart start))

/-- The operand bits of formats 4 and 5. -/
def branchOperands (rs : Field) (op : Operand) : Nat := encodeOp op + encodeField rs * 2 ^ 8

/-- The word of a well-formed instruction (R121 to R129); `none` where the encoding has none: MVIB, MVIW, MVID (R124),
and a label the distance field cannot reach (R128). A pseudo-op has the word of its expansion (R129). -/
def encode : Instr → Option Word
  | .add rd rs op => encodeAlu 0 rd rs op
  | .adc rd rs op => encodeAlu 1 rd rs op
  | .sub rd rs op => encodeAlu 2 rd rs op
  | .suc rd rs op => encodeAlu 3 rd rs op
  | .lsl rd rs op => encodeAlu 4 rd rs op
  | .lsr rd rs op => encodeAlu 5 rd rs op
  | .rsb rd rs op => encodeAlu 6 rd rs op
  | .rsc rd rs op => encodeAlu 7 rd rs op
  | .and rd rs op => encodeAlu 8 rd rs op
  | .or rd rs op => encodeAlu 9 rd rs op
  | .xor rd rs op => encodeAlu 10 rd rs op
  | .not rd rs => encodeAlu 11 rd rs (.imm 0)
  | .min rd rs op => encodeAlu 12 rd rs op
  | .max rd rs op => encodeAlu 13 rd rs op
  | .clr rd rs op => encodeAlu 14 rd rs op
  | .set rd rs op => encodeAlu 15 rd rs op
  | .mov rd (.reg f) => encodeAlu 8 rd f (.reg f)
  | .mov rd (.imm v) => encodeMisc 2 (v * 2 ^ 8 + encodeField rd)
  | .jmp t => encodeMisc 0 (encodeTarget t)
  | .jal rd t => encodeMisc 1 (encodeTarget t + encodeField rd)
  | .ldi rd v => encodeMisc 2 (v * 2 ^ 8 + encodeField rd)
  | .lmbd rd rs op => encodeMisc 3 (encodeOp op + encodeField rs * 2 ^ 8 + encodeField rd)
  | .scan rn op => encodeMisc 4 (encodeOp op + encodeField ⟨rn, .full⟩)
  | .halt => encodeMisc 5 0
  | .mvib _ _ => none
  | .mviw _ _ => none
  | .mvid _ _ => none
  | .zero start len => encodeXfr 1 255 start (encodeCount (.imm len))
  | .xin dev start cnt => encodeXfr 1 dev start (encodeCount cnt)
  | .xout dev start cnt => encodeXfr 2 dev start (encodeCount cnt)
  | .xchg dev start cnt => encodeXfr 3 dev start (encodeCount cnt)
  | .loop dist (.imm v) =>
    if 0 ≤ dist ∧ dist ≤ 255 then encodeMisc 8 (2 ^ 24 + (v - 1) * 2 ^ 16 + dist.toNat) else none
  | .loop dist (.reg f) =>
    if 0 ≤ dist ∧ dist ≤ 255 then encodeMisc 8 (encodeField f * 2 ^ 16 + dist.toNat) else none
  | .slp wake => encodeMisc 15 (if wake then 2 ^ 23 else 0)
  | .qblt dist rs op => encodeBranch 0b01001 dist (branchOperands rs op)
  | .qbeq dist rs op => encodeBranch 0b01010 dist (branchOperands rs op)
  | .qble dist rs op => encodeBranch 0b01011 dist (branchOperands rs op)
  | .qbgt dist rs op => encodeBranch 0b01100 dist (branchOperands rs op)
  | .qbne dist rs op => encodeBranch 0b01101 dist (branchOperands rs op)
  | .qbge dist rs op => encodeBranch 0b01110 dist (branchOperands rs op)
  | .qba dist => encodeBranch 0b01111 dist 0
  | .qbbc dist rs op => encodeBranch 0b11001 dist (branchOperands rs op)
  | .qbbs dist rs op => encodeBranch 0b11010 dist (branchOperands rs op)
  | .wbs rs op => encodeBranch 0b11001 0 (branchOperands rs op)
  | .wbc rs op => encodeBranch 0b11010 0 (branchOperands rs op)
  | .lbbo start base op cnt => encodeBurst 0b1111 start base op cnt
  | .sbbo start base op cnt => encodeBurst 0b1110 start base op cnt
  | .lbco start base op cnt => encodeBurst 0b1001 start base op cnt
  | .sbco start base op cnt => encodeBurst 0b1000 start base op cnt

end Sys2Proof
end

