-- ==== Sys2Proof/Machine/State.lean ====
section
/-! DEFINITION. The machine's state as plain data, the reasons a step can stop, and the state right after reset
(10_state.md; 60_exceptions.md R321; 70_reset_and_hazards.md R350 to R352). Where each field stands in spec/ and what it
holds at reset is listed in INVENTORY.md under State. -/

namespace Sys2Proof.Machine

open Config (Params Event)

/-- The run state (10_state.md R36); the SLEEPING bit of CTRL is this (R42). -/
inductive RunState where
  | running
  /-- the source's "disabled", entered by HALT -/
  | halted
  /-- entered by SLP, with its "wake on event" option -/
  | sleeping (wake : Bool)
  deriving DecidableEq, Repr

/-- What one address of instruction memory holds (00_scope.md R6, R121): a 32-bit word, or an instruction at the
assembly level. DESIGN CHOICE, safe: both are admitted, since MVIB, MVIW and MVID have no known word (log entry 1). -/
inductive Slot where
  | word (w : Word)
  | asm (i : Instr)
  deriving DecidableEq, Repr

/-- What other agents write to data memory while the core runs one instruction (20_memory.md R67, R72). A burst is a run of
one-byte accesses, in any order, and the writes fall anywhere among them: `before` says for each byte of the burst how
many of the writes come before the core's access to it. Every interleaving is one such value (log entry 20). -/
structure Meanwhile where
  /-- the bytes other agents write, in order -/
  writes : List (Word × Byte)
  /-- for byte `i` of a burst, how many of the writes come before the core's access to it; 0 past the end of the list -/
  before : List Nat
  deriving DecidableEq, Repr

/-- No other agent writes. -/
def Meanwhile.nothing : Meanwhile := ⟨[], []⟩

/-- One entry of the host's schedule (60_exceptions.md R330 to R332): what happens at one step. DESIGN CHOICE, unsafe: the
host has no move that changes `pc` or a register, of a halted core or of any other, but Reset; whether it may is not in
the source (R330, 91_not_in_source.md N23; log entry 17). -/
inductive HostMove where
  /-- no move of the host: the core takes the step -/
  | core
  /-- `Enable` (R330), from Halted; DESIGN CHOICE: from another run state it does nothing (log entry 17) -/
  | enable
  /-- `ClearSleeping` (R331), from Sleeping; DESIGN CHOICE: from another run state it does nothing (log entry 17) -/
  | clearSleeping
  /-- `Reset` (R331, R350) -/
  | reset
  /-- the host replaces, adds or removes the instruction at an address (20_memory.md R75) -/
  | writeImem (addr : InstrAddr) (slot : Option Slot)
  /-- another agent writes a byte of data memory (20_memory.md R71, R72) -/
  | agentWrite (addr : Word) (v : Byte)
  /-- settles what other agents write while the core runs its next instruction (R67) -/
  | meanwhile (d : Meanwhile)
  deriving DecidableEq, Repr

/-- Data memory (20_memory.md R60): the bytes that differ from what an unlisted address reads as, by rising address. -/
abbrev Memory := List Host.Cell

/-- Instruction memory (20_memory.md R75): the addresses that hold an instruction, by rising address. -/
abbrev InstrMemory := List (Nat × Slot)

/-- The machine's state. -/
structure State where
  /-- R0 to R30 (10_state.md R20); R31 is not stored (R29) -/
  regs : Vector Word 31
  /-- the carry (R33) -/
  carry : Bool
  /-- the instruction pointer (R34) -/
  pc : InstrAddr
  /-- the MODEL's: the last next address was no 16-bit address, so the coming fetch finds no instruction (R261) -/
  pcOut : Bool
  /-- LoopCounter (R35) -/
  loopCounter : BitVec 16
  /-- LoopTop (R35) -/
  loopTop : InstrAddr
  /-- LoopEnd (R35) -/
  loopEnd : InstrAddr
  /-- the run state (R36) -/
  run : RunState
  /-- data memory (20_memory.md R60) -/
  dmem : Memory
  /-- instruction memory (20_memory.md R60, R75) -/
  imem : InstrMemory
  /-- the parameters of the run (00_scope.md R9, 70_reset_and_hazards.md R352); no step changes them -/
  params : Params
  /-- the MODEL's: what the host and other agents will do, one entry a step; the core moves when it is empty -/
  host : List HostMove
  /-- the MODEL's: accesses and outward events so far, oldest first (70_reset_and_hazards.md R354) -/
  history : List Event
  /-- the MODEL's: the moment at which the environment's free values are drawn, one more at each step of the core -/
  moment : Nat
  /-- the MODEL's: what other agents write while the core runs its next instruction (20_memory.md R67) -/
  meanwhile : Meanwhile
  deriving DecidableEq, Repr

/-- Why a step ends with a fault: `ModelFault` of 60_exceptions.md R321. All are safe: the model stops where the spec
gives no behaviour or calls it harmful. -/
inductive Fault where
  /-- raised by the fetch: the next address is above 0xFFFF or holds no instruction (R261). Safe. -/
  | fetchOutside
  /-- raised by JMP and JAL: a register target above 0xFFFF (R262, R263). Safe. -/
  | jumpTargetRange
  /-- raised by MVIx, bursts, ZERO and XFR: a register-file range that passes byte 123 (R203, R211). Safe. -/
  | regRange
  /-- raised by bursts and XFR: a byte count 0 from R0 (R213). Safe. -/
  | burstCountZero
  /-- raised by bursts and XFR: a byte count above 124 from R0 (R213). Safe. -/
  | burstCountTooBig
  /-- raised by bursts: an access the platform does not admit (R212, 20_memory.md R69). Safe. -/
  | unadmitted
  /-- raised by MVIx: operands whose order of effects the source does not fix (R207). Safe. -/
  | mviUnspecified
  /-- raised by SCAN: outside what the source describes (R158). Safe. -/
  | scanUnspecified
  /-- raised by the fetch: the word is no instruction of the spec (R130, 93_implementation_defined.md U1). Safe. -/
  | undefinedWord (why : Reject)
  deriving DecidableEq, Repr

/-- Why a step is refused. All are safe. -/
inductive Refusal where
  /-- raised by `exec` for an instruction that has no meaning yet. Safe. -/
  | notModelled (mnemonic : String)
  /-- raised by the step of a running core whose program is not well-formed, wherever in it (30_encoding.md R109, R321), and
  by XCHG where the parameter `xchg` is `refuse` (R226). Safe. -/
  | illFormed (why : IllFormed)
  /-- raised by the step for a host move the spec has not: a write of instruction memory while the core is not halted
  (20_memory.md R75, 70_reset_and_hazards.md R361). Safe. -/
  | noSuchHostMove
  deriving DecidableEq, Repr

/-- The outcome of a step of this machine. -/
abbrev Result := Host.Outcome State Fault Refusal

/-- The machine right after reset (R46, R350 to R352), with nothing loaded. `pc` is `EntryPC`, LoopCounter 0 and the run
state Running, as the spec says. DESIGN CHOICE, unsafe: R0 to R30, the carry, LoopTop and LoopEnd are 0 (log entries 6
and 8), and the parameters are those of `Params.default`. -/
def State.reset : State where
  regs := Vector.replicate 31 0
  carry := false
  pc := Params.default.entryPC
  pcOut := false
  loopCounter := 0
  loopTop := 0
  loopEnd := 0
  run := .running
  dmem := []
  imem := []
  params := Params.default
  host := []
  history := []
  moment := 0
  meanwhile := .nothing

/-! One named update for each field, so that a meaning never writes a record update of its own. -/

def State.withRegs (s : State) (r : Vector Word 31) : State := { s with regs := r }
def State.withCarry (s : State) (c : Bool) : State := { s with carry := c }
def State.withPc (s : State) (pc : InstrAddr) (out : Bool) : State := { s with pc := pc, pcOut := out }
def State.withCounter (s : State) (n : BitVec 16) : State := { s with loopCounter := n }
def State.withLoop (s : State) (n : BitVec 16) (top fin : InstrAddr) : State :=
  { s with loopCounter := n, loopTop := top, loopEnd := fin }
def State.withRun (s : State) (r : RunState) : State := { s with run := r }
def State.withDmem (s : State) (m : Memory) : State := { s with dmem := m }
def State.withImem (s : State) (m : InstrMemory) : State := { s with imem := m }
def State.withHost (s : State) (h : List HostMove) : State := { s with host := h }
def State.withMoment (s : State) (n : Nat) : State := { s with moment := n }
def State.withMeanwhile (s : State) (d : Meanwhile) : State := { s with meanwhile := d }
/-- Appends events to the history (R354). -/
def State.emit (s : State) (es : List Event) : State := { s with history := s.history ++ es }

end Sys2Proof.Machine
end

