-- ==== Sys2Proof/Machine/Cells.lean ====
section
/-! DEFINITION. Sparse memories: lists of (address, value) pairs by strictly rising address, in one canonical form, and
the two memories built on them: data memory (20_memory.md R60, R62) and instruction memory (R75). -/

namespace Sys2Proof.Machine

/-- The value listed at an address, if any. -/
def cellAt {α : Type} (a : Nat) : List (Nat × α) → Option α
  | [] => none
  | (b, v) :: rest => if a = b then some v else cellAt a rest

/-- Lists a value at an address, in the place its address has in the order. -/
def cellPut {α : Type} (a : Nat) (v : α) : List (Nat × α) → List (Nat × α)
  | [] => [(a, v)]
  | (b, w) :: rest =>
    if a < b then (a, v) :: (b, w) :: rest
    else if a = b then (a, v) :: rest
    else (b, w) :: cellPut a v rest

/-- Removes what is listed at an address. -/
def cellDrop {α : Type} (a : Nat) : List (Nat × α) → List (Nat × α)
  | [] => []
  | (b, w) :: rest => if a = b then rest else (b, w) :: cellDrop a rest

/-- Every address listed is above `lo` and the addresses rise strictly. -/
def risingFrom {α : Type} : Nat → List (Nat × α) → Bool
  | _, [] => true
  | lo, (b, _) :: rest => decide (lo ≤ b) && risingFrom (b + 1) rest

/-- What a byte of data memory that is not listed reads as. DESIGN CHOICE, unsafe: 0 (log entry 12); the contents of data
memory at launch are the claim's (70_reset_and_hazards.md R352) and are given by listing them. -/
def unlistedByte : Byte := 0

/-- One byte of data memory. -/
def Memory.read (m : Memory) (a : Nat) : Byte := (cellAt a m).getD unlistedByte

/-- Stores one byte of data memory and keeps the canonical form. -/
def Memory.write (m : Memory) (a : Nat) (v : Byte) : Memory :=
  if v = unlistedByte then cellDrop a m else cellPut a v m

/-- The canonical form of data memory: addresses rise strictly, each below 2^32, and no entry is `unlistedByte`. -/
def Memory.wf (m : Memory) : Bool :=
  risingFrom 0 m && m.all fun c => decide (c.1 < 2 ^ 32) && decide (c.2 ≠ unlistedByte)

/-- `MemWrite` (R62): byte `i` of the list goes to `addr + i` modulo 2^32. -/
def Memory.writeRun (m : Memory) (addr : Word) : List Byte → Memory
  | [] => m
  | b :: bs => Memory.writeRun (m.write addr.toNat b) (addr + 1) bs

/-- Writes of single bytes, one after the other. -/
def Memory.writeAll (m : Memory) : List (Word × Byte) → Memory
  | [] => m
  | w :: ws => Memory.writeAll (m.write w.1.toNat w.2) ws

/-- The instruction an address holds, if any (R75). -/
def InstrMemory.fetch (m : InstrMemory) (a : InstrAddr) : Option Slot := cellAt a.toNat m

/-- Replaces what an address holds. -/
def InstrMemory.replace (m : InstrMemory) (a : InstrAddr) : Option Slot → InstrMemory
  | some sl => cellPut a.toNat sl m
  | none => cellDrop a.toNat m

/-- The canonical form of instruction memory: addresses rise strictly and have 16 bits (R34). -/
def InstrMemory.wf (m : InstrMemory) : Bool :=
  risingFrom 0 m && m.all fun c => decide (c.1 < 2 ^ 16)

end Sys2Proof.Machine
end

