-- ==== Sys2Proof/Machine/Operands.lean ====
section
/-! DEFINITION. Registers and operands: the register file as words and as bytes (10_state.md R20, R21), register fields
(R22 to R26), R30 and R31 (R29 to R32), operand values (30_encoding.md R98) and byte counts (R27, R213). -/

namespace Sys2Proof.Machine

open Config (Event)

/-! Parts of a word. -/

/-- The `w` low bits of a word: `trunc_w` (R11), zero-extended back to 32 bits. -/
def lowBits (w : Nat) (v : Word) : Word := v &&& BitVec.ofNat 32 (2 ^ w - 1)

/-- Bits `lo + w - 1` down to `lo` of a word, zero-extended to 32 bits (R10, R23). -/
def extractBits (x : Word) (lo w : Nat) : Word := lowBits w (x >>> lo)

/-- A word with its bits `lo + w - 1` down to `lo` replaced by the `w` low bits of `v`; the others keep (R24). -/
def insertBits (x : Word) (lo w : Nat) (v : Word) : Word :=
  (x &&& ~~~(BitVec.ofNat 32 (2 ^ w - 1) <<< lo)) ||| (lowBits w v <<< lo)

/-- A number from its bytes, the first the least significant (R21, R63). -/
def fromBytes : List Byte → Nat
  | [] => 0
  | b :: bs => b.toNat + 256 * fromBytes bs

/-- The `n` low bytes of a word, the least significant first (R21). -/
def toBytes (n : Nat) (v : Word) : List Byte := (List.range n).map fun i => (v >>> (8 * i)).setWidth 8

/-! Register fields (R22). -/

/-- The lowest bit of a part of a register. -/
def selLow : Sel → Nat
  | .b0 => 0
  | .b1 => 8
  | .b2 => 16
  | .b3 => 24
  | .w0 => 0
  | .w1 => 8
  | .w2 => 16
  | .full => 0

/-- The width in bits of a part of a register. -/
def selWidth : Sel → Nat
  | .b0 => 8
  | .b1 => 8
  | .b2 => 8
  | .b3 => 8
  | .w0 => 16
  | .w1 => 16
  | .w2 => 16
  | .full => 32

/-- `width(F)` (R22). -/
def Field.width (f : Field) : Nat := selWidth f.sel

/-- `off(F)`, the assembler's `&F`: the byte offset of the lowest byte of the field (R22, R25). -/
def Field.off (f : Field) : Nat := 4 * f.reg + selLow f.sel / 8

/-! Reading registers. -/

/-- What an instruction that reads R31 gets (R29): one draw of the 32 input event flags, the same for every field of R31
that the instruction reads. FREE VALUE, safe (log entry 14). -/
def State.r31 (s : State) : Word := Config.r31In s.history s.moment

/-- `x[n]` (R20): R0 to R30 are stored, a read of R31 is an input (R29). -/
def State.x (s : State) (n : Nat) : Word := if n = 31 then s.r31 else (s.regs[n]?).getD 0

/-- `rd(F)`: the bits of the field, zero-extended (R23). -/
def State.rd (s : State) (f : Field) : Word := extractBits (s.x f.reg) (selLow f.sel) (Field.width f)

/-- `val(OP)` (30_encoding.md R98). -/
def State.val (s : State) : Operand → Word
  | .reg f => s.rd f
  | .imm v => BitVec.ofNat 32 v

/-- `RF[o]`: byte `o` of the register file (R21). -/
def State.rf (s : State) (o : Nat) : Byte := (s.x (o / 4) >>> (8 * (o % 4))).setWidth 8

/-- `n` bytes of the register file from offset `o` up. -/
def State.rfRun (s : State) (o n : Nat) : List Byte := (List.range n).map fun i => s.rf (o + i)

/-! Writing registers. -/

/-- The stored registers with byte `o` of the register file replaced; an offset in R31 changes nothing stored (R31). -/
def putByte (regs : Vector Word 31) (o : Nat) (b : Byte) : Vector Word 31 :=
  regs.setIfInBounds (o / 4) (insertBits ((regs[o / 4]?).getD 0) (8 * (o % 4)) 8 (b.setWidth 32))

/-- The stored registers with a run of bytes of the register file replaced, from offset `o` up. -/
def putBytes (regs : Vector Word 31) (o : Nat) : List Byte → Vector Word 31
  | [] => regs
  | b :: bs => putBytes (putByte regs o b) (o + 1) bs

/-- The outward event of a write that touches bytes `o` to `o + n - 1`: R30 is stored and its new value is also seen
outside (R32). -/
def r30Event (regs : Vector Word 31) (o n : Nat) : List Event :=
  if o < 124 ∧ 120 < o + n then [.r30Out ((regs[30]?).getD 0)] else []

/-- A run of bytes written to the register file at `o`, where the range lies in R0 to R30 (R211). -/
def State.rfPut (s : State) (o : Nat) (bs : List Byte) : State :=
  (s.withRegs (putBytes s.regs o bs)).emit (r30Event (putBytes s.regs o bs) o bs.length)

/-- `wr(F, v)` (R24): the field gets the low bits of `v`, the other bits of the register keep. A write to a field of R31
changes no state of the core and is an outward event (R31). -/
def State.wr (s : State) (f : Field) (v : Word) : State :=
  if f.reg = 31 then s.emit [.r31Out f (lowBits (Field.width f) v)]
  else s.rfPut (Field.off f) (toBytes (Field.width f / 8) v)

/-! Byte counts and register-file ranges. -/

/-- Byte `k` of register `n` as a field. -/
def byteField (n : Fin 32) (k : Fin 4) : Field :=
  ⟨n, match k with
    | 0 => .b0
    | 1 => .b1
    | 2 => .b2
    | 3 => .b3⟩

/-- The byte count of a burst or XFR instruction (R27, R213): the immediate, or byte `k` of R0 as it is when the
instruction executes. -/
def State.countOf (s : State) : Count → Nat
  | .imm n => n
  | .r0 k => (s.rd (byteField 0 k)).toNat

/-- The checks of the count and then of the range (R211, R213; order R322): `none` if both hold. -/
def rangeFault (o n : Nat) : Option Fault :=
  if n = 0 then some .burstCountZero
  else if 124 < n then some .burstCountTooBig
  else if 124 < o + n then some .regRange
  else none

end Sys2Proof.Machine
end

