-- ==== Sys2Proof/Machine/Flags.lean ====
section
/-! DEFINITION. The one flag, the carry (10_state.md R33, 41_arithmetic_logical.md R141). Arithmetic is exact on integers;
the 33-bit result, the carry and the truncated result are read off the exact one. -/

namespace Sys2Proof.Machine

/-- The carry as a number: what ADC adds and SUC and RSC subtract (R143, R145, R147). -/
def carryIn (c : Bool) : Int := if c then 1 else 0

/-- R141: bit `w` of the 33-bit result `r mod 2^33`, for a destination of `w` bits. -/
def carryOut (w : Nat) (r : Int) : Bool := decide (r % 2 ^ 33 / 2 ^ w % 2 = 1)

end Sys2Proof.Machine
end

