-- ==== Sys2Proof/Machine/Ops.lean ====
section
/-! DEFINITION. The shared operations the meanings are built from: the advance of `pc` with the loop-end test
(43_control_flow.md R261, R291), the arithmetic and logical result (41_arithmetic_logical.md R140), data memory
(20_memory.md R61 to R72) and stopping.

The hardware has no exception to take and none to return from: the spec describes no trap, no cause, no saved pc, no
vector and no return instruction (60_exceptions.md R320, R325, R326), so there is no such operation here. -/

namespace Sys2Proof.Machine

open Config (Event Region RegionKind)

/-! The next address. -/

/-- `pc <- t` (R261): a next address that is no 16-bit address is marked, and the coming fetch faults on it. DESIGN
CHOICE, safe (log entry 21). -/
def State.setPc (s : State) (t : Int) : State := s.withPc (BitVec.ofInt 16 t) (decide (t < 0 ∨ 65535 < t))

/-- Whether the loop hardware catches the next address `t` (R261, R291): V3, armed, and `t` is LoopEnd. -/
def State.atLoopEnd (s : State) (t : Int) : Bool :=
  s.params.rev = .v3 && decide (s.loopCounter ≠ 0) && decide (t = s.loopEnd.toNat)

/-- `next(t)` (R261): at the end of an armed loop the counter goes down by one and, while it is above 0, the next address
is LoopTop. -/
def State.next (s : State) (t : Int) : State :=
  if s.atLoopEnd t then
    let c := s.loopCounter - 1
    (s.withCounter c).setPc (if c ≠ 0 then s.loopTop.toNat else t)
  else s.setPc t

/-- `pc + 1` as a number: the address of the following instruction (R34). -/
def State.following (s : State) : Int := (s.pc.toNat : Int) + 1

/-- The label of a QBxx or LOOP: its distance from the instruction (R260). -/
def State.label (s : State) (dist : Int) : Int := (s.pc.toNat : Int) + dist

/-- `next(pc + 1)`, taken from the state the instruction started in. -/
def State.advance (s : State) : State := s.next s.following

/-! Arithmetic and logical results (R140, R141). -/

/-- The end of an arithmetic instruction: the exact result `r` truncated into the destination, the carry by R141. -/
def State.arith (s : State) (rd : Field) (r : Int) : Result :=
  .next ((s.wr rd (BitVec.ofInt 32 r)).withCarry (carryOut (Field.width rd) r)).advance

/-- The end of an instruction that writes a register field and no flag. -/
def State.result (s : State) (rd : Field) (v : Word) : Result := .next (s.wr rd v).advance

/-- Branches to the label if the condition holds, and goes on otherwise. -/
def State.branch (s : State) (taken : Bool) (dist : Int) : Result :=
  .next (s.next (if taken then s.label dist else s.following))

/-- `k = val(OP) & 0x1f` (R148, R156, R272). -/
def State.bitNumber (s : State) (op : Operand) : Nat := (s.val op).toNat % 32

/-- The word `1 << k`. -/
def bitMask (k : Nat) : Word := (1 : Word) <<< k

/-- Bit `val(OP) & 0x1f` of the zero-extended field (43_control_flow.md R272). -/
def State.testBit (s : State) (rs : Field) (op : Operand) : Bool := (s.rd rs).getLsbD (s.bitNumber op)

/-- The target of JMP and JAL: `val(OP)` (R262, R263). -/
def State.target (s : State) (op : Operand) : Nat := (s.val op).toNat

/-! Data memory. -/

/-- Whether a region admits a read (or a write) of `n` bytes from `addr` up, as a whole (R69). -/
def regionAdmits (write : Bool) (addr : Word) (n : Nat) (r : Region) : Bool :=
  (if write then r.writes else r.reads) && decide (r.minLen ≤ n ∧ n ≤ r.maxLen) && decide (addr.toNat % r.align = 0)
    && (List.range n).all fun i => decide ((addr + BitVec.ofNat 32 i - r.base).toNat < r.size)

/-- The platform's admission of a request (R69): what stands behind the first region that admits it, `none` where none
does. -/
def State.admission (s : State) (write : Bool) (addr : Word) (n : Nat) : Option RegionKind :=
  (s.params.regions.find? (regionAdmits write addr n)).map Region.kind

/-! What other agents write while an instruction runs (R67): a burst is `n` one-byte accesses with the writes of others
anywhere among them. -/

/-- The last of some writes to an address, if there is one. -/
def lastWrite (a : Nat) : List (Word × Byte) → Option Byte
  | [] => none
  | w :: ws =>
    match lastWrite a ws with
    | some v => some v
    | none => if w.1.toNat = a then some w.2 else none

/-- How many of the writes come before the core's access to byte `i` of a burst. -/
def Meanwhile.beforeByte (d : Meanwhile) (i : Nat) : Nat := (d.before[i]?).getD 0

/-- Whether the core's store of `n` bytes at `addr` overwrites write number `k`, at the address `a`: it stores there, and
after that write. -/
def Meanwhile.overwrites (d : Meanwhile) (addr : Word) (n k : Nat) (a : Word) : Bool :=
  (List.range n).any fun i => decide (a = addr + BitVec.ofNat 32 i) && decide (k < d.beforeByte i)

/-- The writes, the first of them number `k`, that a store of `n` bytes at `addr` does not overwrite. -/
def Meanwhile.left (d : Meanwhile) (addr : Word) (n : Nat) : Nat → List (Word × Byte) → List (Word × Byte)
  | _, [] => []
  | k, w :: ws => if d.overwrites addr n k w.1 then d.left addr n (k + 1) ws else w :: d.left addr n (k + 1) ws

/-- The end of an instruction: data memory takes the writes of other agents that are left. -/
def State.settle (s : State) : State := (s.withDmem (s.dmem.writeAll s.meanwhile.writes)).withMeanwhile .nothing

/-- `MemRead` (R62, R67, R72): the bytes at `addr + i` modulo 2^32, lowest `i` first. Memory answers what it holds, each byte
with the writes of other agents that come before its access; a device answers FREE VALUES (R68; log entry 20). -/
def State.memRead (s : State) (kind : RegionKind) (addr : Word) (n : Nat) : List Byte :=
  match kind with
  | .ram =>
    (List.range n).map fun i =>
      (lastWrite (addr + BitVec.ofNat 32 i).toNat (s.meanwhile.writes.take (s.meanwhile.beforeByte i))).getD
        (s.dmem.read (addr + BitVec.ofNat 32 i).toNat)
  | .device => (List.range n).map (Config.memIn s.history s.moment addr n)

/-- Constant-table entry `n` (10_state.md R40). -/
def State.ctEntry (s : State) (n : Fin 32) : Word := s.params.ct[n]

/-- The effective address of a burst (R61): base plus offset, modulo 2^32. -/
def State.burstAddr (s : State) (base : Word) (op : Operand) : Word := base + s.val op

/-- The load half of a burst after its checks (R210): the `n` bytes a read answers, into the register file at `o`. -/
def State.loadRun (s : State) (kind : RegionKind) (o n : Nat) (addr : Word) : State :=
  (s.emit [.memRead addr n]).rfPut o (s.memRead kind addr n)

/-- The store half of a burst after its checks (R210): `n` bytes of the register file from `o` into memory. Of the writes of
other agents meanwhile, those that come before the core's own store of their byte are lost (R67). -/
def State.storeRun (s : State) (o n : Nat) (addr : Word) : State :=
  ((s.withDmem (s.dmem.writeRun addr (s.rfRun o n))).withMeanwhile
    ⟨s.meanwhile.left addr n 0 s.meanwhile.writes, s.meanwhile.before⟩).emit [.memWrite addr (s.rfRun o n)]

/-- A burst (R210 to R213, R218): operands first, then the checks in the order of R322, then the copy. `write` tells
SBBO and SBCO. -/
def State.burst (s : State) (write : Bool) (start : Fin 128) (base : Word) (op : Operand) (cnt : Count) : Result :=
  match rangeFault start (s.countOf cnt) with
  | some f => .fault f
  | none =>
    match s.admission write (s.burstAddr base op) (s.countOf cnt) with
    | none => .fault .unadmitted
    | some kind =>
      if write then .next (s.storeRun start (s.countOf cnt) (s.burstAddr base op)).advance
      else .next (s.loadRun kind start (s.countOf cnt) (s.burstAddr base op)).advance

/-! XFR transfers (42_register_load_store.md R222 to R226). -/

/-- `XfrIn(dev, o, n)` (R222): the bytes the device answers. FREE VALUE, safe (log entry 15). -/
def State.xfrAnswer (s : State) (dev o n : Nat) : List Byte :=
  (List.range n).map (Config.xfrIn s.history s.moment dev o n)

/-- XIN after its checks (R224). -/
def State.xfrIn (s : State) (dev o n : Nat) : State := s.rfPut o (s.xfrAnswer dev o n)

/-- XOUT after its checks (R225). -/
def State.xfrOut (s : State) (dev o n : Nat) : State := s.emit [.xfrOut dev o (s.rfRun o n)]

/-- The exchange XCHG is defined as (R226): the bytes go out as they were, the device's bytes come in. -/
def State.xfrExchange (s : State) (dev o n : Nat) : State :=
  (s.xfrOut dev o n).rfPut o (s.xfrAnswer dev o n)

/-- An XFR instruction (R223): the checks of R211 and R213, then the transfer. -/
def State.transfer (s : State) (start : Fin 128) (cnt : Count) (move : Nat → State) : Result :=
  match rangeFault start (s.countOf cnt) with
  | some f => .fault f
  | none => .next (move (s.countOf cnt)).advance

end Sys2Proof.Machine
end

