-- ==== Sys2Proof/Machine/Arith.lean ====
section
/-! DEFINITION. The six arithmetic instructions (41_arithmetic_logical.md R142 to R147): the exact integer result, over
`State.arith` (R140, R141). -/

namespace Sys2Proof.Machine

/-- ADD (R142): `REG2 + OP(255)`. -/
def execAdd (rd rs : Field) (op : Operand) (s : State) : Result :=
  s.arith rd ((s.rd rs).toNat + (s.val op).toNat)

/-- ADC (R143): `REG2 + OP(255) + carry`. -/
def execAdc (rd rs : Field) (op : Operand) (s : State) : Result :=
  s.arith rd ((s.rd rs).toNat + (s.val op).toNat + carryIn s.carry)

/-- SUB (R144): `REG2 - OP(255)` (conflict C1). -/
def execSub (rd rs : Field) (op : Operand) (s : State) : Result :=
  s.arith rd ((s.rd rs).toNat - (s.val op).toNat)

/-- SUC (R145): `REG2 - OP(255) - carry` (conflict C2). -/
def execSuc (rd rs : Field) (op : Operand) (s : State) : Result :=
  s.arith rd ((s.rd rs).toNat - (s.val op).toNat - carryIn s.carry)

/-- RSB (R146): `OP(255) - REG2`. -/
def execRsb (rd rs : Field) (op : Operand) (s : State) : Result :=
  s.arith rd ((s.val op).toNat - (s.rd rs).toNat)

/-- RSC (R147): `OP(255) - REG2 - carry`. -/
def execRsc (rd rs : Field) (op : Operand) (s : State) : Result :=
  s.arith rd ((s.val op).toNat - (s.rd rs).toNat - carryIn s.carry)

end Sys2Proof.Machine
end

