-- ==== Sys2Proof/Machine/Burst.lean ====
section
/-! DEFINITION. Burst loads and stores (42_register_load_store.md R214 to R217), over `State.burst` (R210 to R213, R218). -/

namespace Sys2Proof.Machine

/-- LBBO (R214): from the address in a register plus the offset. -/
def execLbbo (start : Fin 128) (base : Fin 32) (op : Operand) (cnt : Count) (s : State) : Result :=
  s.burst false start (s.x base) op cnt

/-- SBBO (R215). -/
def execSbbo (start : Fin 128) (base : Fin 32) (op : Operand) (cnt : Count) (s : State) : Result :=
  s.burst true start (s.x base) op cnt

/-- LBCO (R216): from the address in a constant-table entry plus the offset. -/
def execLbco (start : Fin 128) (base : Fin 32) (op : Operand) (cnt : Count) (s : State) : Result :=
  s.burst false start (s.ctEntry base) op cnt

/-- SBCO (R217). -/
def execSbco (start : Fin 128) (base : Fin 32) (op : Operand) (cnt : Count) (s : State) : Result :=
  s.burst true start (s.ctEntry base) op cnt

end Sys2Proof.Machine
end

