-- ==== Sys2Proof/Machine/Control.lean ====
section
/-! DEFINITION. HALT, SLP and LOOP (43_control_flow.md R287, R288, R290 to R292). -/

namespace Sys2Proof.Machine

/-- HALT (R287): the core is disabled, `pc` stays on the HALT, `next` is not called. -/
def execHalt (s : State) : Result := .next (s.withRun .halted)

/-- SLP (R288): asleep, with `pc` already at the next instruction. -/
def execSlp (wake : Bool) (s : State) : Result := .next (s.withRun (.sleeping wake)).advance

/-- The count of a LOOP (R290): the immediate, or the 16 low bits of the register field. -/
def State.loopCount (s : State) : Operand → BitVec 16
  | .imm v => BitVec.ofNat 16 v
  | .reg f => (s.rd f).setWidth 16

/-- The loop state a LOOP sets (R290). -/
def State.armLoop (s : State) (dist : Int) (cnt : Operand) : State :=
  s.withLoop (s.loopCount cnt) (BitVec.ofInt 16 s.following) (BitVec.ofInt 16 (s.label dist))

/-- LOOP (R290): a count of 0 goes straight to the label. -/
def execLoop (dist : Int) (cnt : Operand) (s : State) : Result :=
  .next ((s.armLoop dist cnt).next (if s.loopCount cnt = 0 then s.label dist else s.following))

end Sys2Proof.Machine
end

