-- ==== Sys2Proof/Machine/Jump.lean ====
section
/-! DEFINITION. JMP and JAL (43_control_flow.md R262, R263), and the quick branches: compare and branch (R264 to R271), bit
test and branch (R272 to R274), and the waits WBS and WBC (R275, R276). -/

namespace Sys2Proof.Machine

/-- JMP (R262): to the absolute address; a register value above 0xFFFF faults. -/
def execJmp (target : Operand) (s : State) : Result :=
  if s.target target ≤ 65535 then .next (s.next (s.target target)) else .fault .jumpTargetRange

/-- JAL (R263): the target is read, then `pc + 1` is written to the link field, then the jump. -/
def execJal (rd : Field) (target : Operand) (s : State) : Result :=
  if s.target target ≤ 65535 then
    .next ((s.wr rd (BitVec.ofInt 32 s.following)).next (s.target target))
  else .fault .jumpTargetRange

/-- QBGT (R265): if `OP(255) > REG1`. -/
def execQbgt (dist : Int) (rs : Field) (op : Operand) (s : State) : Result :=
  s.branch (decide (s.rd rs < s.val op)) dist

/-- QBGE (R266): if `OP(255) >= REG1`. -/
def execQbge (dist : Int) (rs : Field) (op : Operand) (s : State) : Result :=
  s.branch (decide (s.rd rs ≤ s.val op)) dist

/-- QBLT (R267): if `OP(255) < REG1`. -/
def execQblt (dist : Int) (rs : Field) (op : Operand) (s : State) : Result :=
  s.branch (decide (s.val op < s.rd rs)) dist

/-- QBLE (R268): if `OP(255) <= REG1`. -/
def execQble (dist : Int) (rs : Field) (op : Operand) (s : State) : Result :=
  s.branch (decide (s.val op ≤ s.rd rs)) dist

/-- QBEQ (R269): if `OP(255) == REG1`. -/
def execQbeq (dist : Int) (rs : Field) (op : Operand) (s : State) : Result :=
  s.branch (decide (s.val op = s.rd rs)) dist

/-- QBNE (R270): if `OP(255) != REG1`. -/
def execQbne (dist : Int) (rs : Field) (op : Operand) (s : State) : Result :=
  s.branch (decide (s.val op ≠ s.rd rs)) dist

/-- QBA (R271). -/
def execQba (dist : Int) (s : State) : Result := s.branch true dist

/-- QBBS (R273): if the bit is set. -/
def execQbbs (dist : Int) (rs : Field) (op : Operand) (s : State) : Result := s.branch (s.testBit rs op) dist

/-- QBBC (R274): if the bit is clear. -/
def execQbbc (dist : Int) (rs : Field) (op : Operand) (s : State) : Result := s.branch (!s.testBit rs op) dist

/-- WBS (R275): `QBBC $, REG1, OP(31)`. -/
def execWbs (rs : Field) (op : Operand) (s : State) : Result := s.branch (!s.testBit rs op) 0

/-- WBC (R276): `QBBS $, REG1, OP(31)`. -/
def execWbc (rs : Field) (op : Operand) (s : State) : Result := s.branch (s.testBit rs op) 0

end Sys2Proof.Machine
end

