-- ==== Sys2Proof/Machine/Logic.lean ====
section
/-! DEFINITION. Shifts, bitwise instructions, minimum and maximum, single-bit instructions and the left-most bit detect
(41_arithmetic_logical.md R148 to R157, R159). None touches the carry (10_state.md R33). -/

namespace Sys2Proof.Machine

/-- LSL (R148): the count is `OP(31) & 0x1f`; bits shifted out of 32 are lost. -/
def execLsl (rd rs : Field) (op : Operand) (s : State) : Result := s.result rd (s.rd rs <<< s.bitNumber op)

/-- LSR (R149): zeros enter at bit 31. -/
def execLsr (rd rs : Field) (op : Operand) (s : State) : Result := s.result rd (s.rd rs >>> s.bitNumber op)

/-- AND (R150). -/
def execAnd (rd rs : Field) (op : Operand) (s : State) : Result := s.result rd (s.rd rs &&& s.val op)

/-- OR (R151). -/
def execOr (rd rs : Field) (op : Operand) (s : State) : Result := s.result rd (s.rd rs ||| s.val op)

/-- XOR (R152). -/
def execXor (rd rs : Field) (op : Operand) (s : State) : Result := s.result rd (s.rd rs ^^^ s.val op)

/-- NOT (R153): the source is widened before it is inverted. -/
def execNot (rd rs : Field) (s : State) : Result := s.result rd (~~~(s.rd rs))

/-- MIN (R154): unsigned. -/
def execMin (rd rs : Field) (op : Operand) (s : State) : Result :=
  s.result rd (if s.rd rs < s.val op then s.rd rs else s.val op)

/-- MAX (R155): unsigned. -/
def execMax (rd rs : Field) (op : Operand) (s : State) : Result :=
  s.result rd (if s.rd rs < s.val op then s.val op else s.rd rs)

/-- CLR (R156), Format 1; the other formats are shorthand for it (30_encoding.md R97). -/
def execClr (rd rs : Field) (op : Operand) (s : State) : Result :=
  s.result rd (s.rd rs &&& ~~~(bitMask (s.bitNumber op)))

/-- The source of SET: R31 or a field of it is NULL, not the input event flags (10_state.md R30). -/
def State.setSource (s : State) (rs : Field) : Word := if rs.reg = 31 then 0 else s.rd rs

/-- SET (R157), Format 1. An R31 field as the bit number is read normally. -/
def execSet (rd rs : Field) (op : Operand) (s : State) : Result :=
  s.result rd (s.setSource rs ||| bitMask (s.bitNumber op))

/-- The greatest bit number below `n` whose bit of `a` is `t`, if there is one (R159). -/
def highestBit (a : Word) (t : Bool) : Nat → Option Nat
  | 0 => none
  | i + 1 => if a.getLsbD i = t then some i else highestBit a t i

/-- LMBD (R159): the search starts at the top bit of the field REG2; 32 is the answer where no bit matches. -/
def execLmbd (rd rs : Field) (op : Operand) (s : State) : Result :=
  s.result rd (BitVec.ofNat 32 ((highestBit (s.rd rs) ((s.val op).getLsbD 0) (Field.width rs)).getD 32))

end Sys2Proof.Machine
end

