-- ==== Sys2Proof/Machine/Move.lean ====
section
/-! DEFINITION. Register moves: MOV, LDI and the register-file indirect moves MVIB, MVIW, MVID
(42_register_load_store.md R200 to R207). -/

namespace Sys2Proof.Machine

/-- MOV (R200): with a register it is `AND REG1, REG2, REG2`, with an immediate `LDI` (30_encoding.md R107). -/
def execMov (rd : Field) (src : Operand) (s : State) : Result := s.result rd (s.val src)

/-- LDI (R201): zero-extended, truncated to the field. -/
def execLdi (rd : Field) (imm : Nat) (s : State) : Result := s.result rd (BitVec.ofNat 32 imm)

/-! MVIx (R203). `n` is the byte width of the operation. -/

/-- The value of the pointer `r1.bk`: 8 bits (R202, 10_state.md R28). -/
def State.pointer (s : State) (k : Fin 4) : Nat := (s.rd (byteField 1 k)).toNat

/-- Writes the pointer `r1.bk`, modulo 256. -/
def State.setPointer (s : State) (k : Fin 4) (p : Nat) : State := s.wr (byteField 1 k) (BitVec.ofNat 32 (p % 256))

/-- The pointer an operand goes through, if it is a pointer form. -/
def mviPointer : MviOperand → Option (Fin 4)
  | .direct _ => none
  | .ptr k => some k
  | .ptrInc k => some k
  | .ptrDec k => some k

/-- The pointer an operand updates, if it has an auto-update. -/
def mviUpdated : MviOperand → Option (Fin 4)
  | .direct _ => none
  | .ptr _ => none
  | .ptrInc k => some k
  | .ptrDec k => some k

/-- The pre-decrement of an operand: "decremented before the register offset is used". -/
def State.mviPre (s : State) (n : Nat) : MviOperand → State
  | .ptrDec k => s.setPointer k (s.pointer k + 256 - n)
  | .direct _ => s
  | .ptr _ => s
  | .ptrInc _ => s

/-- The register-file offset an operand goes through (0 for a direct operand, which goes through none). -/
def State.mviOffset (s : State) (op : MviOperand) : Nat :=
  match mviPointer op with
  | some k => s.pointer k
  | none => 0

/-- The range check of an operand: `p + N <= 124` for a pointer form (R203, R211). -/
def State.mviInRange (s : State) (n : Nat) (op : MviOperand) : Bool :=
  match mviPointer op with
  | some k => decide (s.pointer k + n ≤ 124)
  | none => true

/-- The value a source operand gives: `n` bytes of the register file, or the whole field. -/
def State.mviValue (s : State) (n : Nat) : MviOperand → Word
  | .direct f => s.rd f
  | .ptr k => BitVec.ofNat 32 (fromBytes (s.rfRun (s.pointer k) n))
  | .ptrInc k => BitVec.ofNat 32 (fromBytes (s.rfRun (s.pointer k) n))
  | .ptrDec k => BitVec.ofNat 32 (fromBytes (s.rfRun (s.pointer k) n))

/-- The write to a destination operand: the `n` low bytes through a pointer at offset `p`, or the whole field. -/
def State.mviStore (s : State) (n p : Nat) (v : Word) : MviOperand → State
  | .direct f => s.wr f v
  | .ptr _ => s.rfPut p (toBytes n v)
  | .ptrInc _ => s.rfPut p (toBytes n v)
  | .ptrDec _ => s.rfPut p (toBytes n v)

/-- The post-increment of an operand that went through offset `p`. -/
def State.mviPost (s : State) (n p : Nat) : MviOperand → State
  | .ptrInc k => s.setPointer k (p + n)
  | .direct _ => s
  | .ptr _ => s
  | .ptrDec _ => s

/-- Whether byte `o` of the register file is among those the destination side writes, through offset `p`. -/
def mviWrites (n p : Nat) (dst : MviOperand) (o : Nat) : Bool :=
  match dst with
  | .direct f => decide (Field.off f ≤ o ∧ o < Field.off f + Field.width f / 8)
  | .ptr _ => decide (p ≤ o ∧ o < p + n)
  | .ptrInc _ => decide (p ≤ o ∧ o < p + n)
  | .ptrDec _ => decide (p ≤ o ∧ o < p + n)

/-- Whether the destination side, through offset `p`, writes the byte of the pointer an operand auto-updates. -/
def mviClobbers (n p : Nat) (dst op : MviOperand) : Bool :=
  match mviUpdated op with
  | some k => mviWrites n p dst (4 + k)
  | none => false

/-- The combinations the source does not settle (R207): (a) both operands on one pointer, one of them with an update;
(b), (c) the destination side writes the byte of a pointer the instruction auto-updates. -/
def mviUnsettled (n p : Nat) (dst src : MviOperand) : Bool :=
  (decide (mviPointer dst = mviPointer src) && (mviPointer dst).isSome
      && ((mviUpdated dst).isSome || (mviUpdated src).isSome))
    || mviClobbers n p dst dst || mviClobbers n p dst src

/-- The state after the source side of R203. -/
def State.mviFetched (s : State) (n : Nat) (src : MviOperand) : State :=
  (s.mviPre n src).mviPost n ((s.mviPre n src).mviOffset src) src

/-- The state in which the destination side of R203 writes: after the source side and the destination's pre-decrement. -/
def State.mviReady (s : State) (n : Nat) (dst src : MviOperand) : State := (s.mviFetched n src).mviPre n dst

/-- MVIx (R203): the source side, then the destination side; the checks in the order of R322. -/
def State.mvi (s : State) (n : Nat) (dst src : MviOperand) : Result :=
  let ready := s.mviReady n dst src
  let p := ready.mviOffset dst
  if (s.mviPre n src).mviInRange n src && ready.mviInRange n dst then
    if mviUnsettled n p dst src then .fault .mviUnspecified
    else .next ((ready.mviStore n p ((s.mviPre n src).mviValue n src) dst).mviPost n p dst).advance
  else .fault .regRange

/-- MVIB (R204): one byte. -/
def execMvib (dst src : MviOperand) (s : State) : Result := s.mvi 1 dst src

/-- MVIW (R205): two bytes. -/
def execMviw (dst src : MviOperand) (s : State) : Result := s.mvi 2 dst src

/-- MVID (R206): four bytes. -/
def execMvid (dst src : MviOperand) (s : State) : Result := s.mvi 4 dst src

end Sys2Proof.Machine
end

