-- ==== Sys2Proof/Machine/Scan.lean ====
section
/-! DEFINITION. SCAN (41_arithmetic_logical.md R158), the register field scan of a V1 core. -/

namespace Sys2Proof.Machine

/-- Searches `left` fields of `w` bytes from offset `o`, `stride` bytes apart, for the value `v`. Answers the offset of
the first match and the number of fields left, the matching one included; no match; or the fault of a field to be
inspected that passes byte 123. -/
def State.scanFrom (s : State) (w stride v : Nat) : Nat → Nat → Except Fault (Option (Nat × Nat))
  | _, 0 => .ok none
  | o, left + 1 =>
    if 124 < o + w then .error .scanUnspecified
    else if fromBytes (s.rfRun o w) = v then .ok (some (o, left + 1))
    else State.scanFrom s w stride v (o + stride) left

/-- Byte `k` of a SCAN control word, as a number. -/
def scanByte (c : Word) (k : Nat) : Nat := (extractBits c (8 * k) 8).toNat

/-- Whether a SCAN's width, stride and value are among those the source describes (R158). -/
def scanDescribed (w stride v : Nat) : Bool :=
  decide ((w = 1 ∨ w = 2 ∨ w = 4) ∧ 1 ≤ stride ∧ stride ≤ 4 ∧ v < 2 ^ (8 * w))

/-- The two result bytes of SCAN: `Rn.b0` the offset, `Rn.b1` the number of fields left; `Rn.b2` and `Rn.b3` not altered. -/
def State.scanResult (s : State) (rn : Fin 32) (o left : Nat) : State :=
  (s.wr (byteField rn 0) (BitVec.ofNat 32 o)).wr (byteField rn 1) (BitVec.ofNat 32 left)

/-- SCAN (R158). The control word in `Rn` is read once, before any write. -/
def execScan (rn : Fin 32) (op : Operand) (s : State) : Result :=
  let c := s.x rn
  if scanDescribed (scanByte c 2) (scanByte c 3) (s.val op).toNat then
    match s.scanFrom (scanByte c 2) (scanByte c 3) (s.val op).toNat (scanByte c 0) (scanByte c 1) with
    | .error f => .fault f
    | .ok none => .next (s.scanResult rn 0xFF 0).advance
    | .ok (some (o, left)) => .next (s.scanResult rn o left).advance
  else .fault .scanUnspecified

end Sys2Proof.Machine
end

