-- ==== Sys2Proof/Machine/Transfer.lean ====
section
/-! DEFINITION. ZERO and the XFR instructions XIN, XOUT, XCHG (42_register_load_store.md R220, R222 to R226). -/

namespace Sys2Proof.Machine

/-- ZERO (R220): `len` bytes of the register file from `start` become 0. Its operands are immediates, so a length outside
1..124 is refused before it runs (R108); a range past byte 123 faults (R211). -/
def execZero (start len : Nat) (s : State) : Result :=
  if start + len ≤ 124 then .next (s.rfPut start (List.replicate len 0)).advance
  else .fault .regRange

/-- XIN (R224). -/
def execXin (dev : Nat) (start : Fin 128) (cnt : Count) (s : State) : Result :=
  s.transfer start cnt (s.xfrIn dev start)

/-- XOUT (R225). -/
def execXout (dev : Nat) (start : Fin 128) (cnt : Count) (s : State) : Result :=
  s.transfer start cnt (s.xfrOut dev start)

/-- XCHG (R226): what the parameter `xchg` says, since the source defines an exchange and doubts it (conflict C10). -/
def execXchg (dev : Nat) (start : Fin 128) (cnt : Count) (s : State) : Result :=
  match s.params.xchg with
  | .refuse => .refused (.illFormed .xchgRefused)
  | .asXin => s.transfer start cnt (s.xfrIn dev start)
  | .exchange => s.transfer start cnt (s.xfrExchange dev start)

end Sys2Proof.Machine
end

