-- ==== Sys2Proof/Machine/Dispatch.lean ====
section
/-! DEFINITION. The dispatch: one arm per instruction of the opcode table (30_encoding.md R104), each one call of its meaning. -/

namespace Sys2Proof.Machine

/-- What the instruction does in a state. -/
def exec (i : Instr) (s : State) : Host.Outcome State Fault Refusal :=
  match i with
  | .add rd rs op => Sys2Proof.Machine.execAdd rd rs op s
  | .adc rd rs op => Sys2Proof.Machine.execAdc rd rs op s
  | .sub rd rs op => Sys2Proof.Machine.execSub rd rs op s
  | .suc rd rs op => Sys2Proof.Machine.execSuc rd rs op s
  | .rsb rd rs op => Sys2Proof.Machine.execRsb rd rs op s
  | .rsc rd rs op => Sys2Proof.Machine.execRsc rd rs op s
  | .lsl rd rs op => Sys2Proof.Machine.execLsl rd rs op s
  | .lsr rd rs op => Sys2Proof.Machine.execLsr rd rs op s
  | .and rd rs op => Sys2Proof.Machine.execAnd rd rs op s
  | .or rd rs op => Sys2Proof.Machine.execOr rd rs op s
  | .xor rd rs op => Sys2Proof.Machine.execXor rd rs op s
  | .not rd rs => Sys2Proof.Machine.execNot rd rs s
  | .min rd rs op => Sys2Proof.Machine.execMin rd rs op s
  | .max rd rs op => Sys2Proof.Machine.execMax rd rs op s
  | .clr rd rs op => Sys2Proof.Machine.execClr rd rs op s
  | .set rd rs op => Sys2Proof.Machine.execSet rd rs op s
  | .scan rn op => Sys2Proof.Machine.execScan rn op s
  | .lmbd rd rs op => Sys2Proof.Machine.execLmbd rd rs op s
  | .mov rd src => Sys2Proof.Machine.execMov rd src s
  | .ldi rd imm => Sys2Proof.Machine.execLdi rd imm s
  | .mvib dst src => Sys2Proof.Machine.execMvib dst src s
  | .mviw dst src => Sys2Proof.Machine.execMviw dst src s
  | .mvid dst src => Sys2Proof.Machine.execMvid dst src s
  | .lbbo start base op cnt => Sys2Proof.Machine.execLbbo start base op cnt s
  | .sbbo start base op cnt => Sys2Proof.Machine.execSbbo start base op cnt s
  | .lbco start base op cnt => Sys2Proof.Machine.execLbco start base op cnt s
  | .sbco start base op cnt => Sys2Proof.Machine.execSbco start base op cnt s
  | .zero start len => Sys2Proof.Machine.execZero start len s
  | .xin dev start cnt => Sys2Proof.Machine.execXin dev start cnt s
  | .xout dev start cnt => Sys2Proof.Machine.execXout dev start cnt s
  | .xchg dev start cnt => Sys2Proof.Machine.execXchg dev start cnt s
  | .jmp target => Sys2Proof.Machine.execJmp target s
  | .jal rd target => Sys2Proof.Machine.execJal rd target s
  | .qbgt dist rs op => Sys2Proof.Machine.execQbgt dist rs op s
  | .qbge dist rs op => Sys2Proof.Machine.execQbge dist rs op s
  | .qblt dist rs op => Sys2Proof.Machine.execQblt dist rs op s
  | .qble dist rs op => Sys2Proof.Machine.execQble dist rs op s
  | .qbeq dist rs op => Sys2Proof.Machine.execQbeq dist rs op s
  | .qbne dist rs op => Sys2Proof.Machine.execQbne dist rs op s
  | .qba dist => Sys2Proof.Machine.execQba dist s
  | .qbbs dist rs op => Sys2Proof.Machine.execQbbs dist rs op s
  | .qbbc dist rs op => Sys2Proof.Machine.execQbbc dist rs op s
  | .wbs rs op => Sys2Proof.Machine.execWbs rs op s
  | .wbc rs op => Sys2Proof.Machine.execWbc rs op s
  | .halt => Sys2Proof.Machine.execHalt s
  | .slp wake => Sys2Proof.Machine.execSlp wake s
  | .loop dist cnt => Sys2Proof.Machine.execLoop dist cnt s

end Sys2Proof.Machine
end

