-- ==== Sys2Proof/Machine/Fetch.lean ====
section
/-! DEFINITION. Instruction memory as a program: whether all of it is well-formed (30_encoding.md R109, 60_exceptions.md
R321), and the fetch of what stands at `pc` (20_memory.md R75, 43_control_flow.md R261). -/

namespace Sys2Proof.Machine

open Config (Params)

/-- The instruction an entry of instruction memory is: a word through the decoder, an assembly-level one as it stands. -/
def Slot.instr : Slot → Except Reject Instr
  | .word w => decode w
  | .asm i => .ok i

/-- Whether a word without an instruction is one of a name the source does not describe (R106), which makes a program
ill-formed. The word of another reason makes no program ill-formed: it faults when it is fetched (93_implementation_defined.md
U1). -/
def isUndescribed : Reject → Bool
  | .fill => true
  | .iloop => true
  | _ => false

/-- What is ill-formed in an entry of instruction memory at the address `pc`, if anything (R109 (a) to (c)). -/
def Slot.illFormed (p : Params) (pc : InstrAddr) (sl : Slot) : Option IllFormed :=
  match sl.instr with
  | .ok i => check p pc i
  | .error why => if isUndescribed why then some .undescribed else none

/-- What is ill-formed in a program, if anything: the first entry, by address, that is not well-formed (R109; decisions D17
and D30: "refused when the program is built"). -/
def InstrMemory.illFormed (p : Params) (m : InstrMemory) : Option IllFormed :=
  m.findSome? fun c => c.2.illFormed p (BitVec.ofNat 16 c.1)

/-- What the fetch finds at `pc`: the instruction, or the fault of an address without one (R261) or of a word that is
none (93_implementation_defined.md U1). -/
def State.fetch (s : State) : Except Fault Instr :=
  if s.pcOut then .error .fetchOutside
  else
    match s.imem.fetch s.pc with
    | none => .error .fetchOutside
    | some sl =>
      match sl.instr with
      | .ok i => .ok i
      | .error why => .error (.undefinedWord why)

/-- `s` with an entry of instruction memory put at `pc` and nothing in the way of its fetch: the core running, no host
move pending. -/
def State.loadAtPc (s : State) (sl : Slot) : State :=
  (((s.withImem (s.imem.replace s.pc (some sl))).withPc s.pc false).withRun .running).withHost []

end Sys2Proof.Machine
end

