-- ==== Sys2Proof/Machine/Cycle.lean ====
section
/-! DEFINITION. One step of the machine: the host's schedule (60_exceptions.md R330 to R332), the run states (10_state.md
R36), the check of the whole program, and the fetch and execution of one instruction. -/

namespace Sys2Proof.Machine

/-- A step of the core moves the environment to its next moment. -/
def tick : Result → Result
  | .next s => .next (s.withMoment (s.moment + 1))
  | .fault f => .fault f
  | .refused r => .refused r

/-- The end of an instruction that ends in a next state: other agents' writes that are left take effect (20_memory.md R67). -/
def settled : Result → Result
  | .next s => .next s.settle
  | .fault f => .fault f
  | .refused r => .refused r

/-- A running core. A program that is not well-formed, wherever in it, is refused before any instruction of it runs
(30_encoding.md R109, 60_exceptions.md R321; log entry 22). Of a well-formed one, the instruction at `pc` is fetched and
executed. -/
def State.runInstr (s : State) : Result :=
  match s.imem.illFormed s.params with
  | some why => .refused (.illFormed why)
  | none =>
    match s.fetch with
    | .error f => .fault f
    | .ok i => tick (settled (exec i s))

/-- A step of the core (R36): a halted core, and a sleeper without the wake-on-event option, does nothing; a sleeper with
it wakes if an enabled event holds (60_exceptions.md R331; FREE VALUE, log entry 16). -/
def State.coreStep (s : State) : Result :=
  match s.run with
  | .running => s.runInstr
  | .halted => .next s
  | .sleeping false => .next s
  | .sleeping true =>
    if Config.wakeEvent s.history s.moment then tick (.next (s.withRun .running)) else tick (.next s)

/-- The reset of a core (R350, R46): registers, carry, `pc`, loop state and run state as `State.reset` has them, with the
run's own `EntryPC`. Memories, parameters, history and the environment are not reset by anything the source describes
(R46; log entry 18). -/
def State.resetCore (s : State) : State :=
  (((((s.withRegs State.reset.regs).withCarry State.reset.carry).withPc s.params.entryPC false).withLoop
    State.reset.loopCounter State.reset.loopTop State.reset.loopEnd).withRun State.reset.run)

/-- A move of the host or of another agent (R330 to R332, R75, R72). DESIGN CHOICE, unsafe: the spec gives `Enable` from
Halted only (R330) and `ClearSleeping` from Sleeping only (R331), and does not say what either does from another run state
(10_state.md R36, 00_scope.md R9); here it does nothing there (log entry 17). -/
def State.hostStep (s : State) : HostMove → Result
  | .core => s.coreStep
  | .enable => .next (if s.run = .halted then s.withRun .running else s)
  | .clearSleeping =>
    .next (match s.run with
      | .sleeping _ => s.withRun .running
      | .running => s
      | .halted => s)
  | .reset => .next s.resetCore
  | .writeImem a sl =>
    if s.run = .halted then .next (s.withImem (s.imem.replace a sl)) else .refused .noSuchHostMove
  | .agentWrite a v => .next (s.withDmem (s.dmem.write a.toNat v))
  | .meanwhile d => .next (s.withMeanwhile d)

/-- One step: the next entry of the host's schedule, or the core's own step where the schedule is empty (log entry 17). -/
def State.cycle (s : State) : Result :=
  match s.host with
  | [] => s.coreStep
  | m :: rest => (s.withHost rest).hostStep m

end Sys2Proof.Machine
end

