-- ==== Sys2Proof/Machine/Step.lean ====
section
/-! DEFINITION. The step function, and how a program comes to stand where the step fetches (70_reset_and_hazards.md R353:
it is loaded from outside; log entry 29). -/

namespace Sys2Proof.Machine

/-- One step of the machine. -/
def step : State → Host.Outcome State Fault Refusal := State.cycle

/-- `s` with the instruction of `nbits` bits `w`, the bits above them 0, in instruction memory at `pc`, so that the next
step fetches and runs it. -/
def State.withFetchWord (s : State) (nbits w : Nat) : State :=
  s.loadAtPc (.word (BitVec.ofNat 32 (w % 2 ^ nbits)))

end Sys2Proof.Machine
end

