-- ==== Sys2Proof/Safety.lean ====
section
/-! DEFINITION. The terms claims use: what an instruction leaves written and unchanged, where it arrives, and the
invariant of the machine. Each is stated through reads (a byte of the register file, a byte of data memory), not through
the operations the meanings are built from. -/

namespace Sys2Proof.Machine

open Config (Event CoreRev Params Region RegionKind)

/-- The bytes `o` to `o + n - 1` of the register file hold `byteAt 0`, `byteAt 1`, …; every other byte of R0 to R30 is as
before (10_state.md R21, R24). -/
def RangeHolds (s t : State) (o n : Nat) (byteAt : Nat → Byte) : Prop :=
  ∀ k, k < 124 → t.rf k = if o ≤ k ∧ k < o + n then byteAt (k - o) else s.rf k

/-- The outward events of a write to bytes `o` to `o + n - 1`: the new value of R30 if it was touched (R32). -/
def r30Seen (t : State) (o n : Nat) : List Event :=
  if o < 124 ∧ 120 < o + n then [.r30Out (t.x 30)] else []

/-- A run of bytes was written to the register file: they hold the new bytes, no other byte changed, and the events
`before` and then R30's own were emitted. -/
def WroteRange (s t : State) (o n : Nat) (byteAt : Nat → Byte) (before : List Event) : Prop :=
  RangeHolds s t o n byteAt ∧ t.history = s.history ++ before ++ r30Seen t o n

/-- The number `v` was written to the register field `f`, and nothing else of the register file changed (R24). A field of
R31 takes it outside instead, and no register changes (R31). -/
def WroteField (s t : State) (f : Field) (v : Nat) : Prop :=
  if f.reg = 31 then
    (∀ k, k < 124 → t.rf k = s.rf k)
      ∧ t.history = s.history ++ [.r31Out f (BitVec.ofNat 32 (v % 2 ^ Field.width f))]
  else WroteRange s t (Field.off f) (Field.width f / 8) (fun i => BitVec.ofNat 8 (v / 256 ^ i)) []

/-- No register and no event. -/
def KeepsRegs (s t : State) : Prop := (∀ k, k < 124 → t.rf k = s.rf k) ∧ t.history = s.history

/-- Every byte of data memory reads as before, and the writes of other agents meanwhile are all still to take effect. -/
def KeepsDmem (s t : State) : Prop := (∀ a, t.dmem.read a = s.dmem.read a) ∧ t.meanwhile = s.meanwhile

/-- The run state, instruction memory, the parameters and the environment's fields are as before. -/
def KeepsWorld (s t : State) : Prop :=
  t.run = s.run ∧ t.imem = s.imem ∧ t.params = s.params ∧ t.host = s.host ∧ t.moment = s.moment

/-- All of `KeepsWorld`, and data memory. -/
def KeepsRest (s t : State) : Prop := KeepsWorld s t ∧ KeepsDmem s t

/-- `pc` is the address `target`, or, where `target` is no 16-bit address, the coming fetch will find nothing (R261). -/
def PcAt (t : State) (target : Int) : Prop :=
  if 0 ≤ target ∧ target ≤ 65535 then t.pcOut = false ∧ (t.pc.toNat : Int) = target else t.pcOut = true

/-- What `next(target)` leaves (43_control_flow.md R261, R291), given the loop values `n`, `top`, `fin` it starts from: at
the end of an armed loop of a V3 core the counter is one less and control goes back to LoopTop, or on to `target` where
the counter has come to 0; elsewhere control goes to `target` and the counter stays. -/
def ArrivesFrom (rev : CoreRev) (n top fin : BitVec 16) (t : State) (target : Int) : Prop :=
  t.loopTop = top ∧ t.loopEnd = fin ∧
    if rev = .v3 ∧ 0 < n.toNat ∧ target = fin.toNat then
      t.loopCounter.toNat + 1 = n.toNat ∧ PcAt t (if n.toNat = 1 then target else top.toNat)
    else t.loopCounter = n ∧ PcAt t target

/-- `ArrivesFrom` the loop state an instruction started with. -/
def Arrives (s t : State) (target : Int) : Prop :=
  ArrivesFrom s.params.rev s.loopCounter s.loopTop s.loopEnd t target

/-- Arrives at the following instruction. -/
def Continues (s t : State) : Prop := Arrives s t ((s.pc.toNat : Int) + 1)

/-- What an instruction that writes one register field and goes on leaves, all but the carry. -/
def WritesOnly (s t : State) (f : Field) (v : Nat) : Prop := WroteField s t f v ∧ Continues s t ∧ KeepsRest s t

/-! Results of arithmetic (41_arithmetic_logical.md R140, R141). -/

/-- The field holds `r` modulo 2 to its width (R24, R140). -/
def HasResult (t : State) (rd : Field) (r : Int) : Prop := ((t.rd rd).toNat : Int) = r % 2 ^ Field.width rd

/-- The carry is the first bit to the left of the destination width, of the 33-bit result `r mod 2^33` (R141). -/
def HasCarry (t : State) (rd : Field) (r : Int) : Prop :=
  t.carry = true ↔ r % 2 ^ 33 / 2 ^ Field.width rd % 2 = 1

/-- The six arithmetic instructions (10_state.md R33). -/
def arithOps : List (Field → Field → Operand → Instr) := [.add, .adc, .sub, .suc, .rsb, .rsc]

/-- The instructions that write one register field from two sources and leave the carry (R148 to R157, R159). -/
def logicOps : List (Field → Field → Operand → Instr) :=
  [.lsl, .lsr, .and, .or, .xor, .min, .max, .clr, .set, .lmbd]

/-! Bursts and XFR transfers (42_register_load_store.md R210, R213, R223). -/

/-- The byte count an operand stands for: the immediate, or byte `k` of R0 (R213). -/
def CountIs (s : State) : Count → Nat → Prop
  | .imm m, n => n = m
  | .r0 k, n => n = (s.rf k).toNat

/-- The region admits a read (or a write) of the `n` bytes from `addr` up, as one request (20_memory.md R62, R69): its
direction, its byte count, the alignment of its address, and every byte's place, modulo 2^32. -/
def Admits (r : Region) (write : Bool) (addr : Word) (n : Nat) : Prop :=
  (if write then r.writes else r.reads) = true ∧ r.minLen ≤ n ∧ n ≤ r.maxLen ∧ addr.toNat % r.align = 0
    ∧ ∀ i, i < n → (addr + BitVec.ofNat 32 i - r.base).toNat < r.size

/-- The platform admits the request (R69): some region does. -/
def Admitted (s : State) (write : Bool) (addr : Word) (n : Nat) : Prop := ∃ r ∈ s.params.regions, Admits r write addr n

/-- The platform admits the request, and `kind` stands behind the first region that does. -/
def AdmittedAs (s : State) (write : Bool) (addr : Word) (n : Nat) (kind : RegionKind) : Prop :=
  ∃ pre r post, s.params.regions = pre ++ r :: post ∧ (∀ q ∈ pre, ¬ Admits q write addr n) ∧ Admits r write addr n
    ∧ r.kind = kind

/-- Byte `i` of the `n` bytes that a read at `addr` answers (R67, R68, R72): the last byte another agent wrote there
meanwhile before the access to byte `i`, or else the byte data memory held, or what the device says. -/
def answeredByte (s : State) (addr : Word) (n : Nat) (kind : RegionKind) (i : Nat) : Byte :=
  match kind with
  | .ram =>
    (lastWrite (addr + BitVec.ofNat 32 i).toNat (s.meanwhile.writes.take (s.meanwhile.beforeByte i))).getD
      (s.dmem.read (addr + BitVec.ofNat 32 i).toNat)
  | .device => Config.memIn s.history s.moment addr n i

/-- The number in `n` bytes of the register file from offset `o` up, least significant first (10_state.md R21). -/
def HoldsNumber (s : State) (o n v : Nat) : Prop := v < 256 ^ n ∧ ∀ i, i < n → v / 256 ^ i % 256 = (s.rf (o + i)).toNat

/-- The control word of a SCAN in register `n`: start, count, width and stride, byte by byte (41_arithmetic_logical.md
R158). -/
def HoldsWord (s : State) (n : Fin 32) (start count w stride : Nat) : Prop :=
  start < 256 ∧ count < 256 ∧ w < 256 ∧ stride < 256
    ∧ (s.x n).toNat = start + 256 * count + 65536 * w + 16777216 * stride

/-! MVIx (42_register_load_store.md R202, R203, R207). `n` is the byte width of the operation. -/

/-- The three sizes. -/
def mviSizes : List (Nat × (MviOperand → MviOperand → Instr)) := [(1, .mvib), (2, .mviw), (4, .mvid)]

/-- The pointer `r1.bk`: byte `4 + k` of the register file. -/
def pointerByte (s : State) (k : Fin 4) : Nat := (s.rf (4 + k)).toNat

/-- The register-file offset a pointer operand goes through, from the state before the instruction; 0 for a direct one. -/
def mviStart (n : Nat) (s : State) : MviOperand → Nat
  | .direct _ => 0
  | .ptr k => pointerByte s k
  | .ptrInc k => pointerByte s k
  | .ptrDec k => (pointerByte s k + 256 - n) % 256

/-- A pointer byte as the source side leaves it (R203): updated where the source goes through it with an auto-update. -/
def pointerAfter (n : Nat) (s : State) (src : MviOperand) (k : Fin 4) : Nat :=
  match src with
  | .direct _ => pointerByte s k
  | .ptr _ => pointerByte s k
  | .ptrInc j => if j = k then (pointerByte s k + n) % 256 else pointerByte s k
  | .ptrDec j => if j = k then (pointerByte s k + 256 - n) % 256 else pointerByte s k

/-- The register-file offset the destination operand goes through, its pointer as the source side leaves it. -/
def mviTarget (n : Nat) (s : State) (src : MviOperand) : MviOperand → Nat
  | .direct _ => 0
  | .ptr k => pointerAfter n s src k
  | .ptrInc k => pointerAfter n s src k
  | .ptrDec k => (pointerAfter n s src k + 256 - n) % 256

/-- A pointer operand's bytes lie in R0 to R30 (R203, R211). -/
def MviFits (n : Nat) (s : State) (op : MviOperand) : Prop := op.isPointer = true → mviStart n s op + n ≤ 124

/-- The destination operand's bytes lie in R0 to R30, its pointer as the source side leaves it. -/
def MviTargetFits (n : Nat) (s : State) (dst src : MviOperand) : Prop :=
  dst.isPointer = true → mviTarget n s src dst + n ≤ 124

/-- The two operands go through one pointer, which one of them updates (R207 (a)). -/
def MviSamePointer (dst src : MviOperand) : Prop :=
  (∃ k, mviPointer dst = some k ∧ mviPointer src = some k) ∧ ((mviUpdated dst).isSome ∨ (mviUpdated src).isSome)

/-- The destination side writes the byte of a pointer that the instruction updates (R207 (b), (c)). -/
def MviClobbers (n : Nat) (s : State) (dst src : MviOperand) : Prop :=
  ∃ k : Fin 4, (mviUpdated dst = some k ∨ mviUpdated src = some k) ∧ mviWrites n (mviStart n s dst) dst (4 + k) = true

/-- The source side of R203, from `s` to `m`: the value `v` it gives, the pointer it updates. -/
def MviSource (n : Nat) (s m : State) (v : Nat) : MviOperand → Prop
  | .direct f => KeepsRegs s m ∧ v = (s.rd f).toNat
  | .ptr k => KeepsRegs s m ∧ HoldsNumber s (pointerByte s k) n v
  | .ptrInc k => HoldsNumber s (pointerByte s k) n v ∧ WroteField s m (byteField 1 k) (pointerByte s k + n)
  | .ptrDec k =>
    WroteField s m (byteField 1 k) ((pointerByte s k + 256 - n) % 256)
      ∧ HoldsNumber m ((pointerByte s k + 256 - n) % 256) n v

/-- The destination side of R203, from `m` to `t`: the value `v` written, the pointer updated. -/
def MviDest (n : Nat) (m t : State) (v : Nat) : MviOperand → Prop
  | .direct f => WroteField m t f v
  | .ptr k => WroteRange m t (pointerByte m k) n (fun i => BitVec.ofNat 8 (v / 256 ^ i)) []
  | .ptrInc k =>
    ∃ u, WroteRange m u (pointerByte m k) n (fun i => BitVec.ofNat 8 (v / 256 ^ i)) []
      ∧ WroteField u t (byteField 1 k) (pointerByte m k + n)
  | .ptrDec k =>
    ∃ u, WroteField m u (byteField 1 k) ((pointerByte m k + 256 - n) % 256)
      ∧ WroteRange u t ((pointerByte m k + 256 - n) % 256) n (fun i => BitVec.ofNat 8 (v / 256 ^ i)) []

/-! Branches (43_control_flow.md R264, R272). -/

/-- The compare-and-branch instructions, each with the relation of `OP(255)` (first) to `REG1` (second). -/
def compareOps : List ((Int → Field → Operand → Instr) × (Nat → Nat → Bool)) :=
  [(.qbgt, fun b a => decide (b > a)), (.qbge, fun b a => decide (b ≥ a)), (.qblt, fun b a => decide (b < a)),
    (.qble, fun b a => decide (b ≤ a)), (.qbeq, fun b a => decide (b = a)), (.qbne, fun b a => decide (b ≠ a))]

/-- The instruction goes to the label at distance `dist` if `taken`, on to the following one if not, and changes nothing
but `pc` and, at a loop end, the loop counter. -/
def Branches (i : Instr) (s : State) (taken : Bool) (dist : Int) : Prop :=
  ∃ t, exec i s = .next t ∧ t.carry = s.carry ∧ KeepsRegs s t ∧ KeepsRest s t
    ∧ Arrives s t (if taken then (s.pc.toNat : Int) + dist else (s.pc.toNat : Int) + 1)

/-- Bit `val(OP) & 0x1f` of the zero-extended field (R272). -/
def fieldBit (s : State) (rs : Field) (op : Operand) : Bool := (s.rd rs).toNat.testBit ((s.val op).toNat % 32)

/-- The operand reads no field of R31. -/
def StoredOperand : Operand → Prop
  | .reg f => f.reg ≠ 31
  | .imm _ => True

/-! Well-formed instructions and programs (30_encoding.md R99, R105, R108, R109; 43_control_flow.md R260, R292). -/

/-- The immediate of an operand, if it is one, with the least and the greatest value of its class. -/
def opRange (lo hi : Nat) : Operand → List (Nat × Nat × Nat)
  | .imm v => [(v, lo, hi)]
  | .reg _ => []

/-- The immediate of a byte count (R108, R213). -/
def countRange : Count → List (Nat × Nat × Nat)
  | .imm v => [(v, 1, 124)]
  | .r0 _ => []

/-- Every immediate of an instruction but its label, each with the least and the greatest value it may have (R99, R108;
R213, R220, R223, R292 (a)). -/
def immediateRanges : Instr → List (Nat × Nat × Nat)
  | .add _ _ op | .adc _ _ op | .sub _ _ op | .suc _ _ op | .rsb _ _ op | .rsc _ _ op => opRange 0 255 op
  | .and _ _ op | .or _ _ op | .xor _ _ op | .min _ _ op | .max _ _ op | .lmbd _ _ op | .scan _ op => opRange 0 255 op
  | .lsl _ _ op | .lsr _ _ op | .clr _ _ op | .set _ _ op => opRange 0 31 op
  | .mov _ op | .jmp op | .jal _ op => opRange 0 65535 op
  | .ldi _ v => [(v, 0, 65535)]
  | .lbbo _ _ op cnt | .sbbo _ _ op cnt | .lbco _ _ op cnt | .sbco _ _ op cnt => opRange 0 255 op ++ countRange cnt
  | .zero start len => [(start, 0, 123), (len, 1, 124)]
  | .xin dev _ cnt | .xout dev _ cnt | .xchg dev _ cnt => (dev, 0, 253) :: countRange cnt
  | .qbgt _ _ op | .qbge _ _ op | .qblt _ _ op | .qble _ _ op | .qbeq _ _ op | .qbne _ _ op => opRange 0 255 op
  | .qbbs _ _ op | .qbbc _ _ op | .wbs _ op | .wbc _ op => opRange 0 31 op
  | .loop _ op => opRange 1 256 op
  | .not _ _ | .mvib _ _ | .mviw _ _ | .mvid _ _ | .qba _ | .halt | .slp _ => []

/-- A core of these parameters has the instruction (R105, R9): SCAN where a V1 core has it; MVIx, ZERO, the XFR
instructions and LOOP on V3. -/
def CoreHas (p : Params) : Instr → Prop
  | .scan _ _ => p.rev = .v1 ∧ p.hasScan = true
  | .mvib _ _ | .mviw _ _ | .mvid _ _ | .zero _ _ | .xin _ _ _ | .xout _ _ _ | .xchg _ _ _ | .loop _ _ => p.rev = .v3
  | _ => True

/-- A distance lies in a reach, if one is set (R260). -/
def Reaches (range : Option (Int × Int)) (dist : Int) : Prop := ∀ lo hi, range = some (lo, hi) → lo ≤ dist ∧ dist ≤ hi

/-- The label of an instruction at `pc` is a 16-bit address within reach, and for a LOOP past a non-empty body (R100, R260,
R292 (d)); a wait's label is itself (R107). -/
def LabelFits (p : Params) (pc : InstrAddr) : Instr → Prop
  | .qbgt d _ _ | .qbge d _ _ | .qblt d _ _ | .qble d _ _ | .qbeq d _ _ | .qbne d _ _ | .qba d | .qbbs d _ _ | .qbbc d _ _ =>
    0 ≤ (pc.toNat : Int) + d ∧ (pc.toNat : Int) + d ≤ 65535 ∧ Reaches p.qbRange d
  | .wbs _ _ | .wbc _ _ => Reaches p.qbRange 0
  | .loop d _ => 2 ≤ d ∧ (pc.toNat : Int) + d ≤ 65535 ∧ Reaches p.loopRange d
  | _ => True

/-- An entry of instruction memory is the instruction `i`, at the assembly level or as a word. -/
def Holds (sl : Slot) (i : Instr) : Prop := sl = .asm i ∨ ∃ w, sl = .word w ∧ decode w = .ok i

/-- An entry of instruction memory, an address and what it holds, is ill-formed for the reason `why` (R109 (a) to (c)):
an instruction that fails a check there, or the word of FILL or ILOOP. -/
def EntryIllFormed (p : Params) (c : Nat × Slot) (why : IllFormed) : Prop :=
  (∃ i, Holds c.2 i ∧ check p (BitVec.ofNat 16 c.1) i = some why)
    ∨ (why = .undescribed ∧ ∃ w, c.2 = .word w ∧ (decode w = .error .fill ∨ decode w = .error .iloop))

/-- The first entry of the program that is not well-formed, by address, is so for the reason `why`. -/
def ProgramIllFormed (s : State) (why : IllFormed) : Prop :=
  ∃ pre c post, s.imem = pre ++ c :: post ∧ (∀ q ∈ pre, ∀ w, ¬ EntryIllFormed s.params q w)
    ∧ EntryIllFormed s.params c why

/-- Every entry of the program is well-formed (R109). -/
def ProgramWellFormed (s : State) : Prop := ∀ c ∈ s.imem, ∀ why, ¬ EntryIllFormed s.params c why

/-! Steps. -/

/-- The core takes this step, or the host's schedule is empty. -/
def CoreMoves (s : State) : Prop := s.host = [] ∨ ∃ rest, s.host = .core :: rest

/-- The instruction a step runs, if the core is running, it is the core's move and the fetch finds one. -/
def Runs (s : State) (i : Instr) : Prop := CoreMoves s ∧ s.run = .running ∧ s.fetch = .ok i

/-- The host's next move is `m`. -/
def HostMoves (s : State) (m : HostMove) : Prop := ∃ rest, s.host = m :: rest

/-- `s` with another moment of the environment. -/
def State.laterBy (s : State) (n : Nat) : State := s.withMoment (s.moment + n)

/-- The invariant of the machine: both memories are in canonical form, and a V1 core's loop hardware, which it does not
have, is not armed (R35, R105, R261). -/
def State.Inv (s : State) : Prop :=
  Memory.wf s.dmem = true ∧ InstrMemory.wf s.imem = true ∧ (s.params.rev = .v1 → s.loopCounter = 0)

/-- The step of a state goes on: it ends in no fault and no refusal. -/
def State.Progresses (s : State) : Prop := ∃ t, step s = .next t

end Sys2Proof.Machine
end

