-- ==== Sys2Proof/Certificates/Slice0/Obligations.lean ====
section
/-! DEFINITION. The statements for the provers. Where a statement rests on a choice of the model or on a decision the spec
marks as its own, its docstring says so. -/

open Sys2Proof Sys2Proof.Machine
open Sys2Proof.Config (Event RegionKind)

/-! Arithmetic (41_arithmetic_logical.md R142 to R147). A destination in R31: `Obligations.R31Destination`. -/

/-- R142, R143: the result and the carry of ADD and ADC. -/
def Obligations.AddAdcResult : Prop :=
  ∀ (s : State) (rd rs : Field) (op : Operand), rd.reg ≠ 31 →
    let r : Int := (s.rd rs).toNat + (s.val op).toNat
    let c : Int := if s.carry then 1 else 0
    (∃ t, exec (.add rd rs op) s = .next t ∧ HasResult t rd r ∧ HasCarry t rd r)
      ∧ ∃ t, exec (.adc rd rs op) s = .next t ∧ HasResult t rd (r + c) ∧ HasCarry t rd (r + c)

/-- R144, R145: the result and the carry (borrow) of SUB and SUC; REG2 is the minuend. -/
def Obligations.SubSucResult : Prop :=
  ∀ (s : State) (rd rs : Field) (op : Operand), rd.reg ≠ 31 →
    let r : Int := (s.rd rs).toNat - (s.val op).toNat
    let c : Int := if s.carry then 1 else 0
    (∃ t, exec (.sub rd rs op) s = .next t ∧ HasResult t rd r ∧ HasCarry t rd r)
      ∧ ∃ t, exec (.suc rd rs op) s = .next t ∧ HasResult t rd (r - c) ∧ HasCarry t rd (r - c)

/-- R146, R147: the result and the carry (borrow) of RSB and RSC; the `OP(255)` operand is the minuend. -/
def Obligations.RsbRscResult : Prop :=
  ∀ (s : State) (rd rs : Field) (op : Operand), rd.reg ≠ 31 →
    let r : Int := (s.val op).toNat - (s.rd rs).toNat
    let c : Int := if s.carry then 1 else 0
    (∃ t, exec (.rsb rd rs op) s = .next t ∧ HasResult t rd r ∧ HasCarry t rd r)
      ∧ ∃ t, exec (.rsc rd rs op) s = .next t ∧ HasResult t rd (r - c) ∧ HasCarry t rd (r - c)

/-- The frame of the six arithmetic instructions, R31 destinations among them: only the destination field, the carry and
`pc` (with the loop state at a loop end) change. It rests on decisions the spec marks as its own: D3 (R24), D20 (R31), D21
(R32), D25 (R291). The events are fixed too: that a write to R30 shows as one event with the whole new value is the model's
choice (log entry 24). -/
def Obligations.ArithmeticFrame : Prop :=
  ∀ mk ∈ arithOps, ∀ (s : State) (rd rs : Field) (op : Operand),
    ∃ t v, exec (mk rd rs op) s = .next t ∧ WritesOnly s t rd v

/-! Shifts, bitwise and single-bit instructions, moves. -/

/-- R148, R149: LSL and LSR. -/
def Obligations.ShiftResult : Prop :=
  ∀ (s : State) (rd rs : Field) (op : Operand), rd.reg ≠ 31 →
    let a := (s.rd rs).toNat
    let k := (s.val op).toNat % 32
    (∃ t, exec (.lsl rd rs op) s = .next t ∧ HasResult t rd ((a * 2 ^ k) % 2 ^ 32 : Nat) ∧ t.carry = s.carry)
      ∧ ∃ t, exec (.lsr rd rs op) s = .next t ∧ HasResult t rd (a / 2 ^ k : Nat) ∧ t.carry = s.carry

/-- R150 to R153: AND, OR, XOR and NOT, bit by bit of the zero-extended sources. -/
def Obligations.BitwiseResult : Prop :=
  ∀ (s : State) (rd rs : Field) (op : Operand), rd.reg ≠ 31 →
    let a := (s.rd rs).toNat
    let b := (s.val op).toNat
    (∃ t, exec (.and rd rs op) s = .next t ∧ HasResult t rd (a &&& b : Nat) ∧ t.carry = s.carry)
      ∧ (∃ t, exec (.or rd rs op) s = .next t ∧ HasResult t rd (a ||| b : Nat) ∧ t.carry = s.carry)
      ∧ (∃ t, exec (.xor rd rs op) s = .next t ∧ HasResult t rd (a ^^^ b : Nat) ∧ t.carry = s.carry)
      ∧ ∃ t, exec (.not rd rs) s = .next t ∧ HasResult t rd (0xFFFFFFFF - a : Nat) ∧ t.carry = s.carry

/-- R154, R155: MIN and MAX. That the comparison is of unsigned numbers is the spec's own decision D6. -/
def Obligations.MinMaxResult : Prop :=
  ∀ (s : State) (rd rs : Field) (op : Operand), rd.reg ≠ 31 →
    let a := (s.rd rs).toNat
    let b := (s.val op).toNat
    (∃ t, exec (.min rd rs op) s = .next t ∧ HasResult t rd (if b > a then a else b : Nat) ∧ t.carry = s.carry)
      ∧ ∃ t, exec (.max rd rs op) s = .next t ∧ HasResult t rd (if b > a then b else a : Nat) ∧ t.carry = s.carry

/-- R156: CLR in its four formats; bit `k` of the result is 0 and every other bit is the source's. -/
def Obligations.ClrResult : Prop :=
  ∀ (s : State) (rd rs : Field) (op : Operand) (b : BitRef), rd.reg ≠ 31 →
    let cleared (t : State) (d : Field) (a : Word) (k : Nat) : Prop :=
      t.carry = s.carry ∧ ∀ j, j < Field.width d → (t.rd d).toNat.testBit j = (decide (j ≠ k) && a.toNat.testBit j)
    (∃ t, exec (.clr rd rs op) s = .next t ∧ cleared t rd (s.rd rs) ((s.val op).toNat % 32))
      ∧ (∃ t, exec (.clrSame rd op) s = .next t ∧ cleared t rd (s.rd rd) ((s.val op).toNat % 32))
      ∧ (∃ t, exec (.clrBit rd b) s = .next t ∧ cleared t rd (s.rd b.field) b.bit)
      ∧ (b.field.reg ≠ 31 → ∃ t, exec (.clrBitSame b) s = .next t ∧ cleared t b.field (s.rd b.field) b.bit)

/-- R157, R30: SET in its four formats; bit `k` of the result is 1 and every other bit is the source's, or 0 where the
source is a field of R31. That an R31 field as the bit number is read normally is the spec's own inference. -/
def Obligations.SetResult : Prop :=
  ∀ (s : State) (rd rs : Field) (op : Operand) (b : BitRef), rd.reg ≠ 31 →
    let isSet (t : State) (d src : Field) (k : Nat) : Prop :=
      t.carry = s.carry ∧ ∀ j, j < Field.width d →
        (t.rd d).toNat.testBit j = (decide (j = k) || (decide (src.reg ≠ 31) && (s.rd src).toNat.testBit j))
    (∃ t, exec (.set rd rs op) s = .next t ∧ isSet t rd rs ((s.val op).toNat % 32))
      ∧ (∃ t, exec (.setSame rd op) s = .next t ∧ isSet t rd rd ((s.val op).toNat % 32))
      ∧ (∃ t, exec (.setBit rd b) s = .next t ∧ isSet t rd b.field b.bit)
      ∧ (b.field.reg ≠ 31 → ∃ t, exec (.setBitSame b) s = .next t ∧ isSet t b.field b.field b.bit)

/-- R159: LMBD writes the highest matching bit number of the field REG2, or 32. -/
def Obligations.LmbdResult : Prop :=
  ∀ (s : State) (rd rs : Field) (op : Operand), rd.reg ≠ 31 →
    let found (i : Nat) : Prop := i < Field.width rs ∧ (s.rd rs).toNat.testBit i = decide ((s.val op).toNat % 2 = 1)
    ∃ t, exec (.lmbd rd rs op) s = .next t ∧ t.carry = s.carry
      ∧ ((∃ i, found i ∧ (∀ j, found j → j ≤ i) ∧ HasResult t rd i) ∨ ((∀ i, ¬ found i) ∧ HasResult t rd 32))

/-- R200, R201: MOV of a register and of an immediate, and LDI. That MOV with an immediate is LDI, and that an 8-bit
destination keeps the low bits of an LDI, are the spec's own readings (R107, D33). -/
def Obligations.MoveResult : Prop :=
  ∀ (s : State) (rd rs : Field) (v : Nat), rd.reg ≠ 31 → v ≤ 65535 →
    (∃ t, exec (.mov rd (.reg rs)) s = .next t ∧ HasResult t rd (s.rd rs).toNat ∧ t.carry = s.carry)
      ∧ (∃ t, exec (.mov rd (.imm v)) s = .next t ∧ HasResult t rd v ∧ t.carry = s.carry)
      ∧ ∃ t, exec (.ldi rd v) s = .next t ∧ HasResult t rd v ∧ t.carry = s.carry

/-- The frame of the instructions that write one field and no flag, R31 destinations among them. It rests on the decisions
`Obligations.ArithmeticFrame` rests on, log entry 24 among them, and D5 (R33). -/
def Obligations.FieldFrame : Prop :=
  ∀ (s : State) (rd rs : Field) (op : Operand) (n : Nat),
    (∀ mk ∈ logicOps, ∃ t v, exec (mk rd rs op) s = .next t ∧ t.carry = s.carry ∧ WritesOnly s t rd v)
      ∧ ∀ i ∈ [Instr.not rd rs, .mov rd op, .ldi rd n],
        ∃ t v, exec i s = .next t ∧ t.carry = s.carry ∧ WritesOnly s t rd v

/-- R31 as a destination: no register changes and what a field of R0 of the same part would receive goes out as the one
event `R31Out`. That a write to R31 is an outward event is the spec's own decision D20. -/
def Obligations.R31Destination : Prop :=
  ∀ (s : State) (part : Sel) (rs : Field) (op : Operand) (n : Nat),
    let outward (mk : Field → Instr) : Prop :=
      ∃ t u, exec (mk ⟨31, part⟩) s = .next t ∧ exec (mk ⟨0, part⟩) s = .next u
        ∧ t.history = s.history ++ [.r31Out ⟨31, part⟩ (u.rd ⟨0, part⟩)]
        ∧ (∀ k, k < 124 → t.rf k = s.rf k) ∧ t.carry = u.carry
    (∀ mk ∈ arithOps ++ logicOps, outward fun rd => mk rd rs op)
      ∧ (outward fun rd => .not rd rs) ∧ (outward fun rd => .mov rd op) ∧ outward fun rd => .ldi rd n

/-- R107: a pseudo-op does what its expansion does, in every state. That MOV with an immediate is LDI is the spec's own
reading (R107, marked derived). -/
def Obligations.PseudoOps : Prop := ∀ (i : Instr) (s : State), exec i s = exec i.expand s

/-! SCAN (41_arithmetic_logical.md R158). That the first match wins, and what the operation is given no meaning for, are the
spec's own (R158 [derived], D31). -/

/-- R158: a scan whose first match is field `j`. The two writes fix the events too: for Rn = R30 one event with the whole
value after each of them, the model's choice (log entry 24); for a control word in R31 each goes out as an event instead
(D20). -/
def Obligations.ScanMatch : Prop :=
  ∀ (s : State) (rn : Fin 32) (op : Operand) (start count w stride j : Nat),
    HoldsWord s rn start count w stride → (w = 1 ∨ w = 2 ∨ w = 4) → 1 ≤ stride → stride ≤ 4 →
    (s.val op).toNat < 256 ^ w → j < count → start + j * stride + w ≤ 124 →
    (∀ i, i < j → ¬ HoldsNumber s (start + i * stride) w (s.val op).toNat) →
    HoldsNumber s (start + j * stride) w (s.val op).toNat →
    ∃ m t, exec (.scan rn op) s = .next t ∧ WroteField s m (byteField rn 0) (start + j * stride)
      ∧ WroteField m t (byteField rn 1) (count - j) ∧ t.carry = s.carry ∧ Continues s t ∧ KeepsRest s t

/-- R158: a scan that finds nothing, the empty one among them. The events are fixed as in `Obligations.ScanMatch` (log
entry 24 for Rn = R30, D20 for R31). -/
def Obligations.ScanNoMatch : Prop :=
  ∀ (s : State) (rn : Fin 32) (op : Operand) (start count w stride : Nat),
    HoldsWord s rn start count w stride → (w = 1 ∨ w = 2 ∨ w = 4) → 1 ≤ stride → stride ≤ 4 →
    (s.val op).toNat < 256 ^ w →
    (∀ i, i < count → start + i * stride + w ≤ 124 ∧ ¬ HoldsNumber s (start + i * stride) w (s.val op).toNat) →
    ∃ m t, exec (.scan rn op) s = .next t ∧ WroteField s m (byteField rn 0) 0xFF
      ∧ WroteField m t (byteField rn 1) 0 ∧ t.carry = s.carry ∧ Continues s t ∧ KeepsRest s t

/-- R158: where SCAN has no meaning it faults with `ScanUnspecified`: another width or stride, a value too wide for the
field, or a field to be inspected that passes byte 123. That width, stride and value count even where no field is to be
scanned is the model's choice (log entry 26). -/
def Obligations.ScanStops : Prop :=
  ∀ (s : State) (rn : Fin 32) (op : Operand) (start count w stride : Nat), HoldsWord s rn start count w stride →
    (¬ ((w = 1 ∨ w = 2 ∨ w = 4) ∧ 1 ≤ stride ∧ stride ≤ 4 ∧ (s.val op).toNat < 256 ^ w)
      ∨ ∃ j, j < count ∧ 124 < start + j * stride + w
        ∧ ∀ i, i < j → ¬ HoldsNumber s (start + i * stride) w (s.val op).toNat) →
    exec (.scan rn op) s = .fault .scanUnspecified

/-! MVIB, MVIW, MVID (42_register_load_store.md R202 to R207). The order of the two sides, the arithmetic of pointers and
what is left without meaning are the spec's own decision D32. -/

/-- R203 to R206: the whole effect of an MVIx whose operands fit and whose order of effects the source settles. The events
are fixed too: bytes written to R30 show as one event with its whole value, the model's choice (log entry 24), and a
direct destination in R31 goes out as an event (D20). -/
def Obligations.MviEffect : Prop :=
  ∀ p ∈ mviSizes, ∀ (s : State) (dst src : MviOperand),
    MviFits p.1 s src → MviFits p.1 s dst → ¬ MviSamePointer dst src → ¬ MviClobbers p.1 s dst src →
    ∃ m t v, exec (p.2 dst src) s = .next t ∧ MviSource p.1 s m v src ∧ MviDest p.1 m t v dst
      ∧ t.carry = s.carry ∧ Continues s t ∧ KeepsRest s t

/-- R203, R207, R211, R322: where an MVIx stops, and with which fault: a range that passes byte 123 first, then operands
whose order of effects the source does not settle. That the destination's range is tested with its pointer as the source
side leaves it, and that case (c) of R207 is one test with case (b), are the model's reading (log entry 25). -/
def Obligations.MviStops : Prop :=
  ∀ p ∈ mviSizes, ∀ (s : State) (dst src : MviOperand),
    (¬ MviFits p.1 s src → exec (p.2 dst src) s = .fault .regRange)
      ∧ (¬ MviTargetFits p.1 s dst src → exec (p.2 dst src) s = .fault .regRange)
      ∧ (MviFits p.1 s src → MviTargetFits p.1 s dst src → MviSamePointer dst src →
        exec (p.2 dst src) s = .fault .mviUnspecified)
      ∧ (MviFits p.1 s src → MviTargetFits p.1 s dst src → ¬ MviSamePointer dst src → MviClobbers p.1 s dst src →
        exec (p.2 dst src) s = .fault .mviUnspecified)

/-! Bursts (42_register_load_store.md R210 to R218). The wrap of addresses, the bounds of counts and ranges, admission and
what a fault leaves are the spec's own decisions D9, D13, D22 to D24 and D38; how a platform admits is log entry 13. -/

/-- R210, R214, R216: a load copies memory bytes `addr + i` to register-file bytes `start + i`, and changes no other byte of
R0 to R30, no memory and no flag. Where other agents write meanwhile, each byte is the last one put there before the core's
own access to it (R67, the spec's own decision D12). That memory answers a load with the bytes of the state, and a device
with free values, is the model's choice (log entries 13 and 20), and so is the event of a load into R30 (log entry 24). -/
def Obligations.BurstLoad : Prop :=
  ∀ (s : State) (start : Fin 128) (base : Fin 32) (op : Operand) (cnt : Count) (n : Nat),
    CountIs s cnt n → 1 ≤ n → start + n ≤ 124 →
    let loads (i : Instr) (addr : Word) : Prop := ∀ kind, AdmittedAs s false addr n kind →
      ∃ t, exec i s = .next t ∧ WroteRange s t start n (answeredByte s addr n kind) [.memRead addr n]
        ∧ t.carry = s.carry ∧ Continues s t ∧ KeepsRest s t
    loads (.lbbo start base op cnt) (s.x base + s.val op) ∧ loads (.lbco start base op cnt) (s.params.ct[base] + s.val op)

/-- R210, R215, R217: a store copies register-file bytes `start + i` to memory bytes `addr + i`; no other byte of memory
and no register changes. Once the writes other agents make meanwhile have taken effect, each byte stored is the last one put
there after the core's own access to it, or else the core's, and any other byte the last one put there, or else what it
was (R67, the spec's own decision D12; log entry 20). The premise on the form of memory is part of the invariant
`Obligations.InvStep` keeps. -/
def Obligations.BurstStore : Prop :=
  ∀ (s : State) (start : Fin 128) (base : Fin 32) (op : Operand) (cnt : Count) (n : Nat),
    Memory.wf s.dmem = true → CountIs s cnt n → 1 ≤ n → start + n ≤ 124 →
    let stores (i : Instr) (addr : Word) : Prop := Admitted s true addr n →
      ∃ t, exec i s = .next t
        ∧ (∀ i, i < n → t.dmem.read (addr + BitVec.ofNat 32 i).toNat = s.rf (start + i))
        ∧ (∀ a, (∀ i, i < n → a ≠ (addr + BitVec.ofNat 32 i).toNat) → t.dmem.read a = s.dmem.read a)
        ∧ (∀ i, i < n → t.settle.dmem.read (addr + BitVec.ofNat 32 i).toNat
          = (lastWrite (addr + BitVec.ofNat 32 i).toNat (s.meanwhile.writes.drop (s.meanwhile.beforeByte i))).getD
            (s.rf (start + i)))
        ∧ (∀ a, (∀ i, i < n → a ≠ (addr + BitVec.ofNat 32 i).toNat) →
          t.settle.dmem.read a = (lastWrite a s.meanwhile.writes).getD (s.dmem.read a))
        ∧ (∀ k, k < 124 → t.rf k = s.rf k)
        ∧ t.history = s.history ++ [.memWrite addr ((List.range n).map fun i => s.rf (start + i))]
        ∧ t.carry = s.carry ∧ Continues s t ∧ KeepsWorld s t
    stores (.sbbo start base op cnt) (s.x base + s.val op)
      ∧ stores (.sbco start base op cnt) (s.params.ct[base] + s.val op)

/-- R211 to R213, R218, R322: where a burst stops, and with which reason. -/
def Obligations.BurstStops : Prop :=
  ∀ (s : State) (start : Fin 128) (base : Fin 32) (op : Operand) (cnt : Count) (n : Nat), CountIs s cnt n →
    let stops (i : Instr) (write : Bool) (addr : Word) : Prop :=
      (n = 0 → exec i s = .fault .burstCountZero) ∧ (124 < n → exec i s = .fault .burstCountTooBig)
        ∧ (1 ≤ n → n ≤ 124 → 124 < start + n → exec i s = .fault .regRange)
        ∧ (1 ≤ n → start + n ≤ 124 → ¬ Admitted s write addr n → exec i s = .fault .unadmitted)
    stops (.lbbo start base op cnt) false (s.x base + s.val op)
      ∧ stops (.sbbo start base op cnt) true (s.x base + s.val op)
      ∧ stops (.lbco start base op cnt) false (s.params.ct[base] + s.val op)
      ∧ stops (.sbco start base op cnt) true (s.params.ct[base] + s.val op)

/-- R71: what SBBO or SBCO put in memory, LBBO or LBCO by the same address operands and count brings back, into any bytes of
the register file. The load is one of memory, not of a device (log entries 13 and 20), and no other agent writes meanwhile
(R71's own premise). -/
def Obligations.StoreThenLoad : Prop :=
  ∀ (s t : State) (start start' : Fin 128) (base : Fin 32) (op : Operand) (cnt : Count) (n : Nat),
    Memory.wf s.dmem = true → s.meanwhile = .nothing → StoredOperand op → CountIs s cnt n → start' + n ≤ 124 →
    let back (store load : Instr) (addr : Word) : Prop :=
      exec store s = .next t → AdmittedAs s false addr n .ram →
      ∃ u, exec load t = .next u ∧ ∀ i, i < n → u.rf (start' + i) = s.rf (start + i)
    (base ≠ 31 → back (.sbbo start base op cnt) (.lbbo start' base op cnt) (s.x base + s.val op))
      ∧ back (.sbco start base op cnt) (.lbco start' base op cnt) (s.params.ct[base] + s.val op)

/-- R63: where the bytes of a stored 32-bit register lie in data memory: the byte at `addr + k` is bits `8k + 7` to `8k`. That
the byte order is little-endian is the spec's own inference and decision D10. -/
def Obligations.LittleEndian : Prop :=
  ∀ (s : State) (n : Fin 31) (base : Fin 32) (op : Operand), Memory.wf s.dmem = true →
    Admitted s true (s.x base + s.val op) 4 →
    ∃ t, exec (.sbbo ⟨4 * n, by omega⟩ base op (.imm 4)) s = .next t
      ∧ ∀ k, k < 4 → (t.dmem.read (s.x base + s.val op + BitVec.ofNat 32 k).toNat).toNat = (s.x n).toNat / 256 ^ k % 256

/-! ZERO and the XFR instructions (42_register_load_store.md R220, R222 to R226). -/

/-- R220: ZERO clears its bytes and changes no other byte of R0 to R30; a range that passes byte 123 stops it (R211, the
spec's own decision D22). The events are fixed too: clearing bytes of R30 shows as one event with its whole value, the
model's choice (log entry 24). -/
def Obligations.ZeroEffect : Prop :=
  ∀ (s : State) (start len : Nat),
    (start + len ≤ 124 → ∃ t, exec (.zero start len) s = .next t ∧ WroteRange s t start len (fun _ => 0) []
      ∧ t.carry = s.carry ∧ Continues s t ∧ KeepsRest s t)
    ∧ (124 < start + len → exec (.zero start len) s = .fault .regRange)

/-- R224: XIN takes the bytes the device answers, free values (log entry 15), and changes no other byte of R0 to R30. The
events are fixed too: bytes of R30 taken show as one event with its whole value, the model's choice (log entry 24). -/
def Obligations.XinEffect : Prop :=
  ∀ (s : State) (dev : Nat) (start : Fin 128) (cnt : Count) (n : Nat), CountIs s cnt n → 1 ≤ n → start + n ≤ 124 →
    ∃ t, exec (.xin dev start cnt) s = .next t
      ∧ WroteRange s t start n (Config.xfrIn s.history s.moment dev start n) []
      ∧ t.carry = s.carry ∧ Continues s t ∧ KeepsRest s t

/-- R225: XOUT sends its bytes as one outward event; no state of the core changes but `pc`. -/
def Obligations.XoutEffect : Prop :=
  ∀ (s : State) (dev : Nat) (start : Fin 128) (cnt : Count) (n : Nat), CountIs s cnt n → 1 ≤ n → start + n ≤ 124 →
    ∃ t, exec (.xout dev start cnt) s = .next t
      ∧ t.history = s.history ++ [.xfrOut dev start ((List.range n).map fun i => s.rf (start + i))]
      ∧ (∀ k, k < 124 → t.rf k = s.rf k) ∧ t.carry = s.carry ∧ Continues s t ∧ KeepsRest s t

/-- R226: XCHG under each value of the parameter: refused, exactly XIN, or an exchange. The parameter and its values are the
spec's own decision D28. That `exec` itself refuses under `refuse`, and that the answer is drawn from the history before
the bytes go out, are the model's reading (log entry 27); the event of bytes of R30 taken is its choice (log entry 24). -/
def Obligations.XchgEffect : Prop :=
  ∀ (s : State) (dev : Nat) (start : Fin 128) (cnt : Count),
    (s.params.xchg = .refuse → exec (.xchg dev start cnt) s = .refused (.illFormed .xchgRefused))
    ∧ (s.params.xchg = .asXin → exec (.xchg dev start cnt) s = exec (.xin dev start cnt) s)
    ∧ ∀ n, s.params.xchg = .exchange → CountIs s cnt n → 1 ≤ n → start + n ≤ 124 →
      ∃ t, exec (.xchg dev start cnt) s = .next t
        ∧ WroteRange s t start n (Config.xfrIn s.history s.moment dev start n)
          [.xfrOut dev start ((List.range n).map fun i => s.rf (start + i))]
        ∧ t.carry = s.carry ∧ Continues s t ∧ KeepsRest s t

/-- R211, R213, R223: where an XFR instruction stops. The bounds are the spec's own decisions D22 to D24 and D36. -/
def Obligations.XfrStops : Prop :=
  ∀ (s : State) (dev : Nat) (start : Fin 128) (cnt : Count) (n : Nat), CountIs s cnt n →
    ∀ i ∈ [Instr.xin dev start cnt, .xout dev start cnt, .xchg dev start cnt],
      (i = .xchg dev start cnt → s.params.xchg ≠ .refuse) →
      (n = 0 → exec i s = .fault .burstCountZero) ∧ (124 < n → exec i s = .fault .burstCountTooBig)
        ∧ (1 ≤ n → n ≤ 124 → 124 < start + n → exec i s = .fault .regRange)

/-! Control flow (43_control_flow.md). Where an instruction arrives, `Arrives`, has the loop-end test in it, whose reading is
the spec's own decision D25. -/

/-- R262: JMP goes to its operand; a register value above 0xFFFF stops it (D8). -/
def Obligations.JmpEffect : Prop :=
  ∀ (s : State) (target : Operand),
    ((s.val target).toNat ≤ 65535 → ∃ t, exec (.jmp target) s = .next t ∧ t.carry = s.carry ∧ KeepsRegs s t
      ∧ KeepsRest s t ∧ Arrives s t (s.val target).toNat)
    ∧ (65535 < (s.val target).toNat → exec (.jmp target) s = .fault .jumpTargetRange)

/-- R263: JAL writes `pc + 1` to its link field and goes to its operand as it was before the write (D4); a register value
above 0xFFFF stops it (D8). The events are fixed too: a link in R30 shows as one event with its whole value, the model's
choice (log entry 24), and a link in R31 goes out as an event (D20). -/
def Obligations.JalEffect : Prop :=
  ∀ (s : State) (rd : Field) (target : Operand),
    ((s.val target).toNat ≤ 65535 → ∃ t, exec (.jal rd target) s = .next t ∧ t.carry = s.carry
      ∧ WroteField s t rd (s.pc.toNat + 1) ∧ KeepsRest s t ∧ Arrives s t (s.val target).toNat)
    ∧ (65535 < (s.val target).toNat → exec (.jal rd target) s = .fault .jumpTargetRange)

/-- R264 to R271: the compare-and-branch instructions, the third operand against the second, and QBA. That the comparison
is of unsigned numbers is D6. -/
def Obligations.CompareBranches : Prop :=
  ∀ (s : State) (dist : Int) (rs : Field) (op : Operand),
    (∀ p ∈ compareOps, Branches (p.1 dist rs op) s (p.2 (s.val op).toNat (s.rd rs).toNat) dist)
      ∧ Branches (.qba dist) s true dist

/-- R272 to R276: QBBS, QBBC, and the waits, which go to themselves. -/
def Obligations.BitBranches : Prop :=
  ∀ (s : State) (dist : Int) (rs : Field) (op : Operand),
    Branches (.qbbs dist rs op) s (fieldBit s rs op) dist ∧ Branches (.qbbc dist rs op) s (!fieldBit s rs op) dist
      ∧ Branches (.wbs rs op) s (!fieldBit s rs op) 0 ∧ Branches (.wbc rs op) s (fieldBit s rs op) 0

/-- R275, R276: a wait on a bit of R0 to R30 that has the wrong value spins for ever: every later state differs only in the
moment of the environment. The one wait left out stands at the end of an armed loop, where each arrival counts the loop down
(R291). No other agent writes data memory in these steps. -/
def Obligations.WaitSpins : Prop :=
  ∀ (s : State) (rs : Field) (op : Operand) (i : Instr), rs.reg ≠ 31 → StoredOperand op →
    (s.params.rev = .v1 ∨ s.loopCounter = 0 ∨ s.loopEnd ≠ s.pc) → s.host = [] → s.meanwhile = .nothing →
    ProgramWellFormed s → Runs s i →
    ((i = .wbs rs op ∧ fieldBit s rs op = false) ∨ (i = .wbc rs op ∧ fieldBit s rs op = true)) →
    ∀ n, Host.Core.run Sys2Proof.core n s = .next (s.laterBy n)

/-- R287: HALT disables the core and changes nothing else; `pc` stays on it, and re-enabling goes back to it. -/
def Obligations.HaltStops : Prop :=
  ∀ s : State, exec .halt s = .next { s with run := .halted }
    ∧ ∀ rest, s.host = .enable :: rest → s.run = .halted → step s = .next { s with host := rest, run := .running }

/-- R288: SLP puts the core to sleep with `pc` past it, and changes nothing else. -/
def Obligations.SlpSleeps : Prop :=
  ∀ (s : State) (wake : Bool), ∃ t, exec (.slp wake) s = .next t ∧ t.run = .sleeping wake ∧ t.carry = s.carry
    ∧ KeepsRegs s t ∧ Continues s t ∧ KeepsDmem s t ∧ t.imem = s.imem ∧ t.params = s.params
    ∧ t.host = s.host ∧ t.moment = s.moment

/-- R290: LOOP sets the three loop values and goes to the body, or past it where a register count is 0. -/
def Obligations.LoopArms : Prop :=
  ∀ (s : State) (dist : Int) (cnt : Operand) (c : Nat), 2 ≤ dist → (s.pc.toNat : Int) + dist ≤ 65535 →
    (match cnt with
      | .imm v => 1 ≤ v ∧ v ≤ 256 ∧ c = v
      | .reg f => c = (s.rd f).toNat % 65536) →
    ∃ t, exec (.loop dist cnt) s = .next t ∧ t.loopCounter.toNat = c ∧ t.loopTop.toNat = s.pc.toNat + 1
      ∧ (t.loopEnd.toNat : Int) = s.pc.toNat + dist
      ∧ PcAt t (if c = 0 then (s.pc.toNat : Int) + dist else (s.pc.toNat : Int) + 1)
      ∧ t.carry = s.carry ∧ KeepsRegs s t ∧ KeepsRest s t

/-- R290, R291: of `c` arrivals at the end of a loop armed with `c`, the first `c - 1` go back to its top and the last one
goes on past it, the counter at 0: the body runs exactly `c` times (conflict C5). -/
def Obligations.LoopPasses : Prop :=
  ∀ (s : State) (k : Nat), s.params.rev = .v3 → 1 ≤ k → k ≤ s.loopCounter.toNat →
    let t := (fun u : State => u.next u.loopEnd.toNat)^[k] s
    t.loopCounter.toNat = s.loopCounter.toNat - k
      ∧ PcAt t (if k = s.loopCounter.toNat then (s.loopEnd.toNat : Int) else (s.loopTop.toNat : Int))
      ∧ t.loopTop = s.loopTop ∧ t.loopEnd = s.loopEnd ∧ t.carry = s.carry ∧ KeepsRegs s t ∧ KeepsRest s t

/-! The step (43_control_flow.md R261, 10_state.md R36, 60_exceptions.md R330 to R332). -/

/-- A step of a running core with a well-formed program runs the decoded instruction: it is `exec` of it, the writes other
agents make meanwhile take effect in data memory, and the environment moves to its next moment. Where they make none, that
is `exec` and the moment alone. How such writes stand in State is the model's choice (log entry 20). -/
def Obligations.StepRuns : Prop :=
  ∀ (s : State) (i : Instr), s.host = [] → s.run = .running → s.pcOut = false → ProgramWellFormed s →
    (s.imem.fetch s.pc = some (.asm i) ∨ ∃ w, s.imem.fetch s.pc = some (.word w) ∧ decode w = .ok i) →
    (∀ t, exec i s = .next t → step s = .next (t.settle.laterBy 1)
        ∧ (Memory.wf t.dmem = true →
          ∀ a, t.settle.dmem.read a = (lastWrite a t.meanwhile.writes).getD (t.dmem.read a))
        ∧ (s.meanwhile = .nothing → t.settle = t))
      ∧ (∀ f, exec i s = .fault f → step s = .fault f) ∧ ∀ r, exec i s = .refused r → step s = .refused r

/-- R261, R130: in a well-formed program, a fetch that finds no instruction, or a word that is none, stops the step. That the
machine stops there is the spec's own decision D7, D34 and, for words, its treatment U1. -/
def Obligations.FetchStops : Prop :=
  ∀ s : State, s.host = [] → s.run = .running → ProgramWellFormed s →
    ((s.pcOut = true ∨ s.imem.fetch s.pc = none) → step s = .fault .fetchOutside)
      ∧ ∀ w why, s.pcOut = false → s.imem.fetch s.pc = some (.word w) → decode w = .error why →
        step s = .fault (.undefinedWord why)

/-- R105, R109, R321: a program with an instruction that is not well-formed where it stands, be it reached or not, or with
the word of an undescribed FILL or ILOOP, is refused by the first step of its core, with the reason, and a step refuses
nothing else but a host move the spec has not. On a V1 core MVIx, ZERO, the XFR instructions and LOOP are never
well-formed, on a V3 core SCAN is not. That such programs are refused is the spec's own decisions D17 and D30, and that the
host writes instruction memory of a Halted core only is its decision D16. That the moment of the refusal is the first step
of a running core is the model's choice (log entry 22), and that the other host move is refused is its reading of D16 (log
entry 19). -/
def Obligations.RefusesIllFormed : Prop :=
  (∀ (s : State) (why : IllFormed), CoreMoves s → s.run = .running → ProgramIllFormed s why →
    step s = .refused (.illFormed why))
  ∧ (∀ (s : State) (r : Refusal), step s = .refused r →
    (∃ why, r = .illFormed why ∧ CoreMoves s ∧ s.run = .running ∧ ProgramIllFormed s why)
      ∨ (r = .noSuchHostMove ∧ s.run ≠ .halted ∧ ∃ a sl, HostMoves s (.writeImem a sl)))
  ∧ ∀ (p : Config.Params) (pc : InstrAddr) (d s : MviOperand) (rn : Fin 32) (op : Operand) (n m : Nat) (o : Fin 128)
      (cnt : Count) (dist : Int),
    (p.rev = .v1 → ∀ i ∈ [Instr.mvib d s, .mviw d s, .mvid d s, .zero n m, .xin n o cnt, .xout n o cnt, .xchg n o cnt,
      .loop dist op], ¬ WellFormed p pc i) ∧ (p.rev = .v3 → ¬ WellFormed p pc (.scan rn op))

/-- R99, R105, R108, R202, R226, R260, R292: what being well-formed at an address means: every immediate in the range of its
class, a pointer in an MVIx, an instruction the core has, no XCHG where it is refused, a label that is an address within
reach and for a LOOP past a non-empty body. The ranges and refusals R105, R108, R226, R260 and R292 mark as decisions are
the spec's own (D23, D25, D28, D30, D35, D36). -/
def Obligations.WellFormedMeans : Prop :=
  ∀ (p : Config.Params) (pc : InstrAddr) (i : Instr), WellFormed p pc i ↔
    (∀ x ∈ immediateRanges i, x.2.1 ≤ x.1 ∧ x.1 ≤ x.2.2)
      ∧ (∀ m ∈ mviSizes, ∀ dst src, i = m.2 dst src → dst.isPointer = true ∨ src.isPointer = true)
      ∧ CoreHas p i ∧ (∀ dev start cnt, i = .xchg dev start cnt → p.xchg ≠ .refuse) ∧ LabelFits p pc i

/-- R36, R331: a halted or permanently sleeping core does nothing; a sleeper with wake-on-event wakes exactly when an
enabled event holds, a free value (log entry 16). -/
def Obligations.StoppedCore : Prop :=
  ∀ s : State, s.host = [] →
    ((s.run = .halted ∨ s.run = .sleeping false) → step s = .next s)
      ∧ (s.run = .sleeping true → step s = .next (if Config.wakeEvent s.history s.moment
        then { s with run := .running, moment := s.moment + 1 } else { s with moment := s.moment + 1 }))

/-- R330 to R332, R350, R75, R72: the moves of the host and of other agents. The schedule that holds them is the model's, and
so is that Enable does nothing on a core that is not Halted, and ClearSleeping nothing on one that is not Sleeping (log
entry 17); what a reset leaves is D19 and log entries 6, 8 and 18; that instruction memory is written only while the
core is halted is D16 (log entry 19); the two forms of another agent's write are log entry 20. -/
def Obligations.HostMoveEffects : Prop :=
  ∀ (s : State) (rest : List HostMove) (a : InstrAddr) (sl : Option Slot) (b : Word) (v : Byte),
    (s.host = .enable :: rest → s.run ≠ .halted → step s = .next { s with host := rest })
    ∧ (∀ w, s.host = .clearSleeping :: rest → s.run = .sleeping w →
      step s = .next { s with host := rest, run := .running })
    ∧ (s.host = .clearSleeping :: rest → (∀ w, s.run ≠ .sleeping w) → step s = .next { s with host := rest })
    ∧ (s.host = .reset :: rest → step s = .next { State.reset with
        pc := s.params.entryPC, params := s.params, dmem := s.dmem, imem := s.imem, history := s.history,
        moment := s.moment, meanwhile := s.meanwhile, host := rest })
    ∧ (s.host = .writeImem a sl :: rest → s.run = .halted → InstrMemory.wf s.imem = true →
      ∃ t, step s = .next t ∧ t.imem.fetch a = sl ∧ (∀ c, c ≠ a → t.imem.fetch c = s.imem.fetch c)
        ∧ t = { s with host := rest, imem := t.imem })
    ∧ (s.host = .writeImem a sl :: rest → s.run ≠ .halted → step s = .refused .noSuchHostMove)
    ∧ (s.host = .agentWrite b v :: rest → Memory.wf s.dmem = true →
      ∃ t, step s = .next t ∧ t.dmem.read b.toNat = v ∧ (∀ c, c ≠ b.toNat → t.dmem.read c = s.dmem.read c)
        ∧ t = { s with host := rest, dmem := t.dmem })
    ∧ (∀ d, s.host = .meanwhile d :: rest → step s = .next { s with host := rest, meanwhile := d })

/-- R330, R75, R344: a debugger's breakpoint: while the core is halted at `pc` the host replaces the instruction there and
re-enables; the next fetch is of the new instruction, at the same `pc`. That the host may replace it then, and that the fetch
sees the change, is the spec's own decision D16; the schedule that holds the two moves is the model's (log entry 17). -/
def Obligations.Breakpoint : Prop :=
  ∀ (s : State) (i : Instr) (rest : List HostMove), s.run = .halted → s.pcOut = false → InstrMemory.wf s.imem = true →
    s.host = .writeImem s.pc (some (.asm i)) :: .enable :: rest →
    ∃ t, Host.Core.run Sys2Proof.core 2 s = .next t ∧ t.run = .running ∧ t.pc = s.pc ∧ t.fetch = .ok i
      ∧ t.regs = s.regs ∧ t.carry = s.carry ∧ t.dmem = s.dmem

/-! Rules about every step. -/

/-- R33: only the six arithmetic instructions write the carry. A reset sets it to a value the model chose (log entries 6
and 18). That no other instruction writes it is the spec's own inference and decision D5. That no move of the host but
a reset changes it is the model's choice (log entry 17). -/
def Obligations.CarryWriters : Prop :=
  ∀ s t : State, step s = .next t → t.carry ≠ s.carry →
    HostMoves s .reset ∨ ∃ mk ∈ arithOps, ∃ rd rs op, Runs s (mk rd rs op)

/-- R60, R67, R71, R72, R210: a byte of data memory changes only by SBBO or SBCO, or by another agent's write of that byte, at a
step of its own or while the core runs an instruction. That a reset leaves data memory as it was (log entry 18), and the
two forms of another agent's write (log entry 20), are the model's choices. -/
def Obligations.MemoryWriters : Prop :=
  ∀ (s t : State) (a : Nat), Memory.wf s.dmem = true → step s = .next t → t.dmem.read a ≠ s.dmem.read a →
    (∃ b v, HostMoves s (.agentWrite b v) ∧ b.toNat = a)
      ∨ ((∃ i, Runs s i) ∧ ∃ w ∈ s.meanwhile.writes, w.1.toNat = a)
      ∨ ∃ start base op cnt, Runs s (.sbbo start base op cnt) ∨ Runs s (.sbco start base op cnt)

/-- R75, R352, R361: no step of the core changes instruction memory, and no step at all changes the parameters of the run;
instruction memory changes only by the host, while the core is halted. That no instruction writes it, and that the host does
so while the core is halted only, is the spec's own decision D16, as the model reads it (log entry 19); that a reset keeps
it is the model's choice (log entry 18). -/
def Obligations.ProgramFixed : Prop :=
  ∀ s t : State, step s = .next t → t.params = s.params
    ∧ (t.imem ≠ s.imem → s.run = .halted ∧ ∃ a sl, HostMoves s (.writeImem a sl))

/-- R36, R287, R288, R330, R331: every way from one run state to another. That a reset leaves the core Running is the spec's
launch premise D19 (R46, R350) as the model reads it (log entry 9). That `ClearSleeping` makes no Halted core Running, and
`Enable` no Sleeping core, is the model's choice (log entry 17): neither R36 nor R9 says what they do there. -/
def Obligations.RunStateMoves : Prop :=
  ∀ s t : State, step s = .next t → t.run ≠ s.run →
    match s.run with
    | .running => (Runs s .halt ∧ t.run = .halted) ∨ ∃ w, Runs s (.slp w) ∧ t.run = .sleeping w
    | .halted => (HostMoves s .enable ∨ HostMoves s .reset) ∧ t.run = .running
    | .sleeping w => (HostMoves s .clearSleeping ∨ HostMoves s .reset
        ∨ (w = true ∧ CoreMoves s ∧ Config.wakeEvent s.history s.moment = true)) ∧ t.run = .running

/-- R35, R290, R291: LoopTop and LoopEnd change only by LOOP or a reset; the loop counter changes only so, or goes down by
one. That the loop end takes one pass off is the spec's own decision D25. That no move of the host but a reset changes them
is the model's choice (log entry 17). -/
def Obligations.LoopWriters : Prop :=
  ∀ s t : State, step s = .next t → ¬ HostMoves s .reset → (∀ dist cnt, ¬ Runs s (.loop dist cnt)) →
    t.loopTop = s.loopTop ∧ t.loopEnd = s.loopEnd
      ∧ (t.loopCounter ≠ s.loopCounter → t.loopCounter.toNat + 1 = s.loopCounter.toNat ∧ s.params.rev = .v3)

/-- R20, R29, R354: a byte of R0 to R30 changes only where the core runs an instruction or is reset, and never by a branch,
a jump without link, a store, an XOUT, a HALT, an SLP or a LOOP. That only an instruction of the core writes them is the spec's
own inference (R29, marked derived there). That a reset gives them a value (log entries 6 and 18), and that no move of the host
but a reset changes one (log entry 17: R330 and N23 of 91_not_in_source.md leave it open), are the model's choices. -/
def Obligations.RegisterWriters : Prop :=
  ∀ (s t : State) (k : Nat), step s = .next t → k < 124 → t.rf k ≠ s.rf k →
    HostMoves s .reset ∨ ∃ i, Runs s i ∧ ∀ (dist : Int) (rs : Field) (op : Operand) (start : Fin 128) (base : Fin 32)
      (cnt : Count) (dev : Nat) (w : Bool),
      (∀ p ∈ compareOps, i ≠ p.1 dist rs op)
      ∧ i ∉ [Instr.qba dist, .qbbs dist rs op, .qbbc dist rs op, .wbs rs op, .wbc rs op, .jmp op,
        .sbbo start base op cnt, .sbco start base op cnt, .xout dev start cnt, .halt, .slp w, .loop dist op]

/-- R354: the history of a run only grows: a step adds events at the end. The history is the model's field (log entry 24), and
that a reset keeps it is the model's choice (log entry 18). -/
def Obligations.HistoryGrows : Prop := ∀ s t : State, step s = .next t → ∃ es, t.history = s.history ++ es

/-- The invariant `State.Inv` (the two memories in canonical form; the loop hardware of a V1 core, which R105 and R261 say
it has not, never armed) holds after every step from every state that has it. -/
def Obligations.InvStep : Prop := ∀ s t : State, s.Inv → step s = .next t → t.Inv

/-- The invariant of `Obligations.InvStep` holds after reset. -/
def Obligations.InvReset : Prop := State.reset.Inv

/-- R46, R350, R352: after reset the core is Running at its entry point with the loop hardware not armed, the spec's launch
premise D19, which the model reads as the state after a reset (log entry 9). The model's choices: that R0 to R30 and the
carry are 0 (log entry 6), that LoopTop and LoopEnd are 0 (log entry 8), and that neither memory, a parameter of the run
by R46, lists anything (log entries 12 and 29). -/
def Obligations.ResetState : Prop :=
  State.reset.run = .running ∧ State.reset.pc = State.reset.params.entryPC ∧ State.reset.pcOut = false
    ∧ State.reset.loopCounter = 0 ∧ State.reset.loopTop = 0 ∧ State.reset.loopEnd = 0
    ∧ State.reset.dmem = [] ∧ State.reset.imem = [] ∧ State.reset.history = []
    ∧ (∀ n, n < 31 → State.reset.x n = 0) ∧ State.reset.carry = false

/-! The encoding (30_encoding.md R120 to R131), general knowledge of the spec's writer (log entries 2 to 5). -/

/-- R121 to R129: decoding the word of any instruction with well-formed operands gives it back, a pseudo-op as its
expansion. -/
def Obligations.DecodeEncode : Prop :=
  ∀ (i : Instr) (w : Word), operandCheck i = none → encode i = some w → decode w = .ok i.expand

/-- The other direction: a word that decodes is the word of what it decodes to, but for NOT, SCAN and QBA, whose decoder
ignores bits (log entry 3). -/
def Obligations.EncodeDecode : Prop :=
  ∀ (w : Word) (i : Instr), decode w = .ok i →
    (∀ rd rs, i ≠ .not rd rs) → (∀ rn op, i ≠ .scan rn op) → (∀ dist, i ≠ .qba dist) → encode i = some w

/-- R124, R128: which instructions have a word: all but MVIB, MVIW, MVID and the ones whose label is out of the reach of
their distance field. -/
def Obligations.EncodeDefined : Prop :=
  ∀ i : Instr, (encode i).isSome = match i with
    | .mvib .. | .mviw .. | .mvid .. => false
    | .loop dist _ => decide (0 ≤ dist ∧ dist ≤ 255)
    | .qbgt dist _ _ | .qbge dist _ _ | .qblt dist _ _ | .qble dist _ _ | .qbeq dist _ _ | .qbne dist _ _
    | .qba dist | .qbbs dist _ _ | .qbbc dist _ _ => decide (-512 ≤ dist ∧ dist ≤ 511)
    | _ => true

/-- R130: every word that R130 says is not decodable is rejected. -/
def Obligations.DecodeRejects : Prop :=
  ∀ w : Word, (bits w 31 29 = 5 ∨ (bits w 31 29 = 1 ∧ (bits w 28 25 = 6 ∨ (9 ≤ bits w 28 25 ∧ bits w 28 25 ≤ 14)))
      ∨ (bits w 31 25 = 23 ∧ bits w 24 23 = 0) ∨ (bits w 31 30 = 1 ∧ bits w 29 27 = 0)
      ∨ (bits w 31 29 = 6 ∧ (bits w 28 27 = 0 ∨ bits w 28 27 = 3))) → ∃ why, decode w = .error why

/-- R122, R124, R125, R127, R129: the words the spec writes out decode to what it says they are. -/
def Obligations.DecodeWords : Prop :=
  decode 0x10E0E0E0 = .ok (.and ⟨0, .full⟩ ⟨0, .full⟩ (.reg ⟨0, .full⟩))
    ∧ decode 0x1D04E0E0 = .ok (.clr ⟨0, .full⟩ ⟨0, .full⟩ (.imm 4))
    ∧ decode 0x6F00E0FF = .ok (.qbne (-1) ⟨0, .full⟩ (.imm 0))
    ∧ decode 0x91042480 = .ok (.lbco 0 4 (.imm 4) (.imm 4))
    ∧ decode 0x10E1E1E3 = .ok (.and ⟨3, .full⟩ ⟨1, .full⟩ (.reg ⟨1, .full⟩))
    ∧ decode 0xC91EFF00 = .ok (.qbbc 0 ⟨31, .full⟩ (.imm 30))
    ∧ decode 0x3E800000 = .ok (.slp true)
end

