-- ==== Sys2Proof/Laws/Memory.lean ====
section
/-! SUPPORT. Sparse memories: read after write, the canonical form, and runs of bytes (20_memory.md R62). -/

namespace Sys2Proof.Machine

section
variable {α : Type}

theorem risingFrom_mono {lo lo' : Nat} {m : List (Nat × α)} (h : lo' ≤ lo) (hm : risingFrom lo m = true) :
    risingFrom lo' m = true := by
  cases m with
  | nil => rfl
  | cons c rest =>
    simp only [risingFrom, Bool.and_eq_true, decide_eq_true_eq] at hm ⊢
    exact ⟨by omega, hm.2⟩

theorem cellAt_none_of_below {lo a : Nat} {m : List (Nat × α)} (hm : risingFrom lo m = true) (h : a < lo) :
    cellAt a m = none := by
  induction m generalizing lo with
  | nil => rfl
  | cons c rest ih =>
    simp only [risingFrom, Bool.and_eq_true, decide_eq_true_eq] at hm
    rw [cellAt, if_neg (by omega)]
    exact ih hm.2 (by omega)

/-- What every address lists after one is put. -/
theorem cellAt_cellPut (a b : Nat) (v : α) (m : List (Nat × α)) :
    cellAt b (cellPut a v m) = if b = a then some v else cellAt b m := by
  induction m with
  | nil => simp [cellPut, cellAt]
  | cons c rest ih =>
    obtain ⟨d, w⟩ := c
    rw [cellPut]
    split
    · simp [cellAt]
    · split
      · next h => subst h; simp [cellAt]; split <;> rfl
      · next h1 h2 =>
        simp only [cellAt, ih]
        by_cases hb : b = d
        · rw [if_pos hb, if_pos hb, if_neg (by omega)]
        · rw [if_neg hb, if_neg hb]

/-- What every address lists after one is removed from a rising list. -/
theorem cellAt_cellDrop {lo : Nat} (a b : Nat) (m : List (Nat × α)) (hm : risingFrom lo m = true) :
    cellAt b (cellDrop a m) = if b = a then none else cellAt b m := by
  induction m generalizing lo with
  | nil => simp [cellDrop, cellAt]
  | cons c rest ih =>
    obtain ⟨d, w⟩ := c
    simp only [risingFrom, Bool.and_eq_true, decide_eq_true_eq] at hm
    rw [cellDrop]
    by_cases h : a = d
    · subst h
      rw [if_pos rfl]
      by_cases hb : b = a
      · subst hb; rw [if_pos rfl]; exact cellAt_none_of_below hm.2 (by omega)
      · rw [if_neg hb, cellAt, if_neg hb]
    · rw [if_neg h]
      simp only [cellAt, ih hm.2]
      by_cases hb : b = d
      · rw [if_pos hb, if_pos hb, if_neg (by omega)]
      · rw [if_neg hb, if_neg hb]

theorem risingFrom_cellPut {lo : Nat} (a : Nat) (v : α) (m : List (Nat × α)) (h : lo ≤ a)
    (hm : risingFrom lo m = true) : risingFrom lo (cellPut a v m) = true := by
  induction m generalizing lo with
  | nil => simp [cellPut, risingFrom, h]
  | cons c rest ih =>
    obtain ⟨d, w⟩ := c
    simp only [risingFrom, Bool.and_eq_true, decide_eq_true_eq] at hm
    rw [cellPut]
    split
    · next h1 =>
      simp only [risingFrom, Bool.and_eq_true, decide_eq_true_eq]
      exact ⟨h, by omega, hm.2⟩
    · split
      · next h1 h2 => subst h2; simp only [risingFrom, Bool.and_eq_true, decide_eq_true_eq]; exact hm
      · next h1 h2 =>
        simp only [risingFrom, Bool.and_eq_true, decide_eq_true_eq]
        exact ⟨hm.1, ih (by omega) hm.2⟩

theorem risingFrom_cellDrop {lo : Nat} (a : Nat) (m : List (Nat × α)) (hm : risingFrom lo m = true) :
    risingFrom lo (cellDrop a m) = true := by
  induction m generalizing lo with
  | nil => rfl
  | cons c rest ih =>
    obtain ⟨d, w⟩ := c
    simp only [risingFrom, Bool.and_eq_true, decide_eq_true_eq] at hm
    rw [cellDrop]
    split
    · exact risingFrom_mono (by omega) hm.2
    · simp only [risingFrom, Bool.and_eq_true, decide_eq_true_eq]
      exact ⟨hm.1, ih hm.2⟩

theorem all_cellPut (p : Nat × α → Bool) (a : Nat) (v : α) (m : List (Nat × α)) (h : p (a, v) = true)
    (hm : m.all p = true) : (cellPut a v m).all p = true := by
  induction m with
  | nil => simp [cellPut, h]
  | cons c rest ih =>
    obtain ⟨d, w⟩ := c
    simp only [List.all_cons, Bool.and_eq_true] at hm
    rw [cellPut]
    split
    · simp [h, hm.1, hm.2]
    · split
      · simp [h, hm.2]
      · simp [hm.1, ih hm.2]

theorem all_cellDrop (p : Nat × α → Bool) (a : Nat) (m : List (Nat × α)) (hm : m.all p = true) :
    (cellDrop a m).all p = true := by
  induction m with
  | nil => rfl
  | cons c rest ih =>
    obtain ⟨d, w⟩ := c
    simp only [List.all_cons, Bool.and_eq_true] at hm
    rw [cellDrop]
    split
    · exact hm.2
    · simp [hm.1, ih hm.2]

end

/-! Data memory. -/

theorem Memory.wf_iff (m : Memory) :
    Memory.wf m = true ↔ risingFrom 0 m = true
      ∧ (m.all fun c => decide (c.1 < 2 ^ 32) && decide (c.2 ≠ unlistedByte)) = true := by
  simp only [Memory.wf, Bool.and_eq_true]

/-- The memories of the state right after reset are in canonical form. -/
theorem State.reset_memories : Memory.wf State.reset.dmem = true ∧ InstrMemory.wf State.reset.imem = true := ⟨rfl, rfl⟩

/-- The canonical form is kept by the write of one byte. -/
theorem Memory.wf_write (m : Memory) (a : Nat) (v : Byte) (ha : a < 2 ^ 32) (h : Memory.wf m = true) :
    Memory.wf (Memory.write m a v) = true := by
  rw [Memory.wf_iff] at h ⊢
  unfold Memory.write
  split
  · exact ⟨risingFrom_cellDrop _ _ h.1, all_cellDrop _ _ _ h.2⟩
  · next hv =>
    refine ⟨risingFrom_cellPut _ _ _ (Nat.zero_le _) h.1, all_cellPut _ _ _ _ ?_ h.2⟩
    simp only [Bool.and_eq_true, decide_eq_true_eq]
    exact ⟨ha, hv⟩

/-- The canonical form is kept by the write of a run of bytes. -/
theorem Memory.wf_writeRun (m : Memory) (addr : Word) (bs : List Byte) (h : Memory.wf m = true) :
    Memory.wf (Memory.writeRun m addr bs) = true := by
  induction bs generalizing m addr with
  | nil => exact h
  | cons b bs ih => exact ih _ _ (Memory.wf_write _ _ _ addr.isLt h)

/-- Read after write: the byte written reads back, every other byte reads as before. -/
theorem Memory.read_write (m : Memory) (a b : Nat) (v : Byte) (h : Memory.wf m = true) :
    Memory.read (Memory.write m a v) b = if b = a then v else Memory.read m b := by
  rw [Memory.wf_iff] at h
  unfold Memory.read Memory.write
  by_cases hv : v = unlistedByte
  · rw [if_pos hv, cellAt_cellDrop _ _ _ h.1]
    by_cases hb : b = a
    · rw [if_pos hb, if_pos hb]; exact hv.symm
    · rw [if_neg hb, if_neg hb]
  · rw [if_neg hv, cellAt_cellPut]
    by_cases hb : b = a
    · rw [if_pos hb, if_pos hb]; rfl
    · rw [if_neg hb, if_neg hb]

/-- Read after the write of a run of at most 2^32 bytes: byte `i` of the run stands at `addr + i` modulo 2^32, every
other address reads as before. -/
theorem Memory.read_writeRun (m : Memory) (addr : Word) (bs : List Byte) (h : Memory.wf m = true)
    (hl : bs.length ≤ 2 ^ 32) (b : Nat) (hb : b < 2 ^ 32) :
    Memory.read (Memory.writeRun m addr bs) b
      = if (BitVec.ofNat 32 b - addr).toNat < bs.length then (bs[(BitVec.ofNat 32 b - addr).toNat]?).getD 0
        else Memory.read m b := by
  induction bs generalizing m addr with
  | nil => simp [Memory.writeRun]
  | cons c cs ih =>
    simp only [List.length_cons] at hl ⊢
    rw [Memory.writeRun, ih _ _ (Memory.wf_write _ _ _ addr.isLt h) (by omega), Memory.read_write _ _ _ _ h]
    have hd : (BitVec.ofNat 32 b - addr).toNat = 0 ↔ b = addr.toNat := by
      have := addr.isLt
      rw [BitVec.toNat_sub, BitVec.toNat_ofNat]
      omega
    have hs : b ≠ addr.toNat →
        (BitVec.ofNat 32 b - addr).toNat = (BitVec.ofNat 32 b - (addr + 1)).toNat + 1 := by
      intro hne
      have := addr.isLt
      rw [BitVec.toNat_sub, BitVec.toNat_sub, BitVec.toNat_ofNat, BitVec.toNat_add,
        show (1 : Word).toNat = 1 from rfl]
      omega
    by_cases he : b = addr.toNat
    · have h0 := hd.mpr he
      have h1 : (BitVec.ofNat 32 b - (addr + 1)).toNat = 2 ^ 32 - 1 := by
        have := addr.isLt
        rw [BitVec.toNat_sub, BitVec.toNat_ofNat, BitVec.toNat_add, show (1 : Word).toNat = 1 from rfl]
        omega
      rw [h1, if_neg (by omega), if_pos he, h0, if_pos (Nat.succ_pos _)]
      rfl
    · rw [if_neg he, hs he]
      by_cases hlt : (BitVec.ofNat 32 b - (addr + 1)).toNat < cs.length
      · rw [if_pos hlt, if_pos (by omega), List.getElem?_cons_succ]
      · rw [if_neg hlt, if_neg (by omega)]

/-- Byte `i` of a run that was written. -/
theorem Memory.read_writeRun_at (m : Memory) (addr : Word) (bs : List Byte) (h : Memory.wf m = true)
    (hl : bs.length ≤ 2 ^ 32) (i : Nat) (hi : i < bs.length) :
    Memory.read (Memory.writeRun m addr bs) (addr + BitVec.ofNat 32 i).toNat = (bs[i]?).getD 0 := by
  have hd : (BitVec.ofNat 32 (addr + BitVec.ofNat 32 i).toNat - addr).toNat = i := by
    rw [BitVec.ofNat_toNat, BitVec.setWidth_eq, BitVec.add_comm, BitVec.add_sub_cancel, BitVec.toNat_ofNat]
    omega
  rw [Memory.read_writeRun _ _ _ h hl _ (BitVec.isLt _), hd, if_pos hi]

/-- An address outside a run that was written. -/
theorem Memory.read_writeRun_off (m : Memory) (addr : Word) (bs : List Byte) (h : Memory.wf m = true) (a : Nat)
    (ha : ∀ i, i < bs.length → a ≠ (addr + BitVec.ofNat 32 i).toNat) :
    Memory.read (Memory.writeRun m addr bs) a = Memory.read m a := by
  induction bs generalizing m addr with
  | nil => rfl
  | cons b bs ih =>
    rw [Memory.writeRun, ih _ _ (Memory.wf_write _ _ _ addr.isLt h), Memory.read_write _ _ _ _ h, if_neg]
    · simpa using ha 0 (by simp)
    · intro i hi
      have := ha (i + 1) (by simpa using hi)
      rwa [BitVec.add_assoc, show (1 : Word) + BitVec.ofNat 32 i = BitVec.ofNat 32 (i + 1) from by
        rw [Nat.add_comm i 1, BitVec.ofNat_add]; rfl]

/-- The canonical form is kept by writes of single bytes. -/
theorem Memory.wf_writeAll (m : Memory) (ws : List (Word × Byte)) (h : Memory.wf m = true) :
    Memory.wf (Memory.writeAll m ws) = true := by
  induction ws generalizing m with
  | nil => exact h
  | cons w ws ih => exact ih _ (Memory.wf_write _ _ _ w.1.isLt h)

/-- What an address reads as after writes of single bytes: the last of them to it, or else what it did. -/
theorem Memory.read_writeAll (m : Memory) (ws : List (Word × Byte)) (a : Nat) (h : Memory.wf m = true) :
    Memory.read (Memory.writeAll m ws) a = (lastWrite a ws).getD (Memory.read m a) := by
  induction ws generalizing m with
  | nil => rfl
  | cons w ws ih =>
    rw [Memory.writeAll, ih _ (Memory.wf_write _ _ _ w.1.isLt h), Memory.read_write _ _ _ _ h, lastWrite]
    cases lastWrite a ws with
    | some v => rfl
    | none => by_cases e : a = w.1.toNat <;> simp [e, eq_comm]

/-- An address that none of the writes is to. -/
theorem lastWrite_none {a : Nat} {ws : List (Word × Byte)} (h : ∀ w ∈ ws, w.1.toNat ≠ a) : lastWrite a ws = none := by
  induction ws with
  | nil => rfl
  | cons w ws ih =>
    rw [lastWrite, ih fun v hv => h v (.tail _ hv), if_neg (h w (.head _))]

/-- The addresses of a run of at most 2^32 bytes are distinct. -/
theorem run_inj (addr : Word) {i j : Nat} (hi : i < 2 ^ 32) (hj : j < 2 ^ 32)
    (h : addr + BitVec.ofNat 32 i = addr + BitVec.ofNat 32 j) : i = j := by
  have := congrArg BitVec.toNat (BitVec.add_right_inj addr |>.mp h)
  rw [BitVec.toNat_ofNat, BitVec.toNat_ofNat] at this
  omega

/-- Of other agents' writes to byte `i` of a store, those that come after the core's own are left. -/
theorem lastWrite_left_at (d : Meanwhile) (addr : Word) (n i : Nat) (hi : i < n) (hn : n ≤ 2 ^ 32) (k : Nat)
    (ws : List (Word × Byte)) :
    lastWrite (addr + BitVec.ofNat 32 i).toNat (d.left addr n k ws)
      = lastWrite (addr + BitVec.ofNat 32 i).toNat (ws.drop (d.beforeByte i - k)) := by
  induction ws generalizing k with
  | nil => simp [Meanwhile.left]
  | cons w ws ih =>
    have ho : w.1 = addr + BitVec.ofNat 32 i → (d.overwrites addr n k w.1 = true ↔ k < d.beforeByte i) := by
      intro e
      simp only [Meanwhile.overwrites, e, List.any_eq_true, List.mem_range, Bool.and_eq_true, decide_eq_true_eq]
      constructor
      · rintro ⟨j, hj, h1, h2⟩
        rwa [run_inj addr (by omega) (by omega) h1]
      · exact fun h => ⟨i, hi, rfl, h⟩
    have hd : d.beforeByte i - (k + 1) = d.beforeByte i - k - 1 := by omega
    rw [Meanwhile.left]
    by_cases hlt : k < d.beforeByte i
    · have hdrop : (w :: ws).drop (d.beforeByte i - k) = ws.drop (d.beforeByte i - (k + 1)) := by
        rw [hd, show d.beforeByte i - k = d.beforeByte i - k - 1 + 1 by omega, List.drop_succ_cons]
        rfl
      rw [hdrop]
      by_cases e : w.1 = addr + BitVec.ofNat 32 i
      · rw [if_pos ((ho e).mpr hlt), ih]
      · have e' : w.1.toNat ≠ (addr + BitVec.ofNat 32 i).toNat := fun h => e (BitVec.eq_of_toNat_eq h)
        split
        · exact ih _
        · rw [lastWrite, ih, if_neg e']
          cases lastWrite (addr + BitVec.ofNat 32 i).toNat (ws.drop (d.beforeByte i - (k + 1))) <;> rfl
    · have h0 : d.beforeByte i - k = 0 := by omega
      have h1 : d.beforeByte i - (k + 1) = 0 := by omega
      have hi' := ih (k + 1)
      rw [h1, List.drop_zero] at hi'
      rw [h0, List.drop_zero]
      by_cases e : w.1 = addr + BitVec.ofNat 32 i
      · rw [if_neg (mt (ho e).mp hlt), lastWrite, lastWrite, hi']
      · have e' : w.1.toNat ≠ (addr + BitVec.ofNat 32 i).toNat := fun h => e (BitVec.eq_of_toNat_eq h)
        split
        · rw [hi', lastWrite, if_neg e']
          cases lastWrite (addr + BitVec.ofNat 32 i).toNat ws <;> rfl
        · rw [lastWrite, lastWrite, hi']

/-- Other agents' writes outside a store are left as they are. -/
theorem lastWrite_left_off (d : Meanwhile) (addr : Word) (n a : Nat)
    (ha : ∀ i, i < n → a ≠ (addr + BitVec.ofNat 32 i).toNat) (k : Nat) (ws : List (Word × Byte)) :
    lastWrite a (d.left addr n k ws) = lastWrite a ws := by
  induction ws generalizing k with
  | nil => rfl
  | cons w ws ih =>
    rw [Meanwhile.left]
    split
    · next ho =>
      simp only [Meanwhile.overwrites, List.any_eq_true, List.mem_range, Bool.and_eq_true, decide_eq_true_eq] at ho
      obtain ⟨i, hi, e, -⟩ := ho
      rw [ih, lastWrite, if_neg fun h => ha i hi (by rw [← h, e])]
      cases lastWrite a ws <;> rfl
    · rw [lastWrite, lastWrite, ih]

/-- The writes that are left are among those there were. -/
theorem mem_left {d : Meanwhile} {addr : Word} {n k : Nat} {ws : List (Word × Byte)} {w : Word × Byte}
    (h : w ∈ d.left addr n k ws) : w ∈ ws := by
  induction ws generalizing k with
  | nil => exact h
  | cons v ws ih =>
    rw [Meanwhile.left] at h
    split at h
    · exact .tail _ (ih h)
    · rcases List.mem_cons.mp h with rfl | h
      · exact .head _
      · exact .tail _ (ih h)

/-! Instruction memory. -/

theorem InstrMemory.wf_iff (m : InstrMemory) :
    InstrMemory.wf m = true ↔ risingFrom 0 m = true ∧ (m.all fun c => decide (c.1 < 2 ^ 16)) = true := by
  simp only [InstrMemory.wf, Bool.and_eq_true]

theorem InstrMemory.wf_replace (m : InstrMemory) (a : InstrAddr) (sl : Option Slot) (h : InstrMemory.wf m = true) :
    InstrMemory.wf (InstrMemory.replace m a sl) = true := by
  rw [InstrMemory.wf_iff] at h ⊢
  cases sl with
  | none => exact ⟨risingFrom_cellDrop _ _ h.1, all_cellDrop _ _ _ h.2⟩
  | some v =>
    exact ⟨risingFrom_cellPut _ _ _ (Nat.zero_le _) h.1, all_cellPut _ _ _ _ (by simpa using a.isLt) h.2⟩

/-- A fetch after a replacement. -/
theorem InstrMemory.fetch_replace (m : InstrMemory) (a b : InstrAddr) (sl : Option Slot)
    (h : InstrMemory.wf m = true) :
    InstrMemory.fetch (InstrMemory.replace m a sl) b = if b = a then sl else InstrMemory.fetch m b := by
  rw [InstrMemory.wf_iff] at h
  have hab : b.toNat = a.toNat ↔ b = a := ⟨BitVec.eq_of_toNat_eq, congrArg _⟩
  cases sl with
  | none => simp only [InstrMemory.fetch, InstrMemory.replace, cellAt_cellDrop _ _ _ h.1, hab]
  | some v => simp only [InstrMemory.fetch, InstrMemory.replace, cellAt_cellPut, hab]

end Sys2Proof.Machine
end

