-- ==== Sys2Proof/Laws/State.lean ====
section
/-! SUPPORT. One lemma per field per update of State: what each named update does to each field. -/

namespace Sys2Proof.Machine

section
variable (s : State) (r : Vector Word 31)
@[simp] theorem State.withRegs_regs : (s.withRegs r).regs = r := rfl
@[simp] theorem State.withRegs_carry : (s.withRegs r).carry = s.carry := rfl
@[simp] theorem State.withRegs_pc : (s.withRegs r).pc = s.pc := rfl
@[simp] theorem State.withRegs_pcOut : (s.withRegs r).pcOut = s.pcOut := rfl
@[simp] theorem State.withRegs_loopCounter : (s.withRegs r).loopCounter = s.loopCounter := rfl
@[simp] theorem State.withRegs_loopTop : (s.withRegs r).loopTop = s.loopTop := rfl
@[simp] theorem State.withRegs_loopEnd : (s.withRegs r).loopEnd = s.loopEnd := rfl
@[simp] theorem State.withRegs_run : (s.withRegs r).run = s.run := rfl
@[simp] theorem State.withRegs_dmem : (s.withRegs r).dmem = s.dmem := rfl
@[simp] theorem State.withRegs_imem : (s.withRegs r).imem = s.imem := rfl
@[simp] theorem State.withRegs_params : (s.withRegs r).params = s.params := rfl
@[simp] theorem State.withRegs_host : (s.withRegs r).host = s.host := rfl
@[simp] theorem State.withRegs_history : (s.withRegs r).history = s.history := rfl
@[simp] theorem State.withRegs_moment : (s.withRegs r).moment = s.moment := rfl
@[simp] theorem State.withRegs_meanwhile : (s.withRegs r).meanwhile = s.meanwhile := rfl
end

section
variable (s : State) (c : Bool)
@[simp] theorem State.withCarry_regs : (s.withCarry c).regs = s.regs := rfl
@[simp] theorem State.withCarry_carry : (s.withCarry c).carry = c := rfl
@[simp] theorem State.withCarry_pc : (s.withCarry c).pc = s.pc := rfl
@[simp] theorem State.withCarry_pcOut : (s.withCarry c).pcOut = s.pcOut := rfl
@[simp] theorem State.withCarry_loopCounter : (s.withCarry c).loopCounter = s.loopCounter := rfl
@[simp] theorem State.withCarry_loopTop : (s.withCarry c).loopTop = s.loopTop := rfl
@[simp] theorem State.withCarry_loopEnd : (s.withCarry c).loopEnd = s.loopEnd := rfl
@[simp] theorem State.withCarry_run : (s.withCarry c).run = s.run := rfl
@[simp] theorem State.withCarry_dmem : (s.withCarry c).dmem = s.dmem := rfl
@[simp] theorem State.withCarry_imem : (s.withCarry c).imem = s.imem := rfl
@[simp] theorem State.withCarry_params : (s.withCarry c).params = s.params := rfl
@[simp] theorem State.withCarry_host : (s.withCarry c).host = s.host := rfl
@[simp] theorem State.withCarry_history : (s.withCarry c).history = s.history := rfl
@[simp] theorem State.withCarry_moment : (s.withCarry c).moment = s.moment := rfl
@[simp] theorem State.withCarry_meanwhile : (s.withCarry c).meanwhile = s.meanwhile := rfl
end

section
variable (s : State) (a : InstrAddr) (o : Bool)
@[simp] theorem State.withPc_regs : (s.withPc a o).regs = s.regs := rfl
@[simp] theorem State.withPc_carry : (s.withPc a o).carry = s.carry := rfl
@[simp] theorem State.withPc_pc : (s.withPc a o).pc = a := rfl
@[simp] theorem State.withPc_pcOut : (s.withPc a o).pcOut = o := rfl
@[simp] theorem State.withPc_loopCounter : (s.withPc a o).loopCounter = s.loopCounter := rfl
@[simp] theorem State.withPc_loopTop : (s.withPc a o).loopTop = s.loopTop := rfl
@[simp] theorem State.withPc_loopEnd : (s.withPc a o).loopEnd = s.loopEnd := rfl
@[simp] theorem State.withPc_run : (s.withPc a o).run = s.run := rfl
@[simp] theorem State.withPc_dmem : (s.withPc a o).dmem = s.dmem := rfl
@[simp] theorem State.withPc_imem : (s.withPc a o).imem = s.imem := rfl
@[simp] theorem State.withPc_params : (s.withPc a o).params = s.params := rfl
@[simp] theorem State.withPc_host : (s.withPc a o).host = s.host := rfl
@[simp] theorem State.withPc_history : (s.withPc a o).history = s.history := rfl
@[simp] theorem State.withPc_moment : (s.withPc a o).moment = s.moment := rfl
@[simp] theorem State.withPc_meanwhile : (s.withPc a o).meanwhile = s.meanwhile := rfl
end

section
variable (s : State) (n : BitVec 16)
@[simp] theorem State.withCounter_regs : (s.withCounter n).regs = s.regs := rfl
@[simp] theorem State.withCounter_carry : (s.withCounter n).carry = s.carry := rfl
@[simp] theorem State.withCounter_pc : (s.withCounter n).pc = s.pc := rfl
@[simp] theorem State.withCounter_pcOut : (s.withCounter n).pcOut = s.pcOut := rfl
@[simp] theorem State.withCounter_loopCounter : (s.withCounter n).loopCounter = n := rfl
@[simp] theorem State.withCounter_loopTop : (s.withCounter n).loopTop = s.loopTop := rfl
@[simp] theorem State.withCounter_loopEnd : (s.withCounter n).loopEnd = s.loopEnd := rfl
@[simp] theorem State.withCounter_run : (s.withCounter n).run = s.run := rfl
@[simp] theorem State.withCounter_dmem : (s.withCounter n).dmem = s.dmem := rfl
@[simp] theorem State.withCounter_imem : (s.withCounter n).imem = s.imem := rfl
@[simp] theorem State.withCounter_params : (s.withCounter n).params = s.params := rfl
@[simp] theorem State.withCounter_host : (s.withCounter n).host = s.host := rfl
@[simp] theorem State.withCounter_history : (s.withCounter n).history = s.history := rfl
@[simp] theorem State.withCounter_moment : (s.withCounter n).moment = s.moment := rfl
@[simp] theorem State.withCounter_meanwhile : (s.withCounter n).meanwhile = s.meanwhile := rfl
end

section
variable (s : State) (n : BitVec 16) (a b : InstrAddr)
@[simp] theorem State.withLoop_regs : (s.withLoop n a b).regs = s.regs := rfl
@[simp] theorem State.withLoop_carry : (s.withLoop n a b).carry = s.carry := rfl
@[simp] theorem State.withLoop_pc : (s.withLoop n a b).pc = s.pc := rfl
@[simp] theorem State.withLoop_pcOut : (s.withLoop n a b).pcOut = s.pcOut := rfl
@[simp] theorem State.withLoop_loopCounter : (s.withLoop n a b).loopCounter = n := rfl
@[simp] theorem State.withLoop_loopTop : (s.withLoop n a b).loopTop = a := rfl
@[simp] theorem State.withLoop_loopEnd : (s.withLoop n a b).loopEnd = b := rfl
@[simp] theorem State.withLoop_run : (s.withLoop n a b).run = s.run := rfl
@[simp] theorem State.withLoop_dmem : (s.withLoop n a b).dmem = s.dmem := rfl
@[simp] theorem State.withLoop_imem : (s.withLoop n a b).imem = s.imem := rfl
@[simp] theorem State.withLoop_params : (s.withLoop n a b).params = s.params := rfl
@[simp] theorem State.withLoop_host : (s.withLoop n a b).host = s.host := rfl
@[simp] theorem State.withLoop_history : (s.withLoop n a b).history = s.history := rfl
@[simp] theorem State.withLoop_moment : (s.withLoop n a b).moment = s.moment := rfl
@[simp] theorem State.withLoop_meanwhile : (s.withLoop n a b).meanwhile = s.meanwhile := rfl
end

section
variable (s : State) (r : RunState)
@[simp] theorem State.withRun_regs : (s.withRun r).regs = s.regs := rfl
@[simp] theorem State.withRun_carry : (s.withRun r).carry = s.carry := rfl
@[simp] theorem State.withRun_pc : (s.withRun r).pc = s.pc := rfl
@[simp] theorem State.withRun_pcOut : (s.withRun r).pcOut = s.pcOut := rfl
@[simp] theorem State.withRun_loopCounter : (s.withRun r).loopCounter = s.loopCounter := rfl
@[simp] theorem State.withRun_loopTop : (s.withRun r).loopTop = s.loopTop := rfl
@[simp] theorem State.withRun_loopEnd : (s.withRun r).loopEnd = s.loopEnd := rfl
@[simp] theorem State.withRun_run : (s.withRun r).run = r := rfl
@[simp] theorem State.withRun_dmem : (s.withRun r).dmem = s.dmem := rfl
@[simp] theorem State.withRun_imem : (s.withRun r).imem = s.imem := rfl
@[simp] theorem State.withRun_params : (s.withRun r).params = s.params := rfl
@[simp] theorem State.withRun_host : (s.withRun r).host = s.host := rfl
@[simp] theorem State.withRun_history : (s.withRun r).history = s.history := rfl
@[simp] theorem State.withRun_moment : (s.withRun r).moment = s.moment := rfl
@[simp] theorem State.withRun_meanwhile : (s.withRun r).meanwhile = s.meanwhile := rfl
end

section
variable (s : State) (m : Memory)
@[simp] theorem State.withDmem_regs : (s.withDmem m).regs = s.regs := rfl
@[simp] theorem State.withDmem_carry : (s.withDmem m).carry = s.carry := rfl
@[simp] theorem State.withDmem_pc : (s.withDmem m).pc = s.pc := rfl
@[simp] theorem State.withDmem_pcOut : (s.withDmem m).pcOut = s.pcOut := rfl
@[simp] theorem State.withDmem_loopCounter : (s.withDmem m).loopCounter = s.loopCounter := rfl
@[simp] theorem State.withDmem_loopTop : (s.withDmem m).loopTop = s.loopTop := rfl
@[simp] theorem State.withDmem_loopEnd : (s.withDmem m).loopEnd = s.loopEnd := rfl
@[simp] theorem State.withDmem_run : (s.withDmem m).run = s.run := rfl
@[simp] theorem State.withDmem_dmem : (s.withDmem m).dmem = m := rfl
@[simp] theorem State.withDmem_imem : (s.withDmem m).imem = s.imem := rfl
@[simp] theorem State.withDmem_params : (s.withDmem m).params = s.params := rfl
@[simp] theorem State.withDmem_host : (s.withDmem m).host = s.host := rfl
@[simp] theorem State.withDmem_history : (s.withDmem m).history = s.history := rfl
@[simp] theorem State.withDmem_moment : (s.withDmem m).moment = s.moment := rfl
@[simp] theorem State.withDmem_meanwhile : (s.withDmem m).meanwhile = s.meanwhile := rfl
end

section
variable (s : State) (m : InstrMemory)
@[simp] theorem State.withImem_regs : (s.withImem m).regs = s.regs := rfl
@[simp] theorem State.withImem_carry : (s.withImem m).carry = s.carry := rfl
@[simp] theorem State.withImem_pc : (s.withImem m).pc = s.pc := rfl
@[simp] theorem State.withImem_pcOut : (s.withImem m).pcOut = s.pcOut := rfl
@[simp] theorem State.withImem_loopCounter : (s.withImem m).loopCounter = s.loopCounter := rfl
@[simp] theorem State.withImem_loopTop : (s.withImem m).loopTop = s.loopTop := rfl
@[simp] theorem State.withImem_loopEnd : (s.withImem m).loopEnd = s.loopEnd := rfl
@[simp] theorem State.withImem_run : (s.withImem m).run = s.run := rfl
@[simp] theorem State.withImem_dmem : (s.withImem m).dmem = s.dmem := rfl
@[simp] theorem State.withImem_imem : (s.withImem m).imem = m := rfl
@[simp] theorem State.withImem_params : (s.withImem m).params = s.params := rfl
@[simp] theorem State.withImem_host : (s.withImem m).host = s.host := rfl
@[simp] theorem State.withImem_history : (s.withImem m).history = s.history := rfl
@[simp] theorem State.withImem_moment : (s.withImem m).moment = s.moment := rfl
@[simp] theorem State.withImem_meanwhile : (s.withImem m).meanwhile = s.meanwhile := rfl
end

section
variable (s : State) (h : List HostMove)
@[simp] theorem State.withHost_regs : (s.withHost h).regs = s.regs := rfl
@[simp] theorem State.withHost_carry : (s.withHost h).carry = s.carry := rfl
@[simp] theorem State.withHost_pc : (s.withHost h).pc = s.pc := rfl
@[simp] theorem State.withHost_pcOut : (s.withHost h).pcOut = s.pcOut := rfl
@[simp] theorem State.withHost_loopCounter : (s.withHost h).loopCounter = s.loopCounter := rfl
@[simp] theorem State.withHost_loopTop : (s.withHost h).loopTop = s.loopTop := rfl
@[simp] theorem State.withHost_loopEnd : (s.withHost h).loopEnd = s.loopEnd := rfl
@[simp] theorem State.withHost_run : (s.withHost h).run = s.run := rfl
@[simp] theorem State.withHost_dmem : (s.withHost h).dmem = s.dmem := rfl
@[simp] theorem State.withHost_imem : (s.withHost h).imem = s.imem := rfl
@[simp] theorem State.withHost_params : (s.withHost h).params = s.params := rfl
@[simp] theorem State.withHost_host : (s.withHost h).host = h := rfl
@[simp] theorem State.withHost_history : (s.withHost h).history = s.history := rfl
@[simp] theorem State.withHost_moment : (s.withHost h).moment = s.moment := rfl
@[simp] theorem State.withHost_meanwhile : (s.withHost h).meanwhile = s.meanwhile := rfl
end

section
variable (s : State) (n : Nat)
@[simp] theorem State.withMoment_regs : (s.withMoment n).regs = s.regs := rfl
@[simp] theorem State.withMoment_carry : (s.withMoment n).carry = s.carry := rfl
@[simp] theorem State.withMoment_pc : (s.withMoment n).pc = s.pc := rfl
@[simp] theorem State.withMoment_pcOut : (s.withMoment n).pcOut = s.pcOut := rfl
@[simp] theorem State.withMoment_loopCounter : (s.withMoment n).loopCounter = s.loopCounter := rfl
@[simp] theorem State.withMoment_loopTop : (s.withMoment n).loopTop = s.loopTop := rfl
@[simp] theorem State.withMoment_loopEnd : (s.withMoment n).loopEnd = s.loopEnd := rfl
@[simp] theorem State.withMoment_run : (s.withMoment n).run = s.run := rfl
@[simp] theorem State.withMoment_dmem : (s.withMoment n).dmem = s.dmem := rfl
@[simp] theorem State.withMoment_imem : (s.withMoment n).imem = s.imem := rfl
@[simp] theorem State.withMoment_params : (s.withMoment n).params = s.params := rfl
@[simp] theorem State.withMoment_host : (s.withMoment n).host = s.host := rfl
@[simp] theorem State.withMoment_history : (s.withMoment n).history = s.history := rfl
@[simp] theorem State.withMoment_moment : (s.withMoment n).moment = n := rfl
@[simp] theorem State.withMoment_meanwhile : (s.withMoment n).meanwhile = s.meanwhile := rfl
end

section
variable (s : State) (d : Meanwhile)
@[simp] theorem State.withMeanwhile_regs : (s.withMeanwhile d).regs = s.regs := rfl
@[simp] theorem State.withMeanwhile_carry : (s.withMeanwhile d).carry = s.carry := rfl
@[simp] theorem State.withMeanwhile_pc : (s.withMeanwhile d).pc = s.pc := rfl
@[simp] theorem State.withMeanwhile_pcOut : (s.withMeanwhile d).pcOut = s.pcOut := rfl
@[simp] theorem State.withMeanwhile_loopCounter : (s.withMeanwhile d).loopCounter = s.loopCounter := rfl
@[simp] theorem State.withMeanwhile_loopTop : (s.withMeanwhile d).loopTop = s.loopTop := rfl
@[simp] theorem State.withMeanwhile_loopEnd : (s.withMeanwhile d).loopEnd = s.loopEnd := rfl
@[simp] theorem State.withMeanwhile_run : (s.withMeanwhile d).run = s.run := rfl
@[simp] theorem State.withMeanwhile_dmem : (s.withMeanwhile d).dmem = s.dmem := rfl
@[simp] theorem State.withMeanwhile_imem : (s.withMeanwhile d).imem = s.imem := rfl
@[simp] theorem State.withMeanwhile_params : (s.withMeanwhile d).params = s.params := rfl
@[simp] theorem State.withMeanwhile_host : (s.withMeanwhile d).host = s.host := rfl
@[simp] theorem State.withMeanwhile_history : (s.withMeanwhile d).history = s.history := rfl
@[simp] theorem State.withMeanwhile_moment : (s.withMeanwhile d).moment = s.moment := rfl
@[simp] theorem State.withMeanwhile_meanwhile : (s.withMeanwhile d).meanwhile = d := rfl
end

section
variable (s : State) (es : List Config.Event)
@[simp] theorem State.emit_regs : (s.emit es).regs = s.regs := rfl
@[simp] theorem State.emit_carry : (s.emit es).carry = s.carry := rfl
@[simp] theorem State.emit_pc : (s.emit es).pc = s.pc := rfl
@[simp] theorem State.emit_pcOut : (s.emit es).pcOut = s.pcOut := rfl
@[simp] theorem State.emit_loopCounter : (s.emit es).loopCounter = s.loopCounter := rfl
@[simp] theorem State.emit_loopTop : (s.emit es).loopTop = s.loopTop := rfl
@[simp] theorem State.emit_loopEnd : (s.emit es).loopEnd = s.loopEnd := rfl
@[simp] theorem State.emit_run : (s.emit es).run = s.run := rfl
@[simp] theorem State.emit_dmem : (s.emit es).dmem = s.dmem := rfl
@[simp] theorem State.emit_imem : (s.emit es).imem = s.imem := rfl
@[simp] theorem State.emit_params : (s.emit es).params = s.params := rfl
@[simp] theorem State.emit_host : (s.emit es).host = s.host := rfl
@[simp] theorem State.emit_history : (s.emit es).history = s.history ++ es := rfl
@[simp] theorem State.emit_moment : (s.emit es).moment = s.moment := rfl
@[simp] theorem State.emit_meanwhile : (s.emit es).meanwhile = s.meanwhile := rfl
end

end Sys2Proof.Machine
end

