-- ==== Sys2Proof/Laws/Registers.lean ====
section
/-! SUPPORT. The register file: what reading and writing words, bytes and fields do (10_state.md R20 to R25, R31, R32). -/

namespace Sys2Proof.Machine

/-! Parts of a word. -/

theorem mask_getLsbD (w i : Nat) :
    (BitVec.ofNat 32 (2 ^ w - 1)).getLsbD i = (decide (i < 32) && decide (i < w)) := by
  rw [BitVec.getLsbD_ofNat, Nat.testBit_two_pow_sub_one]

@[simp] theorem lowBits_getLsbD (w : Nat) (v : Word) (i : Nat) :
    (lowBits w v).getLsbD i = (decide (i < w) && v.getLsbD i) := by
  rw [lowBits, BitVec.getLsbD_and, mask_getLsbD]
  by_cases h : i < 32
  · simp only [h, decide_true, Bool.true_and, Bool.and_comm]
  · rw [BitVec.getLsbD_of_ge v i (show 32 ≤ i by omega), Bool.false_and, Bool.and_false]

@[simp] theorem extractBits_getLsbD (x : Word) (lo w i : Nat) :
    (extractBits x lo w).getLsbD i = (decide (i < w) && x.getLsbD (lo + i)) := by
  rw [extractBits, lowBits_getLsbD, BitVec.getLsbD_ushiftRight]

theorem insertBits_getLsbD (x : Word) (lo w : Nat) (v : Word) (i : Nat) :
    (insertBits x lo w v).getLsbD i
      = if i < 32 ∧ lo ≤ i ∧ i < lo + w then v.getLsbD (i - lo) else x.getLsbD i := by
  rw [insertBits, BitVec.getLsbD_or, BitVec.getLsbD_and, BitVec.getLsbD_not, BitVec.getLsbD_shiftLeft,
    BitVec.getLsbD_shiftLeft, mask_getLsbD, lowBits_getLsbD]
  by_cases h : i < 32
  · by_cases h1 : lo ≤ i
    · have h4 : i - lo < 32 := by omega
      by_cases h2 : i < lo + w
      · have h3 : i - lo < w := by omega
        simp [h, h1, h2, h3, h4, show ¬ i < lo by omega]
      · have h3 : ¬ i - lo < w := by omega
        simp [h, h2, h3]
    · have h5 : i < lo := by omega
      simp [h, h1, h5]
  · rw [BitVec.getLsbD_of_ge x i (show 32 ≤ i by omega)]
    simp [h]

/-- Byte `k` of a word. -/
def byteOf (x : Word) (k : Nat) : Byte := (x >>> (8 * k)).setWidth 8

theorem byteOf_insertBits (x : Word) (j k : Nat) (b : Byte) (hj : j < 4) (hk : k < 4) :
    byteOf (insertBits x (8 * j) 8 (b.setWidth 32)) k = if k = j then b else byteOf x k := by
  apply BitVec.eq_of_getLsbD_eq
  intro i hi
  by_cases h : k = j
  · subst h
    rw [byteOf, BitVec.getLsbD_setWidth, BitVec.getLsbD_ushiftRight, insertBits_getLsbD, if_pos (by omega),
      BitVec.getLsbD_setWidth, if_pos rfl, show 8 * k + i - 8 * k = i by omega]
    simp [hi, show i < 32 by omega]
  · have : ¬ (8 * k + i < 32 ∧ 8 * j ≤ 8 * k + i ∧ 8 * k + i < 8 * j + 8) := by omega
    rw [if_neg h, byteOf, byteOf, BitVec.getLsbD_setWidth, BitVec.getLsbD_setWidth, BitVec.getLsbD_ushiftRight,
      BitVec.getLsbD_ushiftRight, insertBits_getLsbD, if_neg this]

/-! The stored registers as bytes. -/

/-- Byte `k` of the stored registers. -/
def regsByte (regs : Vector Word 31) (k : Nat) : Byte := byteOf ((regs[k / 4]?).getD 0) (k % 4)

theorem rf_eq_regsByte (s : State) {k : Nat} (hk : k < 124) : s.rf k = regsByte s.regs k := by
  have : k / 4 ≠ 31 := by omega
  simp [State.rf, State.x, regsByte, byteOf, this]

theorem regsByte_putByte (regs : Vector Word 31) (o : Nat) (b : Byte) (k : Nat) (ho : o < 124) :
    regsByte (putByte regs o b) k = if k = o then b else regsByte regs k := by
  unfold regsByte putByte
  rw [Vector.getElem?_setIfInBounds]
  by_cases h : o / 4 = k / 4
  · have h31 : o / 4 < 31 := by omega
    simp only [h, if_true]
    rw [if_pos (by omega)]
    simp only [Option.getD_some]
    rw [byteOf_insertBits _ _ _ _ (by omega) (by omega)]
    by_cases h2 : k = o
    · simp [h2]
    · rw [if_neg h2, if_neg (by omega)]
  · simp only [h, if_false]
    rw [if_neg (by omega)]

theorem regsByte_putBytes (regs : Vector Word 31) (o : Nat) (bs : List Byte) (k : Nat)
    (ho : o + bs.length ≤ 124) :
    regsByte (putBytes regs o bs) k
      = if o ≤ k ∧ k < o + bs.length then (bs[k - o]?).getD 0 else regsByte regs k := by
  induction bs generalizing regs o with
  | nil =>
    rw [putBytes, if_neg (by simp only [List.length_nil]; omega)]
  | cons b bs ih =>
    simp only [List.length_cons] at ho ⊢
    rw [putBytes, ih _ _ (by omega), regsByte_putByte _ _ _ _ (by omega)]
    by_cases h1 : k = o
    · subst h1
      simp
    · by_cases h2 : o + 1 ≤ k ∧ k < o + 1 + bs.length
      · have h3 : k - o = (k - (o + 1)) + 1 := by omega
        rw [if_pos h2, if_pos (by omega), h3, List.getElem?_cons_succ]
      · rw [if_neg h2, if_neg h1, if_neg (by omega)]

theorem word_ext_bytes {x y : Word} (h : ∀ k, k < 4 → byteOf x k = byteOf y k) : x = y := by
  apply BitVec.eq_of_getLsbD_eq
  intro i hi
  have := congrArg (fun b => b.getLsbD (i % 8)) (h (i / 8) (by omega))
  simpa [byteOf, Nat.mod_lt, Nat.div_add_mod] using this

/-- Registers that agree in every byte are equal. -/
theorem regs_ext_bytes {r r' : Vector Word 31} (h : ∀ k, k < 124 → regsByte r k = regsByte r' k) : r = r' := by
  apply Vector.ext
  intro i hi
  apply word_ext_bytes
  intro k hk
  have := h (4 * i + k) (by omega)
  have h1 : (4 * i + k) / 4 = i := by omega
  have h2 : (4 * i + k) % 4 = k := by omega
  simpa [regsByte, h1, h2, hi] using this

/-! Writing a run of bytes. -/

@[simp] theorem State.rfPut_carry (s : State) (o : Nat) (bs : List Byte) : (s.rfPut o bs).carry = s.carry := rfl
@[simp] theorem State.rfPut_pc (s : State) (o : Nat) (bs : List Byte) : (s.rfPut o bs).pc = s.pc := rfl
@[simp] theorem State.rfPut_pcOut (s : State) (o : Nat) (bs : List Byte) : (s.rfPut o bs).pcOut = s.pcOut := rfl
@[simp] theorem State.rfPut_loopCounter (s : State) (o : Nat) (bs : List Byte) :
    (s.rfPut o bs).loopCounter = s.loopCounter := rfl
@[simp] theorem State.rfPut_loopTop (s : State) (o : Nat) (bs : List Byte) : (s.rfPut o bs).loopTop = s.loopTop := rfl
@[simp] theorem State.rfPut_loopEnd (s : State) (o : Nat) (bs : List Byte) : (s.rfPut o bs).loopEnd = s.loopEnd := rfl
@[simp] theorem State.rfPut_run (s : State) (o : Nat) (bs : List Byte) : (s.rfPut o bs).run = s.run := rfl
@[simp] theorem State.rfPut_dmem (s : State) (o : Nat) (bs : List Byte) : (s.rfPut o bs).dmem = s.dmem := rfl
@[simp] theorem State.rfPut_imem (s : State) (o : Nat) (bs : List Byte) : (s.rfPut o bs).imem = s.imem := rfl
@[simp] theorem State.rfPut_params (s : State) (o : Nat) (bs : List Byte) : (s.rfPut o bs).params = s.params := rfl
@[simp] theorem State.rfPut_host (s : State) (o : Nat) (bs : List Byte) : (s.rfPut o bs).host = s.host := rfl
@[simp] theorem State.rfPut_moment (s : State) (o : Nat) (bs : List Byte) : (s.rfPut o bs).moment = s.moment := rfl
@[simp] theorem State.rfPut_meanwhile (s : State) (o : Nat) (bs : List Byte) : (s.rfPut o bs).meanwhile = s.meanwhile := rfl

theorem x_30 (s : State) : s.x 30 = (s.regs[30]?).getD 0 := rfl

/-- All that `rfPut` does to the register file and the history. -/
theorem rfPut_wrote (s : State) (o : Nat) (bs : List Byte) (h : o + bs.length ≤ 124) :
    WroteRange s (s.rfPut o bs) o bs.length (fun i => (bs[i]?).getD 0) [] := by
  refine ⟨fun k hk => ?_, ?_⟩
  · rw [rf_eq_regsByte _ hk, rf_eq_regsByte _ hk]
    exact regsByte_putBytes _ _ _ _ h
  · simp [State.rfPut, r30Event, r30Seen, x_30]

/-! Register fields. -/

/-- Every field of R0 to R30 lies in bytes 0 to 123, and its bits are whole bytes (R22). -/
theorem field_shape (f : Field) (h : f.reg ≠ 31) :
    Field.off f + Field.width f / 8 ≤ 124 ∧ Field.off f / 4 = f.reg ∧ Field.off f % 4 * 8 = selLow f.sel
      ∧ Field.width f / 8 * 8 = Field.width f ∧ selLow f.sel + Field.width f ≤ 32 := by
  obtain ⟨⟨n, hn⟩, sel⟩ := f
  have : n ≠ 31 := fun e => h (by simp [e])
  cases sel <;> simp [Field.off, Field.width, selLow, selWidth] <;> omega

theorem toBytes_length (n : Nat) (v : Word) : (toBytes n v).length = n := by simp [toBytes]

theorem toBytes_getD (n : Nat) (v : Word) (i : Nat) (h : i < n) :
    ((toBytes n v)[i]?).getD 0 = byteOf v i := by simp [toBytes, h, byteOf]

theorem byteOf_toNat (v : Word) (i : Nat) : byteOf v i = BitVec.ofNat 8 (v.toNat / 256 ^ i) := by
  apply BitVec.eq_of_toNat_eq
  simp only [byteOf, BitVec.toNat_setWidth, BitVec.toNat_ushiftRight, BitVec.toNat_ofNat, Nat.shiftRight_eq_div_pow]
  rw [show (256 : Nat) = 2 ^ 8 by norm_num, ← pow_mul]

theorem lowBits_eq_ofNat (w : Nat) (v : Word) : lowBits w v = BitVec.ofNat 32 (v.toNat % 2 ^ w) := by
  apply BitVec.eq_of_getLsbD_eq
  intro i hi
  rw [lowBits_getLsbD, BitVec.getLsbD_ofNat, Nat.testBit_mod_two_pow]
  simp [hi, BitVec.testBit_toNat]

@[simp] theorem State.wr_carry (s : State) (f : Field) (v : Word) : (s.wr f v).carry = s.carry := by
  unfold State.wr; split <;> rfl
@[simp] theorem State.wr_pc (s : State) (f : Field) (v : Word) : (s.wr f v).pc = s.pc := by
  unfold State.wr; split <;> rfl
@[simp] theorem State.wr_pcOut (s : State) (f : Field) (v : Word) : (s.wr f v).pcOut = s.pcOut := by
  unfold State.wr; split <;> rfl
@[simp] theorem State.wr_loopCounter (s : State) (f : Field) (v : Word) : (s.wr f v).loopCounter = s.loopCounter := by
  unfold State.wr; split <;> rfl
@[simp] theorem State.wr_loopTop (s : State) (f : Field) (v : Word) : (s.wr f v).loopTop = s.loopTop := by
  unfold State.wr; split <;> rfl
@[simp] theorem State.wr_loopEnd (s : State) (f : Field) (v : Word) : (s.wr f v).loopEnd = s.loopEnd := by
  unfold State.wr; split <;> rfl
@[simp] theorem State.wr_run (s : State) (f : Field) (v : Word) : (s.wr f v).run = s.run := by
  unfold State.wr; split <;> rfl
@[simp] theorem State.wr_dmem (s : State) (f : Field) (v : Word) : (s.wr f v).dmem = s.dmem := by
  unfold State.wr; split <;> rfl
@[simp] theorem State.wr_imem (s : State) (f : Field) (v : Word) : (s.wr f v).imem = s.imem := by
  unfold State.wr; split <;> rfl
@[simp] theorem State.wr_params (s : State) (f : Field) (v : Word) : (s.wr f v).params = s.params := by
  unfold State.wr; split <;> rfl
@[simp] theorem State.wr_host (s : State) (f : Field) (v : Word) : (s.wr f v).host = s.host := by
  unfold State.wr; split <;> rfl
@[simp] theorem State.wr_moment (s : State) (f : Field) (v : Word) : (s.wr f v).moment = s.moment := by
  unfold State.wr; split <;> rfl
@[simp] theorem State.wr_meanwhile (s : State) (f : Field) (v : Word) : (s.wr f v).meanwhile = s.meanwhile := by
  unfold State.wr; split <;> rfl

/-- All that `wr` does to the register file and the history (R24, R31, R32). -/
theorem wr_wrote (s : State) (f : Field) (v : Word) : WroteField s (s.wr f v) f v.toNat := by
  unfold WroteField
  by_cases h : f.reg = 31
  · rw [if_pos h]
    refine ⟨fun k hk => ?_, ?_⟩
    · rw [rf_eq_regsByte _ hk, rf_eq_regsByte _ hk]
      simp [State.wr, h]
    · simp [State.wr, h, lowBits_eq_ofNat]
  · rw [if_neg h]
    obtain ⟨hle, -, -, -, -⟩ := field_shape f h
    have hw := rfPut_wrote s (Field.off f) (toBytes (Field.width f / 8) v) (by rw [toBytes_length]; exact hle)
    have he : s.wr f v = s.rfPut (Field.off f) (toBytes (Field.width f / 8) v) := by simp [State.wr, h]
    rw [toBytes_length] at hw
    rw [he]
    refine ⟨fun k hk => ?_, hw.2⟩
    rw [hw.1 k hk]
    by_cases hr : Field.off f ≤ k ∧ k < Field.off f + Field.width f / 8
    · rw [if_pos hr, if_pos hr]
      exact (toBytes_getD _ _ _ (by omega)).trans (byteOf_toNat _ _)
    · rw [if_neg hr, if_neg hr]

/-- The value of a number from its bytes: byte `i` of it is the `i`th. -/
theorem fromBytes_lt (bs : List Byte) : fromBytes bs < 256 ^ bs.length := by
  induction bs with
  | nil => simp [fromBytes]
  | cons b bs ih =>
    have := b.isLt
    simp only [fromBytes, List.length_cons, pow_succ]
    omega

/-- A field read is the number its bytes of the register file are, least significant first (R21, R23). -/
theorem rd_eq_bytes (s : State) (f : Field) : (s.rd f).toNat = fromBytes (s.rfRun (Field.off f) (Field.width f / 8)) := by
  have key : ∀ (x : Word) (a : Nat), (x >>> a).toNat = x.toNat / 2 ^ a := by
    intro x a; simp [Nat.shiftRight_eq_div_pow]
  obtain ⟨⟨n, hn⟩, sel⟩ := f
  have hx : ∀ j, j < 4 → s.rf (4 * n + j) = (s.x n >>> (8 * j)).setWidth 8 := by
    intro j hj
    have h1 : (4 * n + j) / 4 = n := by omega
    have h2 : (4 * n + j) % 4 = j := by omega
    simp [State.rf, h1, h2]
  have hlt := (s.x n).isLt
  have h0 : s.rf (4 * n) = (s.x n).setWidth 8 := by simpa using hx 0 (by omega)
  have h1 := hx 1 (by omega)
  have h2 := hx 2 (by omega)
  have h3 := hx 3 (by omega)
  cases sel <;>
    simp [State.rd, extractBits, lowBits_eq_ofNat, Field.off, Field.width, selLow, selWidth, State.rfRun, List.range_succ,
      fromBytes, Nat.add_assoc, h0, h1, h2, h3, key] at * <;> omega

end Sys2Proof.Machine
end

