-- ==== Sys2Proof/Laws/Next.lean ====
section
/-! SUPPORT. The advance of `pc` and the loop-end test (43_control_flow.md R261, R291): what `next` changes and keeps. -/

namespace Sys2Proof.Machine

@[simp] theorem State.setPc_regs (s : State) (t : Int) : (s.setPc t).regs = s.regs := rfl
@[simp] theorem State.setPc_carry (s : State) (t : Int) : (s.setPc t).carry = s.carry := rfl
@[simp] theorem State.setPc_run (s : State) (t : Int) : (s.setPc t).run = s.run := rfl
@[simp] theorem State.setPc_dmem (s : State) (t : Int) : (s.setPc t).dmem = s.dmem := rfl
@[simp] theorem State.setPc_imem (s : State) (t : Int) : (s.setPc t).imem = s.imem := rfl
@[simp] theorem State.setPc_params (s : State) (t : Int) : (s.setPc t).params = s.params := rfl
@[simp] theorem State.setPc_host (s : State) (t : Int) : (s.setPc t).host = s.host := rfl
@[simp] theorem State.setPc_history (s : State) (t : Int) : (s.setPc t).history = s.history := rfl
@[simp] theorem State.setPc_moment (s : State) (t : Int) : (s.setPc t).moment = s.moment := rfl
@[simp] theorem State.setPc_meanwhile (s : State) (t : Int) : (s.setPc t).meanwhile = s.meanwhile := rfl
@[simp] theorem State.setPc_loopTop (s : State) (t : Int) : (s.setPc t).loopTop = s.loopTop := rfl
@[simp] theorem State.setPc_loopEnd (s : State) (t : Int) : (s.setPc t).loopEnd = s.loopEnd := rfl
@[simp] theorem State.setPc_loopCounter (s : State) (t : Int) : (s.setPc t).loopCounter = s.loopCounter := rfl

@[simp] theorem State.next_regs (s : State) (t : Int) : (s.next t).regs = s.regs := by
  unfold State.next; split <;> rfl
@[simp] theorem State.next_carry (s : State) (t : Int) : (s.next t).carry = s.carry := by
  unfold State.next; split <;> rfl
@[simp] theorem State.next_run (s : State) (t : Int) : (s.next t).run = s.run := by
  unfold State.next; split <;> rfl
@[simp] theorem State.next_dmem (s : State) (t : Int) : (s.next t).dmem = s.dmem := by
  unfold State.next; split <;> rfl
@[simp] theorem State.next_imem (s : State) (t : Int) : (s.next t).imem = s.imem := by
  unfold State.next; split <;> rfl
@[simp] theorem State.next_params (s : State) (t : Int) : (s.next t).params = s.params := by
  unfold State.next; split <;> rfl
@[simp] theorem State.next_host (s : State) (t : Int) : (s.next t).host = s.host := by
  unfold State.next; split <;> rfl
@[simp] theorem State.next_history (s : State) (t : Int) : (s.next t).history = s.history := by
  unfold State.next; split <;> rfl
@[simp] theorem State.next_moment (s : State) (t : Int) : (s.next t).moment = s.moment := by
  unfold State.next; split <;> rfl
@[simp] theorem State.next_meanwhile (s : State) (t : Int) : (s.next t).meanwhile = s.meanwhile := by
  unfold State.next; split <;> rfl
@[simp] theorem State.next_loopTop (s : State) (t : Int) : (s.next t).loopTop = s.loopTop := by
  unfold State.next; split <;> rfl
@[simp] theorem State.next_loopEnd (s : State) (t : Int) : (s.next t).loopEnd = s.loopEnd := by
  unfold State.next; split <;> rfl

@[simp] theorem State.advance_regs (s : State) : (s.advance).regs = s.regs := State.next_regs _ _
@[simp] theorem State.advance_carry (s : State) : (s.advance).carry = s.carry := State.next_carry _ _
@[simp] theorem State.advance_run (s : State) : (s.advance).run = s.run := State.next_run _ _
@[simp] theorem State.advance_dmem (s : State) : (s.advance).dmem = s.dmem := State.next_dmem _ _
@[simp] theorem State.advance_imem (s : State) : (s.advance).imem = s.imem := State.next_imem _ _
@[simp] theorem State.advance_params (s : State) : (s.advance).params = s.params := State.next_params _ _
@[simp] theorem State.advance_host (s : State) : (s.advance).host = s.host := State.next_host _ _
@[simp] theorem State.advance_history (s : State) : (s.advance).history = s.history := State.next_history _ _
@[simp] theorem State.advance_moment (s : State) : (s.advance).moment = s.moment := State.next_moment _ _
@[simp] theorem State.advance_meanwhile (s : State) : (s.advance).meanwhile = s.meanwhile := State.next_meanwhile _ _
@[simp] theorem State.advance_loopTop (s : State) : (s.advance).loopTop = s.loopTop := State.next_loopTop _ _
@[simp] theorem State.advance_loopEnd (s : State) : (s.advance).loopEnd = s.loopEnd := State.next_loopEnd _ _

theorem rf_congr {s t : State} (h : t.regs = s.regs) {k : Nat} (hk : k < 124) : t.rf k = s.rf k := by
  rw [rf_eq_regsByte _ hk, rf_eq_regsByte _ hk, h]

@[simp] theorem State.next_rf (s : State) (t : Int) {k : Nat} (hk : k < 124) : (s.next t).rf k = s.rf k :=
  rf_congr (State.next_regs _ _) hk

/-- `pc <- t`. -/
theorem setPc_pcAt (s : State) (t : Int) : PcAt (s.setPc t) t := by
  unfold PcAt
  by_cases h : 0 ≤ t ∧ t ≤ 65535
  · rw [if_pos h]
    refine ⟨?_, ?_⟩
    · simp only [State.setPc, State.withPc_pcOut, decide_eq_false_iff_not]; omega
    · simp only [State.setPc, State.withPc_pc, BitVec.toNat_ofInt]; omega
  · rw [if_neg h]
    simp only [State.setPc, State.withPc_pcOut, decide_eq_true_eq]; omega

/-- All that `next` does to `pc` and the loop state (R261, R291). -/
theorem next_arrives (s : State) (t : Int) : Arrives s (s.next t) t := by
  have hne : ∀ n : BitVec 16, n ≠ 0 ↔ 0 < n.toNat := fun n => by
    rw [Nat.pos_iff_ne_zero, ne_eq, ne_eq, not_iff_not]
    exact ⟨fun h => by simp [h], fun h => BitVec.eq_of_toNat_eq (by simpa using h)⟩
  have hb : s.atLoopEnd t = true ↔ s.params.rev = .v3 ∧ 0 < s.loopCounter.toNat ∧ t = s.loopEnd.toNat := by
    simp only [State.atLoopEnd, Bool.and_eq_true, decide_eq_true_eq, ← hne, and_assoc]
  refine ⟨State.next_loopTop _ _, State.next_loopEnd _ _, ?_⟩
  by_cases h : s.params.rev = .v3 ∧ 0 < s.loopCounter.toNat ∧ t = s.loopEnd.toNat
  · rw [if_pos h]
    have hc : (s.loopCounter - 1).toNat + 1 = s.loopCounter.toNat := by
      have h1 := s.loopCounter.isLt
      have h2 := h.2.1
      rw [BitVec.toNat_sub, show (1 : BitVec 16).toNat = 1 from rfl]
      omega
    have hcond : (if s.loopCounter - 1 ≠ 0 then (s.loopTop.toNat : Int) else t)
        = if s.loopCounter.toNat = 1 then t else (s.loopTop.toNat : Int) := by
      by_cases h1 : s.loopCounter.toNat = 1
      · rw [if_neg (by rw [hne]; omega), if_pos h1]
      · rw [if_pos (by rw [hne]; omega), if_neg h1]
    simp only [State.next, hb.mpr h, if_true]
    refine ⟨hc, ?_⟩
    rw [hcond]
    exact setPc_pcAt _ _
  · rw [if_neg h]
    have hf : s.atLoopEnd t = false := by rw [← Bool.not_eq_true]; exact mt hb.mp h
    simp only [State.next, hf]
    exact ⟨rfl, setPc_pcAt _ _⟩

/-- `Arrives` depends only on the parameters and the loop state an instruction starts with. -/
theorem Arrives.of_eq {s s' t : State} {a : Int} (h : Arrives s' t a) (hp : s'.params = s.params)
    (hc : s'.loopCounter = s.loopCounter) (ht : s'.loopTop = s.loopTop) (he : s'.loopEnd = s.loopEnd) : Arrives s t a := by
  unfold Arrives at h ⊢
  rwa [hp, hc, ht, he] at h

end Sys2Proof.Machine
end

