-- ==== Sys2Proof/Laws/Ops.lean ====
section
/-! SUPPORT. One lemma per shared operation that says once all it can do; proofs cite these and do not unfold the
operations. -/

namespace Sys2Proof.Machine

/-! What is unchanged when only the register file, the carry, the history, `pc` and the loop state may change. -/

theorem KeepsRest.intro {s t : State} (hrun : t.run = s.run) (hd : t.dmem = s.dmem) (hi : t.imem = s.imem)
    (hp : t.params = s.params) (hh : t.host = s.host) (hm : t.moment = s.moment) (hw : t.meanwhile = s.meanwhile) :
    KeepsRest s t := ⟨⟨hrun, hi, hp, hh, hm⟩, fun a => by rw [hd], hw⟩

/-- `WroteField` depends only on the registers and the history of the state after. -/
theorem WroteField.of_eq {s t t' : State} {f : Field} {v : Nat} (h : WroteField s t f v) (hr : t'.regs = t.regs)
    (hh : t'.history = t.history) : WroteField s t' f v := by
  have hx : t'.x 30 = t.x 30 := by rw [x_30, x_30, hr]
  unfold WroteField WroteRange RangeHolds r30Seen at h ⊢
  rw [hh, hx]
  split
  · next h1 => rw [if_pos h1] at h; exact ⟨fun k hk => (rf_congr hr hk).trans (h.1 k hk), h.2⟩
  · next h1 => rw [if_neg h1] at h; exact ⟨fun k hk => (rf_congr hr hk).trans (h.1 k hk), h.2⟩

/-- `WroteRange` depends only on the registers and the history of the state after. -/
theorem WroteRange.of_eq {s t t' : State} {o n : Nat} {b : Nat → Byte} {es : List Config.Event}
    (h : WroteRange s t o n b es) (hr : t'.regs = t.regs) (hh : t'.history = t.history) : WroteRange s t' o n b es := by
  have hx : t'.x 30 = t.x 30 := by rw [x_30, x_30, hr]
  unfold WroteRange RangeHolds r30Seen at h ⊢
  rw [hh, hx]
  exact ⟨fun k hk => (rf_congr hr hk).trans (h.1 k hk), h.2⟩

/-- All that the end of an instruction without a flag does (R140). -/
theorem result_writes (s : State) (rd : Field) (v : Word) :
    ∃ t, s.result rd v = .next t ∧ t.carry = s.carry ∧ WritesOnly s t rd v.toNat := by
  refine ⟨_, rfl, by simp, ?_, ?_, ?_⟩
  · exact (wr_wrote s rd v).of_eq (by simp) (by simp)
  · have := next_arrives (s.wr rd v) (s.wr rd v).following
    refine Arrives.of_eq ?_ (by simp) (by simp) (by simp) (by simp) (s' := s.wr rd v)
    simpa [State.advance, State.following] using this
  · exact KeepsRest.intro (by simp) (by simp) (by simp) (by simp) (by simp) (by simp) (by simp)

/-- All that the end of an arithmetic instruction does (R140, R141). -/
theorem arith_writes (s : State) (rd : Field) (r : Int) :
    ∃ t, s.arith rd r = .next t ∧ t.carry = carryOut (Field.width rd) r
      ∧ WritesOnly s t rd (BitVec.ofInt 32 r).toNat := by
  refine ⟨_, rfl, by simp, ?_, ?_, ?_⟩
  · exact (wr_wrote s rd _).of_eq (by simp) (by simp)
  · have := next_arrives ((s.wr rd (BitVec.ofInt 32 r)).withCarry (carryOut (Field.width rd) r))
      ((s.wr rd (BitVec.ofInt 32 r)).withCarry (carryOut (Field.width rd) r)).following
    refine Arrives.of_eq ?_ (by simp) (by simp) (by simp) (by simp)
      (s' := (s.wr rd (BitVec.ofInt 32 r)).withCarry (carryOut (Field.width rd) r))
    simpa [State.advance, State.following] using this
  · exact KeepsRest.intro (by simp) (by simp) (by simp) (by simp) (by simp) (by simp) (by simp)

/-- All that a `next` alone does: no register, no event, no flag. -/
theorem next_goes (s : State) (a : Int) :
    (s.next a).carry = s.carry ∧ KeepsRegs s (s.next a) ∧ Arrives s (s.next a) a ∧ KeepsRest s (s.next a) :=
  ⟨by simp, ⟨fun _ hk => State.next_rf s a hk, by simp⟩, next_arrives s a,
    KeepsRest.intro (by simp) (by simp) (by simp) (by simp) (by simp) (by simp) (by simp)⟩

/-- All that a branch does. -/
theorem branch_goes (s : State) (taken : Bool) (dist : Int) :
    ∃ t, s.branch taken dist = .next t ∧ t.carry = s.carry ∧ KeepsRegs s t
      ∧ Arrives s t (if taken then (s.pc.toNat : Int) + dist else (s.pc.toNat : Int) + 1) ∧ KeepsRest s t :=
  ⟨_, rfl, next_goes s _⟩

/-! The end of an instruction (20_memory.md R67). -/

@[simp] theorem State.settle_regs (s : State) : s.settle.regs = s.regs := rfl
@[simp] theorem State.settle_carry (s : State) : s.settle.carry = s.carry := rfl
@[simp] theorem State.settle_pc (s : State) : s.settle.pc = s.pc := rfl
@[simp] theorem State.settle_pcOut (s : State) : s.settle.pcOut = s.pcOut := rfl
@[simp] theorem State.settle_loopCounter (s : State) : s.settle.loopCounter = s.loopCounter := rfl
@[simp] theorem State.settle_loopTop (s : State) : s.settle.loopTop = s.loopTop := rfl
@[simp] theorem State.settle_loopEnd (s : State) : s.settle.loopEnd = s.loopEnd := rfl
@[simp] theorem State.settle_run (s : State) : s.settle.run = s.run := rfl
@[simp] theorem State.settle_imem (s : State) : s.settle.imem = s.imem := rfl
@[simp] theorem State.settle_params (s : State) : s.settle.params = s.params := rfl
@[simp] theorem State.settle_host (s : State) : s.settle.host = s.host := rfl
@[simp] theorem State.settle_history (s : State) : s.settle.history = s.history := rfl
@[simp] theorem State.settle_moment (s : State) : s.settle.moment = s.moment := rfl
@[simp] theorem State.settle_meanwhile (s : State) : s.settle.meanwhile = .nothing := rfl
@[simp] theorem State.settle_dmem (s : State) : s.settle.dmem = s.dmem.writeAll s.meanwhile.writes := rfl

/-- Where no other agent writes, nothing is left to do. -/
theorem State.settle_of_nothing {s : State} (h : s.meanwhile = .nothing) : s.settle = s := by
  cases s; cases h; rfl

/-! Counts and ranges. -/

theorem rangeFault_none {o n : Nat} : rangeFault o n = none ↔ 1 ≤ n ∧ n ≤ 124 ∧ o + n ≤ 124 := by
  unfold rangeFault
  split
  · simp; omega
  · split
    · simp; omega
    · split
      · simp; omega
      · simp; omega

/-- The byte count of a register form is below 256. -/
theorem countOf_r0_lt (s : State) (k : Fin 4) : s.countOf (.r0 k) < 256 := by
  rw [State.countOf, rd_eq_bytes]
  have := fromBytes_lt (s.rfRun (Field.off (byteField 0 k)) (Field.width (byteField 0 k) / 8))
  have hw : Field.width (byteField 0 k) / 8 = 1 := by fin_cases k <;> rfl
  rw [hw] at this ⊢
  simpa [State.rfRun] using this

@[simp] theorem rfRun_length (s : State) (o n : Nat) : (s.rfRun o n).length = n := by simp [State.rfRun]
@[simp] theorem memRead_length (s : State) (kind : Config.RegionKind) (a : Word) (n : Nat) :
    (s.memRead kind a n).length = n := by cases kind <;> simp [State.memRead]
@[simp] theorem xfrAnswer_length (s : State) (d o n : Nat) : (s.xfrAnswer d o n).length = n := by
  simp [State.xfrAnswer]

theorem rfRun_getD (s : State) (o n i : Nat) (h : i < n) : ((s.rfRun o n)[i]?).getD 0 = s.rf (o + i) := by
  simp [State.rfRun, h]
theorem memRead_getD (s : State) (kind : Config.RegionKind) (a : Word) (n i : Nat) (h : i < n) :
    ((s.memRead kind a n)[i]?).getD 0 = answeredByte s a n kind i := by
  cases kind with
  | ram => simp [State.memRead, answeredByte, h]
  | device => simp [State.memRead, answeredByte, h]
theorem xfrAnswer_getD (s : State) (d o n i : Nat) (h : i < n) :
    ((s.xfrAnswer d o n)[i]?).getD 0 = Config.xfrIn s.history s.moment d o n i := by simp [State.xfrAnswer, h]

/-- All that a burst can do (R210 to R213, R218): it faults, or it loads, or it stores. -/
theorem burst_cases (s : State) (write : Bool) (start : Fin 128) (base : Word) (op : Operand) (cnt : Count) :
    (∃ f, rangeFault start (s.countOf cnt) = some f ∧ s.burst write start base op cnt = .fault f)
    ∨ (rangeFault start (s.countOf cnt) = none
        ∧ s.admission write (s.burstAddr base op) (s.countOf cnt) = none
        ∧ s.burst write start base op cnt = .fault .unadmitted)
    ∨ (rangeFault start (s.countOf cnt) = none
        ∧ ∃ kind, s.admission write (s.burstAddr base op) (s.countOf cnt) = some kind
          ∧ s.burst write start base op cnt
            = .next (if write then (s.storeRun start (s.countOf cnt) (s.burstAddr base op)).advance
                else (s.loadRun kind start (s.countOf cnt) (s.burstAddr base op)).advance)) := by
  unfold State.burst
  cases h : rangeFault start (s.countOf cnt) with
  | some f => exact .inl ⟨f, rfl, rfl⟩
  | none =>
    cases ha : s.admission write (s.burstAddr base op) (s.countOf cnt) with
    | none => exact .inr (.inl ⟨rfl, rfl, rfl⟩)
    | some kind => cases write <;> exact .inr (.inr ⟨rfl, kind, rfl, rfl⟩)

/-- All that an XFR instruction can do (R223). -/
theorem transfer_cases (s : State) (start : Fin 128) (cnt : Count) (move : Nat → State) :
    (∃ f, rangeFault start (s.countOf cnt) = some f ∧ s.transfer start cnt move = .fault f)
    ∨ (rangeFault start (s.countOf cnt) = none
        ∧ s.transfer start cnt move = .next (move (s.countOf cnt)).advance) := by
  unfold State.transfer
  cases h : rangeFault start (s.countOf cnt) with
  | some f => exact .inl ⟨f, rfl, rfl⟩
  | none => exact .inr ⟨rfl, rfl⟩

/-- All that MVIx can do (R203, R207). -/
theorem mvi_cases (s : State) (n : Nat) (dst src : MviOperand) :
    s.mvi n dst src = .fault .regRange ∨ s.mvi n dst src = .fault .mviUnspecified
    ∨ s.mvi n dst src
      = .next (((s.mviReady n dst src).mviStore n ((s.mviReady n dst src).mviOffset dst)
          ((s.mviPre n src).mviValue n src) dst).mviPost n ((s.mviReady n dst src).mviOffset dst) dst).advance := by
  unfold State.mvi
  dsimp only
  split
  · split
    · exact .inr (.inl rfl)
    · exact .inr (.inr rfl)
  · exact .inl rfl

/-- What a search of SCAN answers (R158): the first matching field, or that none matches. -/
theorem scanFrom_ok {s : State} {w stride v : Nat} {o left : Nat} {r : Option (Nat × Nat)}
    (h : s.scanFrom w stride v o left = .ok r) :
    match r with
    | none => ∀ i, i < left → o + i * stride + w ≤ 124 ∧ fromBytes (s.rfRun (o + i * stride) w) ≠ v
    | some (o', left') => ∃ j, j < left ∧ o' = o + j * stride ∧ left' = left - j ∧ o' + w ≤ 124
        ∧ fromBytes (s.rfRun o' w) = v
        ∧ ∀ i, i < j → o + i * stride + w ≤ 124 ∧ fromBytes (s.rfRun (o + i * stride) w) ≠ v := by
  induction left generalizing o with
  | zero =>
    simp only [State.scanFrom, Except.ok.injEq] at h
    subst h
    intro i hi
    omega
  | succ left ih =>
    unfold State.scanFrom at h
    split at h
    · cases h
    · next h1 =>
      split at h
      · next h2 =>
        cases h
        exact ⟨0, by omega, by omega, by omega, by omega, h2, fun i hi => absurd hi (by omega)⟩
      · next h2 =>
        have := ih h
        cases r with
        | none =>
          intro i hi
          cases i with
          | zero => simpa using ⟨by omega, h2⟩
          | succ i =>
            have e : o + (i + 1) * stride = o + stride + i * stride := by ring
            rw [e]
            exact this i (by omega)
        | some p =>
          obtain ⟨j, hj, ho, hl, hr, hv, hb⟩ := this
          refine ⟨j + 1, by omega, by rw [ho]; ring, by omega, hr, hv, fun i hi => ?_⟩
          cases i with
          | zero => simpa using ⟨by omega, h2⟩
          | succ i =>
            have e : o + (i + 1) * stride = o + stride + i * stride := by ring
            rw [e]
            exact hb i (by omega)

/-- What LMBD's search answers (R159): the greatest matching bit number below `n`, or that none matches. -/
theorem highestBit_cases (a : Word) (t : Bool) (n : Nat) :
    (∃ i, highestBit a t n = some i ∧ i < n ∧ a.getLsbD i = t ∧ ∀ j, j < n → a.getLsbD j = t → j ≤ i)
      ∨ (highestBit a t n = none ∧ ∀ i, i < n → a.getLsbD i ≠ t) := by
  induction n with
  | zero => exact .inr ⟨rfl, fun i hi => absurd hi (by omega)⟩
  | succ n ih =>
    by_cases h : a.getLsbD n = t
    · exact .inl ⟨n, by simp [highestBit, h], by omega, h, fun j hj _ => by omega⟩
    · have e : highestBit a t (n + 1) = highestBit a t n := by simp [highestBit, h]
      rw [e]
      have last : ∀ j, j < n + 1 → a.getLsbD j = t → j < n := fun j hj hb => by
        by_cases hc : j = n
        · subst hc; exact absurd hb h
        · omega
      rcases ih with ⟨i, h1, h2, h3, h4⟩ | ⟨h1, h2⟩
      · exact .inl ⟨i, h1, by omega, h3, fun j hj hb => h4 j (last j hj hb) hb⟩
      · exact .inr ⟨h1, fun i hi hb => h2 i (last i hi hb) hb⟩

end Sys2Proof.Machine
end

