-- ==== Sys2Proof/Laws/Fields.lean ====
section
/-! SUPPORT. Numbers in runs of bytes of the register file, and the value of a field after a write (10_state.md R21, R23,
R24). -/
namespace Sys2Proof.Machine

/-- Dropping the lowest byte of a number. -/
theorem mul256_add {a b n : Nat} (ha : a < 256) : (a + 256 * b) / 256 ^ (n+1) = b / 256 ^ n := by
  rw [pow_succ, Nat.mul_comm (256^n), ← Nat.div_div_eq_div_mul]
  congr 1; omega

/-- Byte `i` of the number of a list of bytes. -/
theorem fromBytes_digits (bs : List Byte) (i : Nat) (h : i < bs.length) :
    fromBytes bs / 256 ^ i % 256 = ((bs[i]?).getD 0).toNat := by
  induction bs generalizing i with
  | nil => simp at h
  | cons b bs ih =>
    have := b.isLt
    cases i with
    | zero => simp [fromBytes]; omega
    | succ i =>
      rw [fromBytes, mul256_add (by omega)]
      simpa using ih i (by simpa using h)

/-- Numbers of `n` bytes that agree in every byte are equal. -/
theorem eq_of_digits {v w : Nat} :
    ∀ {n : Nat}, v < 256 ^ n → w < 256 ^ n → (∀ i, i < n → v / 256 ^ i % 256 = w / 256 ^ i % 256) → v = w := by
  intro n
  induction n generalizing v w with
  | zero => intro h1 h2 _; simp at h1 h2; omega
  | succ n ih =>
    intro h1 h2 h
    have h0 := h 0 (by omega)
    simp at h0
    have := @ih (v/256) (w/256) (by rw [pow_succ] at h1; omega) (by rw [pow_succ] at h2; omega) (fun i hi => by
      have := h (i+1) (by omega)
      rwa [pow_succ, Nat.mul_comm, ← Nat.div_div_eq_div_mul, ← Nat.div_div_eq_div_mul] at this)
    omega

/-- `HoldsNumber` is the number of the run of bytes. -/
theorem holdsNumber_iff (s : State) (o n v : Nat) : HoldsNumber s o n v ↔ fromBytes (s.rfRun o n) = v := by
  have hd : ∀ i, i < n → fromBytes (s.rfRun o n) / 256 ^ i % 256 = (s.rf (o + i)).toNat := fun i hi => by
    rw [fromBytes_digits _ _ (by simpa using hi), rfRun_getD s o n i hi]
  have hl : fromBytes (s.rfRun o n) < 256 ^ n := by simpa using fromBytes_lt (s.rfRun o n)
  constructor
  · rintro ⟨h1, h2⟩
    exact eq_of_digits hl h1 fun i hi => (hd i hi).trans (h2 i hi).symm
  · rintro rfl
    exact ⟨hl, hd⟩

/-- The value of a field after it was written (R23, R24). -/
theorem WroteField.rd {s t : State} {f : Field} {v : Nat} (h : WroteField s t f v) (hf : f.reg ≠ 31) :
    (t.rd f).toNat = v % 2 ^ Field.width f := by
  rw [WroteField, if_neg hf] at h
  obtain ⟨hle, -, -, hw, -⟩ := field_shape f hf
  have hk : HoldsNumber t (Field.off f) (Field.width f / 8) (v % 2 ^ Field.width f) := by
    have e : (2:Nat) ^ Field.width f = 256 ^ (Field.width f / 8) := by
      rw [show (256:Nat) = 2^8 by norm_num, ← pow_mul]; congr 1; omega
    refine ⟨?_, fun i hi => ?_⟩
    · rw [e]; exact Nat.mod_lt _ (by positivity)
    · rw [h.1 _ (by omega), if_pos (by omega)]
      simp only [Nat.add_sub_cancel_left, BitVec.toNat_ofNat]
      have : Field.width f / 8 = i + 1 + (Field.width f / 8 - (i+1)) := by omega
      rw [e, this, pow_add, pow_succ, Nat.mul_assoc, Nat.mod_mul_right_div_self]
      exact Nat.mod_mod_of_dvd _ (Dvd.intro _ rfl)
  rw [rd_eq_bytes]
  exact (holdsNumber_iff ..).mp hk

/-- A field an arithmetic result was written to has it. -/
theorem hasResult_of {s t : State} {rd : Field} {r : Int} (h : WroteField s t rd (r % 2 ^ 32).toNat) (hf : rd.reg ≠ 31) :
    HasResult t rd r := by
  rw [HasResult, h.rd hf]
  obtain ⟨⟨n, hn⟩, sel⟩ := rd
  cases sel <;> simp [Field.width, selWidth] <;> omega

end Sys2Proof.Machine
end

