-- ==== Sys2Proof/Laws/Bursts.lean ====
section
/-! SUPPORT. What the copies of bursts and XFR instructions leave (42_register_load_store.md R210, R213, R222 to R226). -/

namespace Sys2Proof.Machine

/-- The byte count of an operand (R213). -/
theorem countOf_eq {s : State} {cnt : Count} {n : Nat} (h : CountIs s cnt n) : s.countOf cnt = n := by
  cases cnt with
  | imm m => exact h.symm
  | r0 k =>
    rw [CountIs] at h
    rw [h, State.countOf, rd_eq_bytes]
    fin_cases k <;> simp [byteField, Field.off, Field.width, selLow, selWidth, State.rfRun, fromBytes]

/-- The admission of a request by one region (R69). -/
theorem regionAdmits_iff (r : Config.Region) (write : Bool) (addr : Word) (n : Nat) :
    regionAdmits write addr n r = true ↔ Admits r write addr n := by simp [regionAdmits, Admits, and_assoc]

/-- What the platform says of a request: the kind of the first region that admits it. -/
theorem admission_some {s : State} {write : Bool} {addr : Word} {n : Nat} {kind : Config.RegionKind} :
    s.admission write addr n = some kind ↔ AdmittedAs s write addr n kind := by
  simp only [State.admission, Option.map_eq_some_iff, List.find?_eq_some_iff_append, AdmittedAs]
  constructor
  · rintro ⟨r, ⟨hr, pre, post, hl, hp⟩, hk⟩
    exact ⟨pre, r, post, hl, fun q hq ha => by simpa [(regionAdmits_iff q write addr n).mpr ha] using hp q hq,
      (regionAdmits_iff ..).mp hr, hk⟩
  · rintro ⟨pre, r, post, hl, hp, hr, hk⟩
    refine ⟨r, ⟨(regionAdmits_iff ..).mpr hr, pre, post, hl, fun q hq => ?_⟩, hk⟩
    rw [Bool.not_eq_true', ← Bool.not_eq_true]
    exact fun h => hp q hq ((regionAdmits_iff ..).mp h)

/-- A request that no region admits. -/
theorem admission_none {s : State} {write : Bool} {addr : Word} {n : Nat} :
    s.admission write addr n = none ↔ ¬ Admitted s write addr n := by
  simp [State.admission, Admitted, regionAdmits_iff]

/-- An admitted request is answered by something. -/
theorem Admitted.admittedAs {s : State} {write : Bool} {addr : Word} {n : Nat} (h : Admitted s write addr n) :
    ∃ kind, AdmittedAs s write addr n kind := by
  cases ha : s.admission write addr n with
  | none => exact absurd h (admission_none.mp ha)
  | some kind => exact ⟨kind, admission_some.mp ha⟩

/-- Where `advance` arrives, from a state that kept `pc`, the parameters and the loop state. -/
theorem advance_continues {s u : State} (hp : u.params = s.params) (hc : u.loopCounter = s.loopCounter)
    (ht : u.loopTop = s.loopTop) (he : u.loopEnd = s.loopEnd) (hpc : u.pc = s.pc) : Continues s u.advance := by
  refine Arrives.of_eq ?_ hp hc ht he (s' := u)
  rw [show ((s.pc.toNat : Int) + 1) = u.following by simp [State.following, hpc]]
  exact next_arrives u u.following

/-- The three checks of a count and a range (R211, R213). -/
theorem rangeFault_some (o n : Nat) :
    (n = 0 → rangeFault o n = some .burstCountZero) ∧ (124 < n → rangeFault o n = some .burstCountTooBig)
      ∧ (1 ≤ n → n ≤ 124 → 124 < o + n → rangeFault o n = some .regRange) := by
  unfold rangeFault
  refine ⟨fun h => by simp [h], fun h => ?_, fun h1 h2 h3 => ?_⟩
  · rw [if_neg (by omega), if_pos h]
  · rw [if_neg (by omega), if_neg (by omega), if_pos h3]

/-- All that the load half of a burst does. -/
theorem loadRun_wrote (s : State) (kind : Config.RegionKind) (o n : Nat) (addr : Word) (h : o + n ≤ 124) :
    WroteRange s (s.loadRun kind o n addr) o n (answeredByte s addr n kind) [.memRead addr n] := by
  have hw := rfPut_wrote (s.emit [.memRead addr n]) o (s.memRead kind addr n) (by simpa using h)
  rw [memRead_length] at hw
  refine ⟨fun k hk => (hw.1 k hk).trans ?_, hw.2.trans (by simp; rfl)⟩
  split
  · exact memRead_getD _ _ _ _ _ (by omega)
  · rw [rf_eq_regsByte _ hk, rf_eq_regsByte _ hk]; simp

/-- All that the store half of a burst does to data memory. -/
theorem storeRun_wrote (s : State) (o n : Nat) (addr : Word) (hwf : Memory.wf s.dmem = true) (hn : n ≤ 124) :
    (∀ i, i < n → (s.storeRun o n addr).dmem.read (addr + BitVec.ofNat 32 i).toNat = s.rf (o + i))
      ∧ ∀ a, (∀ i, i < n → a ≠ (addr + BitVec.ofNat 32 i).toNat) →
        (s.storeRun o n addr).dmem.read a = s.dmem.read a := by
  refine ⟨fun i hi => ?_, fun a ha => ?_⟩
  · exact (Memory.read_writeRun_at s.dmem addr (s.rfRun o n) hwf (by simp; omega) i (by simpa using hi)).trans
      (rfRun_getD _ _ _ _ hi)
  · exact Memory.read_writeRun_off s.dmem addr (s.rfRun o n) hwf a (by simpa using ha)

/-- All that the store half of a burst leaves in data memory once the writes of other agents have taken effect (R67): the
last of those after the core's own access to a byte, or else the core's byte. -/
theorem storeRun_settled (s : State) (o n : Nat) (addr : Word) (hwf : Memory.wf s.dmem = true) (hn : n ≤ 124) :
    (∀ i, i < n → (s.storeRun o n addr).settle.dmem.read (addr + BitVec.ofNat 32 i).toNat
        = (lastWrite (addr + BitVec.ofNat 32 i).toNat (s.meanwhile.writes.drop (s.meanwhile.beforeByte i))).getD
          (s.rf (o + i)))
      ∧ ∀ a, (∀ i, i < n → a ≠ (addr + BitVec.ofNat 32 i).toNat) →
        (s.storeRun o n addr).settle.dmem.read a = (lastWrite a s.meanwhile.writes).getD (s.dmem.read a) := by
  obtain ⟨h1, h2⟩ := storeRun_wrote s o n addr hwf hn
  have hw : Memory.wf (s.storeRun o n addr).dmem = true := Memory.wf_writeRun _ _ _ hwf
  refine ⟨fun i hi => ?_, fun a ha => ?_⟩
  · rw [State.settle_dmem, Memory.read_writeAll _ _ _ hw, h1 i hi]
    exact congrArg (Option.getD · _) (lastWrite_left_at s.meanwhile addr n i hi (by omega) 0 s.meanwhile.writes)
  · rw [State.settle_dmem, Memory.read_writeAll _ _ _ hw, h2 a ha]
    exact congrArg (Option.getD · _) (lastWrite_left_off s.meanwhile addr n a ha 0 s.meanwhile.writes)

/-- All that an XIN's transfer does. -/
theorem xfrIn_wrote (s : State) (dev o n : Nat) (h : o + n ≤ 124) :
    WroteRange s (s.xfrIn dev o n) o n (Config.xfrIn s.history s.moment dev o n) [] := by
  have hw := rfPut_wrote s o (s.xfrAnswer dev o n) (by simpa using h)
  rw [xfrAnswer_length] at hw
  refine ⟨fun k hk => (hw.1 k hk).trans ?_, hw.2⟩
  split
  · exact xfrAnswer_getD _ _ _ _ _ (by omega)
  · rfl

/-- All that an exchange's transfer does. -/
theorem xfrExchange_wrote (s : State) (dev o n : Nat) (h : o + n ≤ 124) :
    WroteRange s (s.xfrExchange dev o n) o n (Config.xfrIn s.history s.moment dev o n) [.xfrOut dev o (s.rfRun o n)] := by
  have hw := rfPut_wrote (s.xfrOut dev o n) o (s.xfrAnswer dev o n) (by simpa using h)
  rw [xfrAnswer_length] at hw
  refine ⟨fun k hk => (hw.1 k hk).trans ?_, hw.2.trans ?_⟩
  · split
    · exact xfrAnswer_getD _ _ _ _ _ (by omega)
    · exact rf_congr (by simp [State.xfrOut]) hk
  · simp only [State.xfrOut, State.emit_history, List.append_nil]; rfl

end Sys2Proof.Machine
end

