-- ==== Sys2Proof/Laws/PerInstr.lean ====
section
/-! SUPPORT. A law of every instruction as syntax: where the encoding has a word for a well-formed instruction, the word
has the fixed bits of the instruction's row of spec/opcode_table.json (30_encoding.md R123 to R127, R129). -/

namespace Sys2Proof.Laws

/-- The fixed bits of an instruction's row, as (high bit, low bit, value); for a pseudo-op those of its expansion's row
(R129), and for ZERO those of an XIN of device 255 (R124). -/
def fixedBits : Instr → List (Nat × Nat × Nat)
  | .add .. => [(31, 25, 0)]
  | .adc .. => [(31, 25, 1)]
  | .sub .. => [(31, 25, 2)]
  | .suc .. => [(31, 25, 3)]
  | .rsb .. => [(31, 25, 6)]
  | .rsc .. => [(31, 25, 7)]
  | .lsl .. => [(31, 25, 4)]
  | .lsr .. => [(31, 25, 5)]
  | .and .. => [(31, 25, 8)]
  | .or .. => [(31, 25, 9)]
  | .xor .. => [(31, 25, 10)]
  | .not .. => [(31, 25, 11)]
  | .min .. => [(31, 25, 12)]
  | .max .. => [(31, 25, 13)]
  | .clr .. => [(31, 25, 14)]
  | .set .. => [(31, 25, 15)]
  | .scan .. => [(31, 25, 20)]
  | .lmbd .. => [(31, 25, 19)]
  | .mov _ (.reg _) => [(31, 25, 8)]
  | .mov _ (.imm _) => [(31, 24, 36)]
  | .ldi .. => [(31, 24, 36)]
  | .mvib .. => []
  | .mviw .. => []
  | .mvid .. => []
  | .lbbo .. => [(31, 28, 15)]
  | .sbbo .. => [(31, 28, 14)]
  | .lbco .. => [(31, 28, 9)]
  | .sbco .. => [(31, 28, 8)]
  | .zero .. => [(31, 15, 24063)]
  | .xin .. => [(31, 23, 93)]
  | .xout .. => [(31, 23, 94)]
  | .xchg .. => [(31, 23, 95)]
  | .jmp .. => [(31, 25, 16)]
  | .jal .. => [(31, 25, 17)]
  | .qbgt .. => [(31, 27, 12)]
  | .qbge .. => [(31, 27, 14)]
  | .qblt .. => [(31, 27, 9)]
  | .qble .. => [(31, 27, 11)]
  | .qbeq .. => [(31, 27, 10)]
  | .qbne .. => [(31, 27, 13)]
  | .qba .. => [(31, 27, 15)]
  | .qbbs .. => [(31, 27, 26)]
  | .qbbc .. => [(31, 27, 25)]
  | .wbs .. => [(31, 27, 25)]
  | .wbc .. => [(31, 27, 26)]
  | .halt => [(31, 0, 0x2A000000)]
  | .slp .. => [(31, 24, 62), (22, 0, 0)]
  | .loop .. => [(31, 25, 24), (15, 15, 0)]

/-- Every fixed field of the row holds its value in the word. -/
def HasFixedBits (i : Instr) : Prop := ∀ w, encode i = some w → ∀ p ∈ fixedBits i, bits w p.1 p.2.1 = p.2.2

/-- The family's statement, for a well-formed instruction. -/
def EncodedRow.Statement (i : Instr) : Prop := operandCheck i = none → HasFixedBits i

/-! Bounds of the parts of a word. -/

theorem encodeField_lt (f : Field) : encodeField f < 256 := by
  obtain ⟨⟨n, hn⟩, sel⟩ := f
  cases sel <;> simp [encodeField, encodeSel] <;> omega

theorem encodeOp_lt {n : Nat} {op : Operand} (h : op.check n = none) (hn : n ≤ 255) :
    encodeOp op < 2 ^ 25 ∧ encodeOp op % 2 ^ 16 = 0 := by
  cases op with
  | reg f => have := encodeField_lt f; simp only [encodeOp]; omega
  | imm v =>
    simp only [Operand.check, refuseUnless, decide_eq_true_eq] at h
    split at h
    · simp only [encodeOp]; omega
    · cases h

theorem encodeTarget_lt {op : Operand} (h : op.check 65535 = none) :
    encodeTarget op < 2 ^ 25 ∧ encodeTarget op % 2 ^ 8 = 0 := by
  cases op with
  | reg f => have := encodeField_lt f; simp only [encodeTarget]; omega
  | imm v =>
    simp only [Operand.check, refuseUnless, decide_eq_true_eq] at h
    split at h
    · simp only [encodeTarget]; omega
    · cases h

theorem encodeCount_lt {c : Count} (h : c.check = none) : encodeCount c < 128 := by
  cases c with
  | imm n =>
    simp only [Count.check, refuseUnless, decide_eq_true_eq] at h
    split at h
    · simp only [encodeCount]; omega
    · cases h
  | r0 k => simp only [encodeCount]; omega

theorem encodeStart_lt {n : Nat} (h : n < 128) : encodeStart n < 128 := by
  simp only [encodeStart]; omega

theorem encodeDist_lt {dist : Int} {d : Nat} (h : encodeDist dist = some d) :
    d % 2 ^ 25 < 256 ∧ d < 2 ^ 27 := by
  unfold encodeDist at h
  split at h
  · cases h; omega
  · cases h

theorem refuseUnless_none {b : Bool} {w : IllFormed} : refuseUnless b w = none ↔ b = true := by
  cases b <;> simp [refuseUnless]

/-- The fixed bits of a word whose head is `h` above bit `lo`. -/
theorem bits_head {h low lo : Nat} (hl : low < 2 ^ lo) (hh : h < 2 ^ (32 - lo)) (hlo : lo ≤ 31) :
    bits (BitVec.ofNat 32 (h * 2 ^ lo + low)) 31 lo = h := by
  have e : (2 : Nat) ^ 32 = 2 ^ (32 - lo) * 2 ^ lo := by rw [← pow_add]; congr 1; omega
  have h1 : h * 2 ^ lo + low < 2 ^ 32 := by
    calc h * 2 ^ lo + low < h * 2 ^ lo + 2 ^ lo := by omega
      _ = (h + 1) * 2 ^ lo := by ring
      _ ≤ 2 ^ (32 - lo) * 2 ^ lo := Nat.mul_le_mul_right _ (by omega)
      _ = 2 ^ 32 := e.symm
  have h2 : (h * 2 ^ lo + low) / 2 ^ lo = h := by
    rw [Nat.add_comm, Nat.add_mul_div_right _ _ (Nat.two_pow_pos lo), Nat.div_eq_of_lt hl]; omega
  rw [bits, BitVec.toNat_ofNat, Nat.mod_eq_of_lt h1, h2, show 31 + 1 - lo = 32 - lo by omega, Nat.mod_eq_of_lt hh]

theorem encodeAlu_row {n k : Nat} {rd rs : Field} {op : Operand} {i : Instr} (he : encode i = encodeAlu n rd rs op)
    (hf : fixedBits i = [(31, 25, n)]) (hn : n < 16) (h : op.check k = none) (hk : k ≤ 255) : HasFixedBits i := by
  intro w hw p hp
  obtain ⟨h1, -⟩ := encodeOp_lt h hk
  have h2 := encodeField_lt rd
  have h3 := encodeField_lt rs
  have h4 := (encodeOp_lt h hk).2
  rw [he] at hw
  rw [hf, List.mem_singleton] at hp
  subst hp
  cases hw
  rw [show n * 2 ^ 25 + encodeOp op + encodeField rs * 2 ^ 8 + encodeField rd
    = n * 2 ^ 25 + (encodeOp op + encodeField rs * 2 ^ 8 + encodeField rd) by omega]
  exact bits_head (by omega) (by omega) (by omega)

theorem encodeMisc_row {n low : Nat} {i : Instr} (he : encode i = encodeMisc n low)
    (hf : fixedBits i = [(31, 25, 16 + n)]) (hn : n < 16) (h : low < 2 ^ 25) : HasFixedBits i := by
  intro w hw p hp
  rw [he] at hw
  rw [hf, List.mem_singleton] at hp
  subst hp
  cases hw
  rw [show 2 ^ 29 + n * 2 ^ 25 + low = (16 + n) * 2 ^ 25 + low by omega]
  exact bits_head h (by omega) (by omega)

theorem encodeXfr_row {dir dev code : Nat} {start : Fin 128} {i : Instr} (he : encode i = encodeXfr dir dev start code)
    (hf : fixedBits i = [(31, 23, 92 + dir)]) (hd : dir < 4) (hv : dev < 256) (hc : code < 128) : HasFixedBits i := by
  intro w hw p hp
  have h1 := encodeStart_lt start.isLt
  rw [he] at hw
  rw [hf, List.mem_singleton] at hp
  subst hp
  cases hw
  rw [show 2 ^ 29 + 7 * 2 ^ 25 + (dir * 2 ^ 23 + dev * 2 ^ 15 + code * 2 ^ 7 + encodeStart start)
    = (92 + dir) * 2 ^ 23 + (dev * 2 ^ 15 + code * 2 ^ 7 + encodeStart start) by omega]
  exact bits_head (by omega) (by omega) (by omega)

theorem encodeBranch_row {n k : Nat} {dist : Int} {rs : Field} {op : Operand} {i : Instr}
    (he : encode i = encodeBranch n dist (branchOperands rs op))
    (hf : fixedBits i = [(31, 27, n)]) (hn : n < 32) (h : op.check k = none) (hk : k ≤ 255) : HasFixedBits i := by
  intro w hw p hp
  obtain ⟨h1, h4⟩ := encodeOp_lt h hk
  have h2 := encodeField_lt rs
  rw [he, encodeBranch] at hw
  rw [hf, List.mem_singleton] at hp
  subst hp
  cases hd : encodeDist dist with
  | none => rw [hd] at hw; cases hw
  | some d =>
    rw [hd] at hw
    obtain ⟨h5, h6⟩ := encodeDist_lt hd
    cases hw
    rw [show n * 2 ^ 27 + d + branchOperands rs op = n * 2 ^ 27 + (d + branchOperands rs op) by omega]
    exact bits_head (by simp only [branchOperands]; omega) (by omega) (by omega)

theorem encodeBurst_row {n : Nat} {start : Fin 128} {base : Fin 32} {op : Operand} {cnt : Count} {i : Instr}
    (he : encode i = encodeBurst n start base op cnt) (hf : fixedBits i = [(31, 28, n)]) (hn : n < 16)
    (h : op.check 255 = none) (hc : cnt.check = none) : HasFixedBits i := by
  intro w hw p hp
  obtain ⟨h1, h4⟩ := encodeOp_lt h (by omega)
  have h2 := encodeStart_lt start.isLt
  have h3 := encodeCount_lt hc
  have h5 := base.isLt
  rw [he, encodeBurst] at hw
  rw [hf, List.mem_singleton] at hp
  subst hp
  cases hw
  dsimp only
  rw [show n * 2 ^ 28 + encodeCount cnt / 16 * 2 ^ 25 + encodeOp op + encodeCount cnt / 2 % 8 * 2 ^ 13 + base * 2 ^ 8
      + encodeCount cnt % 2 * 2 ^ 7 + encodeStart start
    = n * 2 ^ 28 + (encodeCount cnt / 16 * 2 ^ 25 + encodeOp op + encodeCount cnt / 2 % 8 * 2 ^ 13 + base * 2 ^ 8
      + encodeCount cnt % 2 * 2 ^ 7 + encodeStart start) by omega]
  exact bits_head (by omega) (by omega) (by omega)

/-! One lemma per instruction. -/

theorem EncodedRow.add (rd rs : Field) (op : Operand) : EncodedRow.Statement (.add rd rs op) :=
  fun h => encodeAlu_row rfl rfl (by decide) (k := 255) h (by decide)

theorem EncodedRow.adc (rd rs : Field) (op : Operand) : EncodedRow.Statement (.adc rd rs op) :=
  fun h => encodeAlu_row rfl rfl (by decide) (k := 255) h (by decide)

theorem EncodedRow.sub (rd rs : Field) (op : Operand) : EncodedRow.Statement (.sub rd rs op) :=
  fun h => encodeAlu_row rfl rfl (by decide) (k := 255) h (by decide)

theorem EncodedRow.suc (rd rs : Field) (op : Operand) : EncodedRow.Statement (.suc rd rs op) :=
  fun h => encodeAlu_row rfl rfl (by decide) (k := 255) h (by decide)

theorem EncodedRow.rsb (rd rs : Field) (op : Operand) : EncodedRow.Statement (.rsb rd rs op) :=
  fun h => encodeAlu_row rfl rfl (by decide) (k := 255) h (by decide)

theorem EncodedRow.rsc (rd rs : Field) (op : Operand) : EncodedRow.Statement (.rsc rd rs op) :=
  fun h => encodeAlu_row rfl rfl (by decide) (k := 255) h (by decide)

theorem EncodedRow.lsl (rd rs : Field) (op : Operand) : EncodedRow.Statement (.lsl rd rs op) :=
  fun h => encodeAlu_row rfl rfl (by decide) (k := 31) h (by decide)

theorem EncodedRow.lsr (rd rs : Field) (op : Operand) : EncodedRow.Statement (.lsr rd rs op) :=
  fun h => encodeAlu_row rfl rfl (by decide) (k := 31) h (by decide)

theorem EncodedRow.and (rd rs : Field) (op : Operand) : EncodedRow.Statement (.and rd rs op) :=
  fun h => encodeAlu_row rfl rfl (by decide) (k := 255) h (by decide)

theorem EncodedRow.or (rd rs : Field) (op : Operand) : EncodedRow.Statement (.or rd rs op) :=
  fun h => encodeAlu_row rfl rfl (by decide) (k := 255) h (by decide)

theorem EncodedRow.xor (rd rs : Field) (op : Operand) : EncodedRow.Statement (.xor rd rs op) :=
  fun h => encodeAlu_row rfl rfl (by decide) (k := 255) h (by decide)

theorem EncodedRow.not (rd rs : Field) : EncodedRow.Statement (.not rd rs) :=
  fun _ => encodeAlu_row (k := 255) rfl rfl (by decide) rfl (by decide)

theorem EncodedRow.min (rd rs : Field) (op : Operand) : EncodedRow.Statement (.min rd rs op) :=
  fun h => encodeAlu_row rfl rfl (by decide) (k := 255) h (by decide)

theorem EncodedRow.max (rd rs : Field) (op : Operand) : EncodedRow.Statement (.max rd rs op) :=
  fun h => encodeAlu_row rfl rfl (by decide) (k := 255) h (by decide)

theorem EncodedRow.clr (rd rs : Field) (op : Operand) : EncodedRow.Statement (.clr rd rs op) :=
  fun h => encodeAlu_row rfl rfl (by decide) (k := 31) h (by decide)

theorem EncodedRow.set (rd rs : Field) (op : Operand) : EncodedRow.Statement (.set rd rs op) :=
  fun h => encodeAlu_row rfl rfl (by decide) (k := 31) h (by decide)

theorem EncodedRow.scan (rn : Fin 32) (op : Operand) : EncodedRow.Statement (.scan rn op) := by
  intro h
  obtain ⟨h1, h2⟩ := encodeOp_lt (op := op) (n := 255) h (by decide)
  have := encodeField_lt ⟨rn, .full⟩
  exact encodeMisc_row rfl rfl (by decide) (by omega)

theorem EncodedRow.lmbd (rd rs : Field) (op : Operand) : EncodedRow.Statement (.lmbd rd rs op) := by
  intro h
  obtain ⟨h1, h2⟩ := encodeOp_lt (op := op) (n := 255) h (by decide)
  have := encodeField_lt rd
  have := encodeField_lt rs
  exact encodeMisc_row rfl rfl (by decide) (by omega)

theorem EncodedRow.ldi (rd : Field) (imm : Nat) : EncodedRow.Statement (.ldi rd imm) := by
  intro h
  have h : imm ≤ 65535 := by simpa [operandCheck, refuseUnless_none] using h
  have := encodeField_lt rd
  intro w hw p hp
  cases hw
  rw [fixedBits, List.mem_singleton] at hp
  subst hp
  rw [show 2 ^ 29 + 2 * 2 ^ 25 + (imm * 2 ^ 8 + encodeField rd) = 36 * 2 ^ 24 + (imm * 2 ^ 8 + encodeField rd) by omega]
  exact bits_head (by omega) (by omega) (by omega)

theorem EncodedRow.mov (rd : Field) (src : Operand) : EncodedRow.Statement (.mov rd src) := by
  intro h
  cases src with
  | reg f => exact encodeAlu_row (op := .reg f) (k := 255) rfl rfl (by decide) rfl (by decide)
  | imm v => exact EncodedRow.ldi rd v h

theorem EncodedRow.mvib (dst src : MviOperand) : EncodedRow.Statement (.mvib dst src) := by
  intro _ w hw
  cases hw

theorem EncodedRow.mviw (dst src : MviOperand) : EncodedRow.Statement (.mviw dst src) := by
  intro _ w hw
  cases hw

theorem EncodedRow.mvid (dst src : MviOperand) : EncodedRow.Statement (.mvid dst src) := by
  intro _ w hw
  cases hw

theorem EncodedRow.lbbo (start : Fin 128) (base : Fin 32) (op : Operand) (cnt : Count) : EncodedRow.Statement (.lbbo start base op cnt) := by
  intro h
  simp only [operandCheck, Option.orElse_eq_orElse, Option.orElse_eq_or, Option.or_eq_none_iff] at h
  exact encodeBurst_row rfl rfl (by decide) h.1 h.2

theorem EncodedRow.sbbo (start : Fin 128) (base : Fin 32) (op : Operand) (cnt : Count) : EncodedRow.Statement (.sbbo start base op cnt) := by
  intro h
  simp only [operandCheck, Option.orElse_eq_orElse, Option.orElse_eq_or, Option.or_eq_none_iff] at h
  exact encodeBurst_row rfl rfl (by decide) h.1 h.2

theorem EncodedRow.lbco (start : Fin 128) (base : Fin 32) (op : Operand) (cnt : Count) : EncodedRow.Statement (.lbco start base op cnt) := by
  intro h
  simp only [operandCheck, Option.orElse_eq_orElse, Option.orElse_eq_or, Option.or_eq_none_iff] at h
  exact encodeBurst_row rfl rfl (by decide) h.1 h.2

theorem EncodedRow.sbco (start : Fin 128) (base : Fin 32) (op : Operand) (cnt : Count) : EncodedRow.Statement (.sbco start base op cnt) := by
  intro h
  simp only [operandCheck, Option.orElse_eq_orElse, Option.orElse_eq_or, Option.or_eq_none_iff] at h
  exact encodeBurst_row rfl rfl (by decide) h.1 h.2

theorem EncodedRow.zero (start len : Nat) : EncodedRow.Statement (.zero start len) := by
  intro h
  simp only [operandCheck, Option.orElse_eq_orElse, Option.orElse_eq_or, Option.or_eq_none_iff, refuseUnless_none,
    decide_eq_true_eq] at h
  intro w hw p hp
  have h1 := encodeStart_lt (n := start) (by omega)
  rw [fixedBits, List.mem_singleton] at hp
  subst hp
  cases hw
  simp only [encodeCount]
  rw [show 2 ^ 29 + 7 * 2 ^ 25 + (1 * 2 ^ 23 + 255 * 2 ^ 15 + (len - 1) * 2 ^ 7 + encodeStart start)
    = 24063 * 2 ^ 15 + ((len - 1) * 2 ^ 7 + encodeStart start) by omega]
  exact bits_head (by omega) (by omega) (by omega)

theorem EncodedRow.xin (dev : Nat) (start : Fin 128) (cnt : Count) : EncodedRow.Statement (.xin dev start cnt) := by
  intro h
  simp only [operandCheck, Option.orElse_eq_orElse, Option.orElse_eq_or, Option.or_eq_none_iff, refuseUnless_none,
    decide_eq_true_eq] at h
  exact encodeXfr_row rfl rfl (by decide) (by omega) (encodeCount_lt h.2)

theorem EncodedRow.xout (dev : Nat) (start : Fin 128) (cnt : Count) : EncodedRow.Statement (.xout dev start cnt) := by
  intro h
  simp only [operandCheck, Option.orElse_eq_orElse, Option.orElse_eq_or, Option.or_eq_none_iff, refuseUnless_none,
    decide_eq_true_eq] at h
  exact encodeXfr_row rfl rfl (by decide) (by omega) (encodeCount_lt h.2)

theorem EncodedRow.xchg (dev : Nat) (start : Fin 128) (cnt : Count) : EncodedRow.Statement (.xchg dev start cnt) := by
  intro h
  simp only [operandCheck, Option.orElse_eq_orElse, Option.orElse_eq_or, Option.or_eq_none_iff, refuseUnless_none,
    decide_eq_true_eq] at h
  exact encodeXfr_row rfl rfl (by decide) (by omega) (encodeCount_lt h.2)

theorem EncodedRow.jmp (target : Operand) : EncodedRow.Statement (.jmp target) :=
  fun h => encodeMisc_row rfl rfl (by decide) (encodeTarget_lt h).1

theorem EncodedRow.jal (rd : Field) (target : Operand) : EncodedRow.Statement (.jal rd target) := by
  intro h
  obtain ⟨h1, h2⟩ := encodeTarget_lt (op := target) h
  have := encodeField_lt rd
  exact encodeMisc_row rfl rfl (by decide) (by omega)

theorem EncodedRow.qbgt (dist : Int) (rs : Field) (op : Operand) : EncodedRow.Statement (.qbgt dist rs op) :=
  fun h => encodeBranch_row (k := 255) rfl rfl (by decide) h (by decide)

theorem EncodedRow.qbge (dist : Int) (rs : Field) (op : Operand) : EncodedRow.Statement (.qbge dist rs op) :=
  fun h => encodeBranch_row (k := 255) rfl rfl (by decide) h (by decide)

theorem EncodedRow.qblt (dist : Int) (rs : Field) (op : Operand) : EncodedRow.Statement (.qblt dist rs op) :=
  fun h => encodeBranch_row (k := 255) rfl rfl (by decide) h (by decide)

theorem EncodedRow.qble (dist : Int) (rs : Field) (op : Operand) : EncodedRow.Statement (.qble dist rs op) :=
  fun h => encodeBranch_row (k := 255) rfl rfl (by decide) h (by decide)

theorem EncodedRow.qbeq (dist : Int) (rs : Field) (op : Operand) : EncodedRow.Statement (.qbeq dist rs op) :=
  fun h => encodeBranch_row (k := 255) rfl rfl (by decide) h (by decide)

theorem EncodedRow.qbne (dist : Int) (rs : Field) (op : Operand) : EncodedRow.Statement (.qbne dist rs op) :=
  fun h => encodeBranch_row (k := 255) rfl rfl (by decide) h (by decide)

theorem EncodedRow.qba (dist : Int) : EncodedRow.Statement (.qba dist) := by
  intro _ w hw p hp
  rw [fixedBits, List.mem_singleton] at hp
  subst hp
  simp only [encode, encodeBranch] at hw
  cases hd : encodeDist dist with
  | none => rw [hd] at hw; cases hw
  | some d =>
    rw [hd] at hw
    obtain ⟨h5, h6⟩ := encodeDist_lt hd
    cases hw
    exact bits_head (by omega) (by omega) (by omega)

theorem EncodedRow.qbbs (dist : Int) (rs : Field) (op : Operand) : EncodedRow.Statement (.qbbs dist rs op) :=
  fun h => encodeBranch_row (k := 31) rfl rfl (by decide) h (by decide)

theorem EncodedRow.qbbc (dist : Int) (rs : Field) (op : Operand) : EncodedRow.Statement (.qbbc dist rs op) :=
  fun h => encodeBranch_row (k := 31) rfl rfl (by decide) h (by decide)

theorem EncodedRow.wbs (rs : Field) (op : Operand) : EncodedRow.Statement (.wbs rs op) :=
  fun h => encodeBranch_row (k := 31) (dist := 0) rfl rfl (by decide) h (by decide)

theorem EncodedRow.wbc (rs : Field) (op : Operand) : EncodedRow.Statement (.wbc rs op) :=
  fun h => encodeBranch_row (k := 31) (dist := 0) rfl rfl (by decide) h (by decide)

theorem EncodedRow.halt : EncodedRow.Statement .halt := by
  intro _ w hw p hp
  cases hw
  rw [fixedBits, List.mem_singleton] at hp
  subst hp
  rfl

theorem EncodedRow.slp (wake : Bool) : EncodedRow.Statement (.slp wake) := by
  intro _ w hw p hp
  cases hw
  cases wake <;> (simp only [fixedBits, List.mem_cons, List.not_mem_nil, or_false] at hp; obtain rfl | rfl := hp <;> rfl)

theorem EncodedRow.loop (dist : Int) (cnt : Operand) : EncodedRow.Statement (.loop dist cnt) := by
  intro h w hw p hp
  simp only [fixedBits, List.mem_cons, List.not_mem_nil, or_false] at hp
  cases cnt with
  | reg f =>
    have := encodeField_lt f
    simp only [encode] at hw
    split at hw
    · cases hw
      obtain rfl | rfl := hp <;> simp only [bits, BitVec.toNat_ofNat] <;> omega
    · cases hw
  | imm v =>
    have h : 1 ≤ v ∧ v ≤ 256 := by simpa [operandCheck, refuseUnless_none] using h
    simp only [encode] at hw
    split at hw
    · cases hw
      obtain rfl | rfl := hp <;> simp only [bits, BitVec.toNat_ofNat] <;> omega
    · cases hw

end Sys2Proof.Laws
end

