-- ==== Sys2Proof/Laws/Encoding.lean ====
section
/-! SUPPORT. How each part of a word decodes, given that it was encoded, and the other way: the pieces of the two round trips
(30_encoding.md R121 to R129). -/

namespace Sys2Proof.Laws

theorem decodeSel_encode (sel : Sel) : decodeSel (encodeSel sel) = sel := by cases sel <;> rfl

theorem decodeField_encode (f : Field) (b : Nat) (hb : b % 256 = encodeField f) : decodeField b = f := by
  obtain ⟨⟨n, hn⟩, sel⟩ := f
  have h1 : Fin.ofNat 32 b = ⟨n, hn⟩ := by
    apply Fin.ext
    simp only [Fin.ofNat]
    cases sel <;> simp only [encodeField, encodeSel] at hb <;> omega
  have h2 : b / 32 % 8 = encodeSel sel := by
    cases sel <;> simp only [encodeField, encodeSel] at hb ⊢ <;> omega
  simp only [decodeField, h2, decodeSel_encode]
  rw [h1]

theorem operand_imm_le {n v : Nat} (h : Operand.check n (.imm v) = none) : v ≤ n := by
  simpa [Operand.check, refuseUnless_none] using h

/-- The `OP(n)` operand of formats 1, 2, 4, 5 and 6. -/
theorem decodeOp_encode {n : Nat} {op : Operand} (h : op.check n = none) (_hn : n ≤ 255) (w : Word)
    (hw : w.toNat / 2 ^ 16 % 2 ^ 9 * 2 ^ 16 = encodeOp op) : decodeOp w = op := by
  unfold decodeOp
  cases op with
  | imm v =>
    have := operand_imm_le h
    simp only [encodeOp] at hw
    rw [if_pos (by simp only [bits]; omega)]
    congr 1
    simp only [bits]; omega
  | reg f =>
    have := encodeField_lt f
    simp only [encodeOp] at hw
    rw [if_neg (by simp only [bits]; omega)]
    congr 1
    apply decodeField_encode
    simp only [bits]; omega

/-- The fields of a format 1 word. -/
theorem encodeAlu_bits {n k : Nat} {rd rs : Field} {op : Operand} {w : Word}
    (hw : encodeAlu n rd rs op = some w) (hn : n < 16) (h : op.check k = none) (hk : k ≤ 255) :
    decode w = .ok (decodeAlu w) ∧ bits w 28 25 = n ∧ decodeField (bits w 7 0) = rd ∧ decodeField (bits w 15 8) = rs
      ∧ decodeOp w = op := by
  have h2 := encodeField_lt rd
  have h3 := encodeField_lt rs
  obtain ⟨h1, h4⟩ := encodeOp_lt h hk
  cases hw
  have e : (BitVec.ofNat 32 (n * 2 ^ 25 + encodeOp op + encodeField rs * 2 ^ 8 + encodeField rd)).toNat
      = n * 2 ^ 25 + encodeOp op + encodeField rs * 2 ^ 8 + encodeField rd := by
    rw [BitVec.toNat_ofNat]; omega
  refine ⟨?_, ?_, ?_, ?_, ?_⟩
  · have : bits (BitVec.ofNat 32 (n * 2 ^ 25 + encodeOp op + encodeField rs * 2 ^ 8 + encodeField rd)) 31 29
        = 0 := by
      simp only [bits, e]; omega
    rw [decode, this]; rfl
  · simp only [bits, e]; omega
  · apply decodeField_encode; simp only [bits, e]; omega
  · apply decodeField_encode; simp only [bits, e]; omega
  · apply decodeOp_encode h hk; rw [e]; omega

/-- The fields of a format 2 word. -/
theorem encodeMisc_bits {n low : Nat} {w : Word} (hw : encodeMisc n low = some w) (hn : n < 16) (h : low < 2 ^ 25) :
    decode w = decodeMisc w ∧ bits w 28 25 = n ∧ w.toNat = 2^29 + n * 2^25 + low := by
  have hw' : w = BitVec.ofNat 32 (2 ^ 29 + n * 2 ^ 25 + low) := (Option.some.inj hw).symm
  have e : w.toNat = 2 ^ 29 + n * 2 ^ 25 + low := by
    rw [hw', BitVec.toNat_ofNat]; omega
  clear hw hw'
  refine ⟨?_, ?_, e⟩
  · have : bits w 31 29 = 1 := by simp only [bits, e]; omega
    rw [decode, this]; rfl
  · simp only [bits, e]; omega

theorem decodeCount_encode {c : Count} (h : c.check = none) : decodeCount (encodeCount c) = c := by
  cases c with
  | imm n =>
    have : 1 ≤ n ∧ n ≤ 124 := by simpa [Count.check, refuseUnless_none] using h
    show (if n - 1 < 124 then Count.imm (n - 1 + 1) else _) = _
    rw [if_pos (by omega)]; congr 1; omega
  | r0 k =>
    show (if 124 + (k : Nat) < 124 then _ else Count.r0 (Fin.ofNat 4 (124 + k))) = _
    rw [if_neg (by omega)]; congr 1; apply Fin.ext; simp only [Fin.ofNat]; omega

theorem decodeStart_encode (s : Fin 128) (w : Word) (h : w.toNat % 128 = encodeStart s) : decodeStart w = s := by
  have := s.isLt
  apply Fin.ext
  simp only [encodeStart] at h
  have e1 : bits w 4 0 = w.toNat % 32 := by simp [bits]
  have e2 : bits w 6 5 = w.toNat / 32 % 4 := rfl
  simp only [decodeStart, Fin.ofNat, e1, e2]
  have h3 : w.toNat % 32 = s / 4 := by omega
  have h4 : w.toNat / 32 % 4 = s % 4 := by omega
  rw [h3, h4]; omega

theorem decodeDist_encode {dist : Int} {d : Nat} {w : Word} (hd : encodeDist dist = some d)
    (h1 : w.toNat / 2 ^ 25 % 4 = d / 2 ^ 25) (h2 : w.toNat % 256 = d % 256) : decodeDist w = dist := by
  unfold encodeDist at hd
  split at hd
  · cases hd
    unfold decodeDist
    have e1 : bits w 26 25 = w.toNat / 2^25 % 4 := rfl
    have e2 : bits w 7 0 = w.toNat % 256 := by simp [bits]
    rw [e1, e2, h1, h2]
    dsimp only
    split <;> omega
  · cases hd

/-- The fields of a word of format 4 or 5. -/
theorem encodeBranch_bits {n k : Nat} {dist : Int} {rs : Field} {op : Operand} {w : Word}
    (hw : encodeBranch n dist (branchOperands rs op) = some w) (hn : n < 32) (h : op.check k = none) (hk : k ≤ 255) :
    bits w 31 27 = n ∧ decodeDist w = dist ∧ decodeField (bits w 15 8) = rs ∧ decodeOp w = op := by
  obtain ⟨h1, h4⟩ := encodeOp_lt h hk
  have h2 := encodeField_lt rs
  rw [encodeBranch] at hw
  cases hd : encodeDist dist with
  | none => rw [hd] at hw; cases hw
  | some d =>
    rw [hd] at hw
    have h7 := decodeDist_encode (w := w) hd
    obtain ⟨h5, h6⟩ := encodeDist_lt hd
    cases hw
    set w := BitVec.ofNat 32 (n * 2 ^ 27 + d + branchOperands rs op)
    have e : w.toNat = n * 2 ^ 27 + d + branchOperands rs op := by
      rw [BitVec.toNat_ofNat]; simp only [branchOperands]; omega
    simp only [branchOperands] at e
    refine ⟨?_, h7 ?_ ?_, ?_, ?_⟩
    · simp only [bits, e]; omega
    · rw [e]; omega
    · rw [e]; omega
    · apply decodeField_encode; simp only [bits, e]; omega
    · apply decodeOp_encode h hk; rw [e]; omega

/-- A number put together from the fields of a format 6 word, taken apart again. -/
theorem burst_fields {v n x o y b z r : Nat}
    (hv : v = n * 2 ^ 28 + x * 2 ^ 25 + o * 2 ^ 16 + y * 2 ^ 13 + b * 2 ^ 8 + z * 2 ^ 7 + r)
    (hx : x < 8) (ho : o < 512) (hy : y < 8) (hb : b < 32) (hz : z < 2) (hr : r < 128) :
    v / 2 ^ 28 = n ∧ v / 2 ^ 25 % 8 = x ∧ v / 2 ^ 16 % 512 = o ∧ v / 2 ^ 13 % 8 = y ∧ v / 2 ^ 8 % 32 = b
      ∧ v / 2 ^ 7 % 2 = z ∧ v % 128 = r := by
  refine ⟨?_, ?_, ?_, ?_, ?_, ?_, ?_⟩ <;> omega

/-- The fields of a format 6 word. -/
theorem encodeBurst_bits {n : Nat} {start : Fin 128} {base : Fin 32} {op : Operand} {cnt : Count} {w : Word}
    (hw : encodeBurst n start base op cnt = some w) (hn : n < 16)
    (h : op.check 255 = none) (hc : cnt.check = none) :
    bits w 31 29 = n / 2 ∧ bits w 28 28 = n % 2
      ∧ decodeCount (bits w 27 25 * 16 + bits w 15 13 * 2 + bits w 7 7) = cnt ∧ decodeStart w = start
      ∧ Fin.ofNat 32 (bits w 12 8) = base ∧ decodeOp w = op := by
  obtain ⟨h1, h4⟩ := encodeOp_lt h (by omega)
  have h2 := encodeStart_lt start.isLt
  have h3 := encodeCount_lt hc
  have h5 := base.isLt
  have h6 := decodeCount_encode hc
  have hw' : w = BitVec.ofNat 32 (n * 2 ^ 28 + encodeCount cnt / 16 * 2 ^ 25 + encodeOp op
      + encodeCount cnt / 2 % 8 * 2 ^ 13 + base * 2 ^ 8 + encodeCount cnt % 2 * 2 ^ 7 + encodeStart start) :=
    (Option.some.inj hw).symm
  clear hw
  obtain ⟨o, ho⟩ : ∃ o, encodeOp op = o * 2^16 := ⟨encodeOp op / 2^16, by omega⟩
  obtain ⟨x, hx⟩ : ∃ x, x = encodeCount cnt / 16 := ⟨_, rfl⟩
  obtain ⟨y, hy⟩ : ∃ y, y = encodeCount cnt / 2 % 8 := ⟨_, rfl⟩
  obtain ⟨z, hz⟩ : ∃ z, z = encodeCount cnt % 2 := ⟨_, rfl⟩
  have hx8 : x < 8 := by omega
  have hy8 : y < 8 := by omega
  have hz2 : z < 2 := by omega
  have ho9 : o < 512 := by omega
  have hsum : encodeCount cnt = x * 16 + y * 2 + z := by omega
  have e : w.toNat = n * 2 ^ 28 + x * 2 ^ 25 + o * 2^16 + y * 2 ^ 13 + base * 2 ^ 8
      + z * 2 ^ 7 + encodeStart start := by
      rw [hw', ← hx, ← hy, ← hz, ho, BitVec.toNat_ofNat]; omega
  obtain ⟨b28, b25, b16, b13, b8, b7, b0⟩ := burst_fields e hx8 ho9 hy8 h5 hz2 h2
  clear hw' hx hy hz e
  refine ⟨?_, ?_, ?_, ?_, ?_, ?_⟩
  · have : w.toNat / 2 ^ 29 = n / 2 := by rw [← b28, Nat.div_div_eq_div_mul, ← pow_succ]
    simp only [bits, this]; omega
  · have : bits w 28 28 = w.toNat / 2 ^ 28 % 2 := rfl
    rw [this, b28]
  · have e1 : bits w 27 25 = x := b25
    have e2 : bits w 15 13 = y := b13
    have e3 : bits w 7 7 = z := b7
    rw [e1, e2, e3, ← hsum, h6]
  · exact decodeStart_encode _ _ b0
  · have e1 : bits w 12 8 = base := b8
    rw [e1]; apply Fin.ext; simp only [Fin.ofNat]; omega
  · apply decodeOp_encode h (by omega); rw [ho]; rw [show (2:Nat)^9 = 512 by norm_num, b16]

/-- The target of JMP and JAL. -/
theorem decodeTarget_encode {op : Operand} (h : op.check 65535 = none) (w : Word)
    (hw : w.toNat / 2 ^ 8 % 2 ^ 17 * 2 ^ 8 = encodeTarget op) : decodeTarget w = op := by
  unfold decodeTarget
  cases op with
  | imm v =>
    have := operand_imm_le h
    simp only [encodeTarget] at hw
    rw [if_pos (by simp only [bits]; omega)]
    congr 1
    simp only [bits]; omega
  | reg f =>
    have := encodeField_lt f
    simp only [encodeTarget] at hw
    rw [if_neg (by simp only [bits]; omega)]
    congr 1
    apply decodeField_encode
    simp only [bits]; omega

/-- The fields of an XFR word. -/
theorem encodeXfr_bits {dir dev code : Nat} {start : Fin 128} {w : Word}
    (hw : encodeXfr dir dev start code = some w) (hd : dir < 4) (hv : dev < 256) (hc : code < 128) :
    decode w = decodeXfr w ∧ bits w 24 23 = dir ∧ bits w 22 15 = dev ∧ bits w 14 14 = 0
      ∧ bits w 13 7 = code ∧ decodeStart w = start := by
  have h1 := encodeStart_lt start.isLt
  obtain ⟨a, b, c⟩ := encodeMisc_bits hw (by omega) (by omega)
  refine ⟨?_, ?_, ?_, ?_, ?_, ?_⟩
  · rw [a, decodeMisc, b]; rfl
  · simp only [bits, c]; omega
  · simp only [bits, c]; omega
  · simp only [bits, c]; omega
  · simp only [bits, c]; omega
  · apply decodeStart_encode; rw [c]; omega

/-- Bits 31:27 from 8 to 15 are format 4. -/
theorem decode_compare {w : Word} {n : Nat} (h : bits w 31 27 = n) (h1 : 8 ≤ n) (h2 : n < 16) :
    decode w = decodeCompare w ∧ bits w 29 27 = n % 8 := by
  simp only [bits] at h
  refine ⟨?_, by simp only [bits]; omega⟩
  have : bits w 31 29 = 2 ∨ bits w 31 29 = 3 := by simp only [bits]; omega
  rcases this with e | e <;> (rw [decode, e]; rfl)

/-- Bits 31:27 from 24 to 27 are format 5. -/
theorem decode_bitTest {w : Word} {n : Nat} (h : bits w 31 27 = n) (h1 : 24 ≤ n) (h2 : n < 28) :
    decode w = decodeBitTest w ∧ bits w 28 27 = n % 4 := by
  simp only [bits] at h
  refine ⟨?_, by simp only [bits]; omega⟩
  have e : bits w 31 29 = 6 := by simp only [bits]; omega
  rw [decode, e]; rfl

/-! The other way: how each part of a word that was decoded encodes. -/

theorem encodeField_decode (b : Nat) : encodeField (decodeField b) = b % 256 := by
  have h : ∀ c, c < 8 → encodeSel (decodeSel c) = c := by decide
  simp only [encodeField, decodeField, Fin.ofNat]
  rw [h _ (by omega)]; omega

theorem encodeOp_decode (w : Word) : encodeOp (decodeOp w) = w.toNat / 2 ^ 16 % 2 ^ 9 * 2 ^ 16 := by
  unfold decodeOp
  split <;> rename_i h
  · simp only [bits] at h; simp only [encodeOp, bits]; omega
  · simp only [bits] at h; simp only [encodeOp, encodeField_decode, bits]; omega

theorem word_ofNat {w : Word} {n : Nat} (h : n = w.toNat) : some (BitVec.ofNat 32 n) = some w := by
  rw [h, BitVec.ofNat_toNat, BitVec.setWidth_eq]

theorem encodeAlu_decode (w : Word) (k : Nat) (h1 : bits w 31 29 = 0) (h2 : bits w 28 25 = k) :
    encodeAlu k (decodeField (bits w 7 0)) (decodeField (bits w 15 8)) (decodeOp w) = some w := by
  unfold encodeAlu
  apply word_ofNat
  rw [encodeOp_decode, encodeField_decode, encodeField_decode]
  have := w.isLt
  simp only [bits] at *; omega

theorem encodeMisc_decode (w : Word) (k low : Nat) (h1 : bits w 31 29 = 1) (h2 : bits w 28 25 = k)
    (h : low = w.toNat % 2 ^ 25) : encodeMisc k low = some w := by
  unfold encodeMisc
  apply word_ofNat
  have := w.isLt
  simp only [bits] at *; omega

theorem encodeCount_decode (c : Nat) (h : c < 128) : encodeCount (decodeCount c) = c := by
  revert c; decide

theorem startCode (x : Nat) :
    (4 * (x % 32) + x / 32 % 4) % 128 % 4 * 32 + (4 * (x % 32) + x / 32 % 4) % 128 / 4 = x % 128 := by
  obtain ⟨a, ha⟩ : ∃ a, a = x % 32 := ⟨_, rfl⟩
  obtain ⟨b, hb⟩ : ∃ b, b = x / 32 % 4 := ⟨_, rfl⟩
  have : x % 128 = b * 32 + a := by omega
  have ha' : a < 32 := by omega
  have hb' : b < 4 := by omega
  rw [← ha, ← hb, this]
  clear this ha hb
  have e1 : (4 * a + b) % 128 = 4 * a + b := by omega
  have e2 : (4 * a + b) % 4 = b := by omega
  have e3 : (4 * a + b) / 4 = a := by omega
  rw [e1, e2, e3]

theorem encodeStart_decode (w : Word) : encodeStart (decodeStart w) = w.toNat % 128 := by
  have e1 : bits w 4 0 = w.toNat % 32 := by simp [bits]
  have e2 : bits w 6 5 = w.toNat / 32 % 4 := rfl
  simp only [decodeStart, encodeStart, e1, e2, Fin.ofNat]
  exact startCode _

theorem encodeDist_decode (w : Word) :
    encodeDist (decodeDist w) = some (w.toNat / 2 ^ 25 % 4 * 2 ^ 25 + w.toNat % 256) := by
  have e : ∃ v, v = bits w 26 25 * 256 + bits w 7 0 := ⟨_, rfl⟩
  obtain ⟨v, hv⟩ := e
  have hlt : v < 1024 := by simp only [bits] at hv; omega
  have hd : decodeDist w = if v < 512 then (v:Int) else (v : Int) - 1024 := by rw [hv]; rfl
  have hr : -512 ≤ decodeDist w ∧ decodeDist w ≤ 511 := by rw [hd]; split <;> omega
  have hm : (decodeDist w % 1024).toNat = v := by rw [hd]; split <;> omega
  clear hd
  generalize decodeDist w = dd at *
  unfold encodeDist
  rw [if_pos hr, hm]
  have e1 : bits w 26 25 = w.toNat / 2 ^ 25 % 4 := rfl
  have e2 : bits w 7 0 = w.toNat % 256 := by simp [bits]
  have hv' : v = w.toNat / 2 ^ 25 % 4 * 256 + w.toNat % 256 := by rw [← e1, ← e2]; exact hv
  have h1 : v / 256 = w.toNat / 2 ^ 25 % 4 := by omega
  have h2 : v % 256 = w.toNat % 256 := by omega
  exact congrArg some (by rw [← h1, ← h2])

theorem encodeBranch_decode (w : Word) (k : Nat) (h : bits w 31 27 = k) :
    encodeBranch k (decodeDist w) (branchOperands (decodeField (bits w 15 8)) (decodeOp w)) = some w := by
  unfold encodeBranch
  rw [encodeDist_decode]
  apply word_ofNat
  rw [branchOperands, encodeOp_decode, encodeField_decode]
  have := w.isLt
  simp only [bits] at *; omega

theorem encodeTarget_decode (w : Word) (h : ¬ (bits w 24 24 = 0 ∧ bits w 15 8 ≠ 0)) :
    encodeTarget (decodeTarget w) = w.toNat / 2 ^ 8 % 2 ^ 17 * 2 ^ 8 := by
  unfold decodeTarget
  split <;> rename_i h
  · simp only [bits] at *; simp only [encodeTarget]; omega
  · simp only [encodeTarget, encodeField_decode]; simp only [bits] at *; omega

/-- A number is the sum of the fields a format 6 word has, the length code put together and taken apart. -/
theorem burstSum (x k : Nat) (h : x / 2 ^ 28 = k) :
    k * 2 ^ 28 + (x / 2 ^ 25 % 8 * 16 + x / 2 ^ 13 % 8 * 2 + x / 2 ^ 7 % 2) / 16 * 2 ^ 25
      + x / 2 ^ 16 % 2 ^ 9 * 2 ^ 16
      + (x / 2 ^ 25 % 8 * 16 + x / 2 ^ 13 % 8 * 2 + x / 2 ^ 7 % 2) / 2 % 8 * 2 ^ 13 + x / 2 ^ 8 % 32 % 32 * 2 ^ 8
      + (x / 2 ^ 25 % 8 * 16 + x / 2 ^ 13 % 8 * 2 + x / 2 ^ 7 % 2) % 2 * 2 ^ 7 + x % 128 = x := by
  obtain ⟨p, hp⟩ : ∃ p, p = x / 2 ^ 25 % 8 := ⟨_, rfl⟩
  obtain ⟨q, hq⟩ : ∃ p, p = x / 2 ^ 13 % 8 := ⟨_, rfl⟩
  obtain ⟨r, hr⟩ : ∃ p, p = x / 2 ^ 7 % 2 := ⟨_, rfl⟩
  rw [← hp, ← hq, ← hr]
  have e1 : (p * 16 + q * 2 + r) / 16 = p := by omega
  have e2 : (p * 16 + q * 2 + r) / 2 % 8 = q := by omega
  have e3 : (p * 16 + q * 2 + r) % 2 = r := by omega
  rw [e1, e2, e3]
  clear e1 e2 e3
  omega

theorem encodeBurst_decode (w : Word) (k : Nat) (h : w.toNat / 2 ^ 28 = k) :
    encodeBurst k (decodeStart w) (Fin.ofNat 32 (bits w 12 8)) (decodeOp w)
      (decodeCount (bits w 27 25 * 16 + bits w 15 13 * 2 + bits w 7 7)) = some w := by
  unfold encodeBurst
  apply word_ofNat
  rw [encodeCount_decode _ (by simp only [bits]; omega), encodeOp_decode, encodeStart_decode]
  exact burstSum _ _ h

theorem encodeXfr_decode (w : Word) (k : Nat) (h1 : bits w 31 29 = 1) (h2 : bits w 28 25 = 7)
    (h3 : bits w 24 23 = k) (h4 : bits w 14 14 = 0) :
    encodeXfr k (bits w 22 15) (decodeStart w) (bits w 13 7) = some w := by
  unfold encodeXfr
  apply encodeMisc_decode w _ _ h1 h2
  rw [encodeStart_decode]
  simp only [bits] at *; omega

end Sys2Proof.Laws
end

