-- ==== Sys2Proof/Laws/Program.lean ====
section
/-! SUPPORT. The check of a whole program (30_encoding.md R109, 60_exceptions.md R321): what it finds, and what it says of
the instruction the fetch finds. -/

namespace Sys2Proof.Machine

theorem instr_ok {sl : Slot} {i : Instr} : sl.instr = .ok i ↔ Holds sl i := by
  cases sl <;> simp [Slot.instr, Holds]

/-- The check of one entry. -/
theorem slot_illFormed {p : Config.Params} {c : Nat × Slot} {why : IllFormed} :
    c.2.illFormed p (BitVec.ofNat 16 c.1) = some why ↔ EntryIllFormed p c why := by
  obtain ⟨a, sl⟩ := c
  unfold EntryIllFormed
  simp only [← instr_ok, Slot.illFormed]
  cases h : sl.instr with
  | ok i =>
    cases sl with
    | asm j => simp
    | word w =>
      simp only [Slot.instr] at h
      simp [h]
  | error e =>
    cases sl with
    | asm j => cases h
    | word w =>
      simp only [Slot.instr] at h
      cases e <;> simp [h, isUndescribed, eq_comm]

/-- The check of a program finds its first ill-formed entry. -/
theorem illFormed_some {s : State} {why : IllFormed} :
    s.imem.illFormed s.params = some why ↔ ProgramIllFormed s why := by
  simp only [InstrMemory.illFormed, List.findSome?_eq_some_iff, slot_illFormed, ProgramIllFormed]
  constructor
  · rintro ⟨pre, c, post, hl, hc, hp⟩
    refine ⟨pre, c, post, hl, fun q hq w hw => ?_, hc⟩
    rw [← slot_illFormed, hp q hq] at hw
    cases hw
  · rintro ⟨pre, c, post, hl, hp, hc⟩
    exact ⟨pre, c, post, hl, hc, fun q hq => Option.eq_none_iff_forall_ne_some.mpr fun w hw =>
      hp q hq w (slot_illFormed.mp hw)⟩

/-- The check of a program finds nothing. -/
theorem illFormed_none {s : State} : s.imem.illFormed s.params = none ↔ ProgramWellFormed s := by
  simp only [InstrMemory.illFormed, List.findSome?_eq_none_iff, ProgramWellFormed]
  refine forall₂_congr fun c hc => ?_
  rw [Option.eq_none_iff_forall_ne_some]
  exact forall_congr' fun why => not_congr slot_illFormed

theorem cellAt_mem {α : Type} {a : Nat} {v : α} : ∀ {m : List (Nat × α)}, cellAt a m = some v → (a, v) ∈ m
  | (b, w) :: rest, h => by
    unfold cellAt at h
    split at h
    · next e => cases h; rw [e]; exact .head _
    · exact .tail _ (cellAt_mem h)

/-- What a fetch that finds an instruction found. -/
theorem fetch_ok {s : State} {i : Instr} (h : s.fetch = .ok i) :
    s.pcOut = false ∧ ∃ sl, s.imem.fetch s.pc = some sl ∧ Holds sl i := by
  unfold State.fetch at h
  split at h
  · cases h
  · next hp =>
    split at h
    · cases h
    · next sl hsl =>
      split at h
      · next j hj => cases h; exact ⟨by simpa using hp, sl, hsl, instr_ok.mp hj⟩
      · cases h

/-- The fetch of what an address holds. -/
theorem fetch_of_holds {s : State} {i : Instr} {sl : Slot} (hp : s.pcOut = false) (hs : s.imem.fetch s.pc = some sl)
    (hi : Holds sl i) : s.fetch = .ok i := by simp [State.fetch, hp, hs, instr_ok.mpr hi]

/-- In a well-formed program, the instruction at `pc` is well-formed there. -/
theorem fetch_wellFormed {s : State} {i : Instr} (hp : ProgramWellFormed s) (h : s.fetch = .ok i) :
    check s.params s.pc i = none := by
  obtain ⟨-, sl, hs, hi⟩ := fetch_ok h
  rw [Option.eq_none_iff_forall_ne_some]
  intro why hw
  refine hp (s.pc.toNat, sl) (cellAt_mem hs) why (.inl ⟨i, hi, ?_⟩)
  simpa using hw

/-- A running core with a well-formed program. -/
theorem runInstr_of_wellFormed {s : State} (hp : ProgramWellFormed s) :
    s.runInstr = match s.fetch with
      | .error f => .fault f
      | .ok i => tick (settled (exec i s)) := by
  cases h : s.fetch <;> simp [State.runInstr, illFormed_none.mpr hp, h]

end Sys2Proof.Machine
end

