-- ==== Sys2Proof/Laws/Step.lean ====
section
/-! SUPPORT. All that one step can do: the step inverted into the moves of the core and of the host. -/

namespace Sys2Proof.Machine

/-- The state a move starts from: the host's schedule with its head taken off. -/
def State.popped (s : State) : State := s.withHost s.host.tail

@[simp] theorem State.popped_regs (s : State) : s.popped.regs = s.regs := rfl
@[simp] theorem State.popped_carry (s : State) : s.popped.carry = s.carry := rfl
@[simp] theorem State.popped_pc (s : State) : s.popped.pc = s.pc := rfl
@[simp] theorem State.popped_pcOut (s : State) : s.popped.pcOut = s.pcOut := rfl
@[simp] theorem State.popped_loopCounter (s : State) : s.popped.loopCounter = s.loopCounter := rfl
@[simp] theorem State.popped_loopTop (s : State) : s.popped.loopTop = s.loopTop := rfl
@[simp] theorem State.popped_loopEnd (s : State) : s.popped.loopEnd = s.loopEnd := rfl
@[simp] theorem State.popped_run (s : State) : s.popped.run = s.run := rfl
@[simp] theorem State.popped_dmem (s : State) : s.popped.dmem = s.dmem := rfl
@[simp] theorem State.popped_imem (s : State) : s.popped.imem = s.imem := rfl
@[simp] theorem State.popped_params (s : State) : s.popped.params = s.params := rfl
@[simp] theorem State.popped_history (s : State) : s.popped.history = s.history := rfl
@[simp] theorem State.popped_moment (s : State) : s.popped.moment = s.moment := rfl
@[simp] theorem State.popped_meanwhile (s : State) : s.popped.meanwhile = s.meanwhile := rfl
theorem State.popped_fetch (s : State) : s.popped.fetch = s.fetch := rfl

/-- What a move of the core can leave: an instruction done, or nothing, or a sleeper awake. -/
inductive CoreMove (s : State) : State → Prop where
  /-- an instruction ran -/
  | ran {i : Instr} {u : State} (hrun : s.run = .running) (hf : s.fetch = .ok i)
      (hc : check s.params s.pc i = none) (he : exec i s.popped = .next u) : CoreMove s (u.settle.laterBy 1)
  /-- the core is stopped -/
  | idle (hrun : s.run ≠ .running) : CoreMove s s.popped
  /-- a sleeper that waits for an event, at its next moment -/
  | asleep (hrun : s.run = .sleeping true) (hw : Config.wakeEvent s.history s.moment = false) :
      CoreMove s (s.popped.laterBy 1)
  /-- a sleeper woken by an event -/
  | woke (hrun : s.run = .sleeping true) (hw : Config.wakeEvent s.history s.moment = true) :
      CoreMove s ((s.popped.withRun .running).laterBy 1)

/-- What a step can leave. -/
inductive StepMove (s : State) : State → Prop where
  | core {t : State} (hm : CoreMoves s) (h : CoreMove s t) : StepMove s t
  | enable (hm : HostMoves s .enable) : StepMove s (if s.run = .halted then s.popped.withRun .running else s.popped)
  | wake {w : Bool} (hm : HostMoves s .clearSleeping) (hrun : s.run = .sleeping w) :
      StepMove s (s.popped.withRun .running)
  | clear (hm : HostMoves s .clearSleeping) (hrun : ∀ w, s.run ≠ .sleeping w) : StepMove s s.popped
  | reset (hm : HostMoves s .reset) : StepMove s s.popped.resetCore
  | writeImem {a : InstrAddr} {sl : Option Slot} (hm : HostMoves s (.writeImem a sl)) (hrun : s.run = .halted) :
      StepMove s (s.popped.withImem (s.imem.replace a sl))
  | agentWrite {a : Word} {v : Byte} (hm : HostMoves s (.agentWrite a v)) :
      StepMove s (s.popped.withDmem (s.dmem.write a.toNat v))
  | meanwhile {d : Meanwhile} (hm : HostMoves s (.meanwhile d)) : StepMove s (s.popped.withMeanwhile d)

theorem tick_next {r : Result} {t : State} (h : tick r = .next t) : ∃ u, r = .next u ∧ t = u.laterBy 1 := by
  cases r with
  | next u => cases h; exact ⟨u, rfl, rfl⟩
  | fault f => cases h
  | refused f => cases h

theorem settled_next {r : Result} {t : State} (h : settled r = .next t) : ∃ u, r = .next u ∧ t = u.settle := by
  cases r with
  | next u => cases h; exact ⟨u, rfl, rfl⟩
  | fault f => cases h
  | refused f => cases h

/-- A move of the core that ends in a next state. -/
theorem coreStep_next {s t : State} (h : s.popped.coreStep = .next t) : CoreMove s t := by
  unfold State.coreStep at h
  rw [State.popped_run] at h
  split at h
  · next hrun =>
    unfold State.runInstr at h
    rw [State.popped_imem, State.popped_params, State.popped_fetch] at h
    split at h
    · cases h
    · next hp =>
      split at h
      · cases h
      · next i hf =>
        obtain ⟨v, hv, rfl⟩ := tick_next h
        obtain ⟨u, he, rfl⟩ := settled_next hv
        exact .ran hrun hf (fetch_wellFormed (illFormed_none.mp hp) hf) he
  · next hrun => cases h; exact .idle (by rw [hrun]; decide)
  · next hrun => cases h; exact .idle (by rw [hrun]; decide)
  · next hrun =>
    rw [State.popped_history, State.popped_moment] at h
    split at h
    · next hw => obtain ⟨u, he, rfl⟩ := tick_next h; cases he; exact .woke hrun hw
    · next hw => obtain ⟨u, he, rfl⟩ := tick_next h; cases he; exact .asleep hrun (by simpa using hw)

/-- All that a step can do. -/
theorem step_next {s t : State} (h : step s = .next t) : StepMove s t := by
  unfold step State.cycle at h
  split at h
  · next hh =>
    have ht : s.host.tail = s.host := by rw [hh]; rfl
    have hp : s.popped = s := by rw [State.popped, ht]; rfl
    rw [← hp] at h
    exact .core (.inl hh) (coreStep_next h)
  · next m rest hh =>
    have hp : s.withHost rest = s.popped := by rw [State.popped, hh]; rfl
    rw [hp] at h
    cases m with
    | core => exact .core (.inr ⟨rest, hh⟩) (coreStep_next h)
    | enable => cases h; exact .enable ⟨rest, hh⟩
    | clearSleeping =>
      cases h
      rw [State.popped_run]
      split
      · next w hr => exact .wake ⟨rest, hh⟩ hr
      · next hr => exact .clear ⟨rest, hh⟩ (fun w => by rw [hr]; simp)
      · next hr => exact .clear ⟨rest, hh⟩ (fun w => by rw [hr]; simp)
    | reset => cases h; exact .reset ⟨rest, hh⟩
    | writeImem a sl =>
      simp only [State.hostStep] at h
      split at h
      · next hr => cases h; exact .writeImem ⟨rest, hh⟩ hr
      · cases h
    | agentWrite a v => cases h; exact .agentWrite ⟨rest, hh⟩
    | meanwhile d => cases h; exact .meanwhile ⟨rest, hh⟩

end Sys2Proof.Machine
end

