-- ==== Sys2Proof/Laws/Exec.lean ====
section
/-! SUPPORT. All that any instruction can do, in six shapes: which parts of the state it may change at all. -/

namespace Sys2Proof.Machine

/-- Only registers were written and events added. -/
structure Quiet (s u : State) : Prop where
  carry : u.carry = s.carry
  pc : u.pc = s.pc
  loopCounter : u.loopCounter = s.loopCounter
  loopTop : u.loopTop = s.loopTop
  loopEnd : u.loopEnd = s.loopEnd
  run : u.run = s.run
  dmem : u.dmem = s.dmem
  imem : u.imem = s.imem
  params : u.params = s.params
  host : u.host = s.host
  moment : u.moment = s.moment
  meanwhile : u.meanwhile = s.meanwhile
  history : ∃ es, u.history = s.history ++ es

theorem Quiet.refl (s : State) : Quiet s s := ⟨rfl, rfl, rfl, rfl, rfl, rfl, rfl, rfl, rfl, rfl, rfl, rfl, [], by simp⟩

theorem Quiet.trans {a b c : State} (h : Quiet a b) (g : Quiet b c) : Quiet a c :=
  ⟨g.carry.trans h.carry, g.pc.trans h.pc, g.loopCounter.trans h.loopCounter, g.loopTop.trans h.loopTop,
    g.loopEnd.trans h.loopEnd, g.run.trans h.run, g.dmem.trans h.dmem, g.imem.trans h.imem, g.params.trans h.params,
    g.host.trans h.host, g.moment.trans h.moment, g.meanwhile.trans h.meanwhile, by
      obtain ⟨e, he⟩ := h.history
      obtain ⟨f, hf⟩ := g.history
      exact ⟨e ++ f, by rw [hf, he, List.append_assoc]⟩⟩

theorem quiet_emit (s : State) (es : List Config.Event) : Quiet s (s.emit es) :=
  ⟨rfl, rfl, rfl, rfl, rfl, rfl, rfl, rfl, rfl, rfl, rfl, rfl, es, rfl⟩

theorem quiet_rfPut (s : State) (o : Nat) (bs : List Byte) : Quiet s (s.rfPut o bs) :=
  ⟨rfl, rfl, rfl, rfl, rfl, rfl, rfl, rfl, rfl, rfl, rfl, rfl, _, rfl⟩

theorem quiet_wr (s : State) (f : Field) (v : Word) : Quiet s (s.wr f v) := by
  unfold State.wr
  split
  · exact quiet_emit _ _
  · exact quiet_rfPut _ _ _

theorem quiet_mviPre (s : State) (n : Nat) (op : MviOperand) : Quiet s (s.mviPre n op) := by
  cases op with
  | ptrDec k => exact quiet_wr s (byteField 1 k) _
  | _ => exact Quiet.refl _

theorem quiet_mviPost (s : State) (n p : Nat) (op : MviOperand) : Quiet s (s.mviPost n p op) := by
  cases op with
  | ptrInc k => exact quiet_wr s (byteField 1 k) _
  | _ => exact Quiet.refl _

theorem quiet_mviStore (s : State) (n p : Nat) (v : Word) (op : MviOperand) : Quiet s (s.mviStore n p v op) := by
  cases op with
  | direct f => exact quiet_wr _ _ _
  | _ => exact quiet_rfPut _ _ _

/-- What an instruction that ends in a next state can leave. -/
inductive ExecMove (i : Instr) (s : State) : State → Prop where
  /-- registers, events, `pc` -/
  | plain {u : State} {a : Int} (h : Quiet s u) : ExecMove i s (u.next a)
  /-- and the carry -/
  | arith {u : State} {c : Bool} {a : Int} (hi : ∃ mk ∈ arithOps, ∃ rd rs op, i = mk rd rs op) (h : Quiet s u) :
      ExecMove i s ((u.withCarry c).next a)
  /-- and data memory -/
  | store {o n : Nat} {addr : Word}
      (hi : ∃ start base op cnt, i = .sbbo start base op cnt ∨ i = .sbco start base op cnt) :
      ExecMove i s (s.storeRun o n addr).advance
  | halt (hi : i = .halt) : ExecMove i s (s.withRun .halted)
  | slp {w : Bool} (hi : i = .slp w) : ExecMove i s (s.withRun (.sleeping w)).advance
  | loop {dist : Int} {cnt : Operand} {a : Int} (hi : i = .loop dist cnt) : ExecMove i s ((s.armLoop dist cnt).next a)

theorem execMove_result {i : Instr} {s t : State} {rd : Field} {v : Word} (h : s.result rd v = .next t) :
    ExecMove i s t := by cases h; exact .plain (quiet_wr _ _ _)

theorem execMove_arith {i : Instr} {s t : State} {rd : Field} {r : Int}
    (hi : ∃ mk ∈ arithOps, ∃ rd rs op, i = mk rd rs op) (h : s.arith rd r = .next t) : ExecMove i s t := by
  cases h; exact .arith hi (quiet_wr _ _ _)

theorem execMove_branch {i : Instr} {s t : State} {b : Bool} {d : Int} (h : s.branch b d = .next t) :
    ExecMove i s t := by cases h; exact .plain (Quiet.refl _)

theorem execMove_mvi {i : Instr} {s t : State} {n : Nat} {dst src : MviOperand} (h : s.mvi n dst src = .next t) :
    ExecMove i s t := by
  rcases mvi_cases s n dst src with e | e | e
  · rw [e] at h; cases h
  · rw [e] at h; cases h
  · rw [e] at h
    cases h
    exact .plain (((((quiet_mviPre _ _ _).trans (quiet_mviPost _ _ _ _)).trans (quiet_mviPre _ _ _)).trans
      (quiet_mviStore _ _ _ _ _)).trans (quiet_mviPost _ _ _ _))

theorem execMove_load {i : Instr} {s t : State} {start : Fin 128} {base : Word} {op : Operand} {cnt : Count}
    (h : s.burst false start base op cnt = .next t) : ExecMove i s t := by
  rcases burst_cases s false start base op cnt with ⟨f, -, e⟩ | ⟨-, -, e⟩ | ⟨-, k, -, e⟩
  · rw [e] at h; cases h
  · rw [e] at h; cases h
  · rw [e] at h; cases h; exact .plain ((quiet_emit _ _).trans (quiet_rfPut _ _ _))

theorem execMove_store {i : Instr} {s t : State} {start : Fin 128} {base : Word} {op : Operand} {cnt : Count}
    (hi : ∃ start base op cnt, i = .sbbo start base op cnt ∨ i = .sbco start base op cnt)
    (h : s.burst true start base op cnt = .next t) : ExecMove i s t := by
  rcases burst_cases s true start base op cnt with ⟨f, -, e⟩ | ⟨-, -, e⟩ | ⟨-, k, -, e⟩
  · rw [e] at h; cases h
  · rw [e] at h; cases h
  · rw [e] at h; cases h; exact .store hi

theorem execMove_transfer {i : Instr} {s t : State} {start : Fin 128} {cnt : Count} {move : Nat → State}
    (hm : ∀ n, Quiet s (move n)) (h : s.transfer start cnt move = .next t) : ExecMove i s t := by
  rcases transfer_cases s start cnt move with ⟨f, -, e⟩ | ⟨-, e⟩
  · rw [e] at h; cases h
  · rw [e] at h; cases h; exact .plain (hm _)

/-- All that an instruction can do. -/
theorem exec_next {i : Instr} {s t : State} (h : exec i s = .next t) : ExecMove i s t := by
  cases i with
  | add rd rs op => exact execMove_arith ⟨.add, by simp [arithOps], rd, rs, op, rfl⟩ h
  | adc rd rs op => exact execMove_arith ⟨.adc, by simp [arithOps], rd, rs, op, rfl⟩ h
  | sub rd rs op => exact execMove_arith ⟨.sub, by simp [arithOps], rd, rs, op, rfl⟩ h
  | suc rd rs op => exact execMove_arith ⟨.suc, by simp [arithOps], rd, rs, op, rfl⟩ h
  | rsb rd rs op => exact execMove_arith ⟨.rsb, by simp [arithOps], rd, rs, op, rfl⟩ h
  | rsc rd rs op => exact execMove_arith ⟨.rsc, by simp [arithOps], rd, rs, op, rfl⟩ h
  | lsl rd rs op => exact execMove_result h
  | lsr rd rs op => exact execMove_result h
  | and rd rs op => exact execMove_result h
  | or rd rs op => exact execMove_result h
  | xor rd rs op => exact execMove_result h
  | not rd rs => exact execMove_result h
  | min rd rs op => exact execMove_result h
  | max rd rs op => exact execMove_result h
  | clr rd rs op => exact execMove_result h
  | set rd rs op => exact execMove_result h
  | lmbd rd rs op => exact execMove_result h
  | mov rd src => exact execMove_result h
  | ldi rd imm => exact execMove_result h
  | scan rn op =>
    simp only [exec, execScan] at h
    split at h
    · split at h <;> cases h <;> exact .plain ((quiet_wr _ _ _).trans (quiet_wr _ _ _))
    · cases h
  | mvib dst src => exact execMove_mvi h
  | mviw dst src => exact execMove_mvi h
  | mvid dst src => exact execMove_mvi h
  | lbbo start base op cnt => exact execMove_load h
  | lbco start base op cnt => exact execMove_load h
  | sbbo start base op cnt => exact execMove_store ⟨start, base, op, cnt, .inl rfl⟩ h
  | sbco start base op cnt => exact execMove_store ⟨start, base, op, cnt, .inr rfl⟩ h
  | zero start len =>
    simp only [exec, execZero] at h
    split at h
    · cases h; exact .plain (quiet_rfPut _ _ _)
    · cases h
  | xin dev start cnt => exact execMove_transfer (fun _ => quiet_rfPut _ _ _) h
  | xout dev start cnt => exact execMove_transfer (fun _ => quiet_emit _ _) h
  | xchg dev start cnt =>
    simp only [exec, execXchg] at h
    split at h
    · cases h
    · exact execMove_transfer (fun _ => quiet_rfPut _ _ _) h
    · exact execMove_transfer (fun _ => (quiet_emit _ _).trans (quiet_rfPut _ _ _)) h
  | jmp target =>
    simp only [exec, execJmp] at h
    split at h
    · cases h; exact .plain (Quiet.refl _)
    · cases h
  | jal rd target =>
    simp only [exec, execJal] at h
    split at h
    · cases h; exact .plain (quiet_wr _ _ _)
    · cases h
  | qbgt dist rs op => exact execMove_branch h
  | qbge dist rs op => exact execMove_branch h
  | qblt dist rs op => exact execMove_branch h
  | qble dist rs op => exact execMove_branch h
  | qbeq dist rs op => exact execMove_branch h
  | qbne dist rs op => exact execMove_branch h
  | qba dist => exact execMove_branch h
  | qbbs dist rs op => exact execMove_branch h
  | qbbc dist rs op => exact execMove_branch h
  | wbs rs op => exact execMove_branch h
  | wbc rs op => exact execMove_branch h
  | halt => cases h; exact .halt rfl
  | slp wake => cases h; exact .slp rfl
  | loop dist cnt => cases h; exact .loop rfl

theorem burst_not_refused {s : State} {write : Bool} {start : Fin 128} {base : Word} {op : Operand} {cnt : Count}
    {r : Refusal} : s.burst write start base op cnt ≠ .refused r := by
  rcases burst_cases s write start base op cnt with ⟨f, -, e⟩ | ⟨-, -, e⟩ | ⟨-, k, -, e⟩ <;> rw [e] <;> simp

theorem transfer_not_refused {s : State} {start : Fin 128} {cnt : Count} {move : Nat → State} {r : Refusal} :
    s.transfer start cnt move ≠ .refused r := by
  rcases transfer_cases s start cnt move with ⟨f, -, e⟩ | ⟨-, e⟩ <;> rw [e] <;> simp

theorem mvi_not_refused {s : State} {n : Nat} {dst src : MviOperand} {r : Refusal} : s.mvi n dst src ≠ .refused r := by
  rcases mvi_cases s n dst src with e | e | e <;> rw [e] <;> simp

/-- The one refusal of `exec`: XCHG under the parameter `refuse` (R226). -/
theorem exec_refused {i : Instr} {s : State} {r : Refusal} (h : exec i s = .refused r) :
    ∃ dev start cnt, i = .xchg dev start cnt ∧ s.params.xchg = .refuse := by
  cases i with
  | xchg dev start cnt =>
    simp only [exec, execXchg] at h
    split at h
    · next hx => exact ⟨dev, start, cnt, rfl, hx⟩
    · exact absurd h transfer_not_refused
    · exact absurd h transfer_not_refused
  | xin dev start cnt => exact absurd h transfer_not_refused
  | xout dev start cnt => exact absurd h transfer_not_refused
  | lbbo start base op cnt => exact absurd h burst_not_refused
  | sbbo start base op cnt => exact absurd h burst_not_refused
  | lbco start base op cnt => exact absurd h burst_not_refused
  | sbco start base op cnt => exact absurd h burst_not_refused
  | mvib dst src => exact absurd h mvi_not_refused
  | mviw dst src => exact absurd h mvi_not_refused
  | mvid dst src => exact absurd h mvi_not_refused
  | scan rn op =>
    simp only [exec, execScan] at h
    split at h
    · split at h <;> cases h
    · cases h
  | zero start len => simp only [exec, execZero] at h; split at h <;> cases h
  | jmp target => simp only [exec, execJmp] at h; split at h <;> cases h
  | jal rd target => simp only [exec, execJal] at h; split at h <;> cases h
  | _ => cases h

end Sys2Proof.Machine
end

