-- ==== Sys2Proof/Laws/Mvi.lean ====
section
/-! SUPPORT. The two sides of MVIx (42_register_load_store.md R203, R207): what the source side and the destination side
leave, and when the instruction stops. -/

namespace Sys2Proof.Machine

/-- A pointer is its byte of the register file. -/
theorem pointer_eq (s : State) (k : Fin 4) : s.pointer k = pointerByte s k := by
  rw [State.pointer, rd_eq_bytes, pointerByte]
  fin_cases k <;> simp [byteField, Field.off, Field.width, selLow, selWidth, State.rfRun, fromBytes]

theorem byteField_shape (k : Fin 4) :
    Field.off (byteField 1 k) = 4 + k ∧ Field.width (byteField 1 k) / 8 = 1 ∧ (byteField 1 k).reg ≠ 31 := by
  fin_cases k <;> simp [byteField, Field.off, Field.width, selLow, selWidth]

/-- A pointer update, modulo 256 (R203). -/
theorem setPointer_wrote (s : State) (k : Fin 4) (p : Nat) :
    WroteField s (s.setPointer k p) (byteField 1 k) (p % 256) := by
  have := wr_wrote s (byteField 1 k) (BitVec.ofNat 32 (p % 256))
  rwa [BitVec.toNat_ofNat, Nat.mod_eq_of_lt (show p % 256 < 2 ^ 32 by omega)] at this

/-- The register file after a pointer update. -/
theorem setPointer_rf (s : State) (k : Fin 4) (p j : Nat) (hj : j < 124) :
    (s.setPointer k p).rf j = if j = 4 + k then BitVec.ofNat 8 p else s.rf j := by
  have h := setPointer_wrote s k p
  obtain ⟨b1, b2, b3⟩ := byteField_shape k
  rw [WroteField, if_neg b3, b1, b2] at h
  rw [h.1 j hj]
  by_cases e : j = 4 + (k : Nat)
  · subst e
    rw [if_pos (by omega), if_pos rfl]
    apply BitVec.eq_of_toNat_eq
    simp
  · rw [if_neg e, if_neg (by omega)]

theorem setPointer_pointerByte (s : State) (k k' : Fin 4) (p : Nat) :
    pointerByte (s.setPointer k p) k' = if k' = k then p % 256 else pointerByte s k' := by
  rw [pointerByte, setPointer_rf _ _ _ _ (by omega)]
  by_cases e : k' = k
  · subst e; simp
  · rw [if_neg e, if_neg (fun h => e (Fin.ext (by omega)))]; rfl

/-- The offset an operand goes through. -/
theorem mviOffset_eq (s : State) (n : Nat) (op : MviOperand) : (s.mviPre n op).mviOffset op = mviStart n s op := by
  cases op <;> simp [State.mviPre, State.mviOffset, mviPointer, mviStart, pointer_eq, setPointer_pointerByte]

/-- The range check of an operand. -/
theorem mviInRange_iff (s : State) (n : Nat) (op : MviOperand) :
    (s.mviPre n op).mviInRange n op = true ↔ MviFits n s op := by
  have := mviOffset_eq s n op
  cases op <;> simp_all [State.mviInRange, mviPointer, MviFits, MviOperand.isPointer, State.mviOffset]

/-- The source side of an operand that fits. -/
theorem mvi_source (s : State) (n : Nat) (src : MviOperand) (hn : n ≤ 4) (hf : MviFits n s src) :
    MviSource n s (s.mviFetched n src) ((s.mviPre n src).mviValue n src).toNat src := by
  have hpow : (256 : Nat) ^ n ≤ 2 ^ 32 := by
    calc (256 : Nat) ^ n ≤ 256 ^ 4 := Nat.pow_le_pow_right (by norm_num) hn
      _ = 2 ^ 32 := by norm_num
  have hv : ∀ (u : State) (o : Nat), HoldsNumber u o n (BitVec.ofNat 32 (fromBytes (u.rfRun o n))).toNat := by
    intro u o
    have h := (holdsNumber_iff u o n _).mpr rfl
    rwa [BitVec.toNat_ofNat, Nat.mod_eq_of_lt (lt_of_lt_of_le h.1 hpow)]
  cases src with
  | direct f => exact ⟨⟨fun _ _ => rfl, rfl⟩, rfl⟩
  | ptr k =>
    refine ⟨⟨fun _ _ => rfl, rfl⟩, ?_⟩
    simpa [State.mviPre, State.mviValue, pointer_eq] using hv s (pointerByte s k)
  | ptrInc k =>
    have h1 := hf rfl
    simp only [mviStart] at h1
    refine ⟨?_, ?_⟩
    · simpa [State.mviPre, State.mviValue, pointer_eq] using hv s (pointerByte s k)
    · have := setPointer_wrote s k (pointerByte s k + n)
      rw [Nat.mod_eq_of_lt (by omega)] at this
      simpa [State.mviFetched, State.mviPre, State.mviPost, State.mviOffset, mviPointer, pointer_eq] using this
  | ptrDec k =>
    refine ⟨?_, ?_⟩
    · simpa [State.mviFetched, State.mviPre, State.mviPost, pointer_eq]
        using setPointer_wrote s k (pointerByte s k + 256 - n)
    · simpa [State.mviFetched, State.mviPre, State.mviPost, State.mviValue, pointer_eq, setPointer_pointerByte]
        using hv (s.setPointer k (pointerByte s k + 256 - n)) ((pointerByte s k + 256 - n) % 256)

/-- The low bytes of a word, written to a range. -/
theorem rfPut_toBytes_wrote (s : State) (n p : Nat) (v : Word) (h : p + n ≤ 124) :
    WroteRange s (s.rfPut p (toBytes n v)) p n (fun i => BitVec.ofNat 8 (v.toNat / 256 ^ i)) [] := by
  have := rfPut_wrote s p (toBytes n v) (by rw [toBytes_length]; exact h)
  rw [toBytes_length] at this
  refine ⟨fun k hk => (this.1 k hk).trans ?_, this.2⟩
  split
  · exact (toBytes_getD _ _ _ (by omega)).trans (byteOf_toNat _ _)
  · rfl

/-- The destination side of an operand that fits. -/
theorem mvi_dest (m : State) (n : Nat) (dst : MviOperand) (v : Word) (hf : MviFits n m dst) :
    MviDest n m (((m.mviPre n dst).mviStore n ((m.mviPre n dst).mviOffset dst) v dst).mviPost n
      ((m.mviPre n dst).mviOffset dst) dst) v.toNat dst := by
  rw [mviOffset_eq m n dst]
  cases dst with
  | direct f => exact wr_wrote m f v
  | ptr k => exact rfPut_toBytes_wrote m n (pointerByte m k) v (hf rfl)
  | ptrInc k =>
    have h1 := hf rfl
    simp only [mviStart] at h1
    refine ⟨m.rfPut (pointerByte m k) (toBytes n v), rfPut_toBytes_wrote m n (pointerByte m k) v h1, ?_⟩
    have := setPointer_wrote (m.rfPut (pointerByte m k) (toBytes n v)) k (pointerByte m k + n)
    rw [Nat.mod_eq_of_lt (by omega)] at this
    exact this
  | ptrDec k =>
    refine ⟨m.setPointer k (pointerByte m k + 256 - n), setPointer_wrote _ _ _, ?_⟩
    have := rfPut_toBytes_wrote (m.setPointer k (pointerByte m k + 256 - n)) n ((pointerByte m k + 256 - n) % 256) v
      (hf rfl)
    simpa [State.mviPre, State.mviStore, State.mviPost, mviStart, pointer_eq] using this

/-- A pointer as the source side leaves it. -/
theorem pointerByte_fetched (s : State) (n : Nat) (src : MviOperand) (k : Fin 4) :
    pointerByte (s.mviFetched n src) k = pointerAfter n s src k := by
  cases src with
  | direct f => rfl
  | ptr j => rfl
  | ptrInc j =>
    by_cases e : j = k
    · subst e
      simp [State.mviFetched, State.mviPre, State.mviPost, State.mviOffset, mviPointer, setPointer_pointerByte,
        pointer_eq, pointerAfter]
    · simp [State.mviFetched, State.mviPre, State.mviPost, setPointer_pointerByte, pointerAfter, e, Ne.symm e]
  | ptrDec j =>
    by_cases e : j = k
    · subst e
      simp [State.mviFetched, State.mviPre, State.mviPost, setPointer_pointerByte, pointer_eq, pointerAfter]
    · simp [State.mviFetched, State.mviPre, State.mviPost, setPointer_pointerByte, pointerAfter, e, Ne.symm e]

/-- The offset the destination side goes through, whatever the source side did. -/
theorem mviTarget_eq (s : State) (n : Nat) (dst src : MviOperand) :
    mviStart n (s.mviFetched n src) dst = mviTarget n s src dst := by
  cases dst <;> simp [mviStart, mviTarget, pointerByte_fetched]

/-- The range check of the destination side. -/
theorem mviReady_inRange_iff (s : State) (n : Nat) (dst src : MviOperand) :
    (s.mviReady n dst src).mviInRange n dst = true ↔ MviTargetFits n s dst src := by
  rw [State.mviReady, mviInRange_iff, MviFits, mviTarget_eq]
  rfl

/-- The source side does not move the destination's pointer, but where R207 (a) says so. -/
theorem mviStart_fetched (s : State) (n : Nat) (dst src : MviOperand) (h : ¬ MviSamePointer dst src) :
    mviStart n (s.mviFetched n src) dst = mviStart n s dst := by
  have key : ∀ k, mviPointer dst = some k → pointerByte (s.mviFetched n src) k = pointerByte s k := by
    intro k hk
    cases src with
    | direct f => rfl
    | ptr k' => rfl
    | ptrInc k' =>
      have hne : k ≠ k' := fun e => h ⟨⟨k, hk, by simp [mviPointer, e]⟩, by simp [mviUpdated]⟩
      simp [State.mviFetched, State.mviPre, State.mviPost, setPointer_pointerByte, hne]
    | ptrDec k' =>
      have hne : k ≠ k' := fun e => h ⟨⟨k, hk, by simp [mviPointer, e]⟩, by simp [mviUpdated]⟩
      simp [State.mviFetched, State.mviPre, State.mviPost, setPointer_pointerByte, hne]
  cases dst <;> simp [mviStart, mviPointer] at * <;> rw [key]

/-- What the source does not settle, where R207 (a) does not hold. -/
theorem mviUnsettled_iff (n : Nat) (s : State) (dst src : MviOperand) (h : ¬ MviSamePointer dst src) :
    mviUnsettled n (mviStart n s dst) dst src = true ↔ MviClobbers n s dst src := by
  have h1 : (decide (mviPointer dst = mviPointer src) && (mviPointer dst).isSome
      && ((mviUpdated dst).isSome || (mviUpdated src).isSome)) = false := by
    rw [← Bool.not_eq_true]
    intro hc
    simp only [Bool.and_eq_true, decide_eq_true_eq, Bool.or_eq_true] at hc
    obtain ⟨⟨e, hs⟩, hu⟩ := hc
    obtain ⟨k, hk⟩ := Option.isSome_iff_exists.mp hs
    exact h ⟨⟨k, hk, e ▸ hk⟩, hu⟩
  rw [mviUnsettled, h1]
  simp only [Bool.false_or, Bool.or_eq_true, MviClobbers, mviClobbers]
  constructor
  · rintro (h | h)
    · split at h
      · next k hk => exact ⟨k, .inl hk, h⟩
      · cases h
    · split at h
      · next k hk => exact ⟨k, .inr hk, h⟩
      · cases h
  · rintro ⟨k, hk | hk, hw⟩
    · left; rw [hk]; exact hw
    · right; rw [hk]; exact hw

/-- R207 (a) is unsettled whatever the offset. -/
theorem mviUnsettled_of_same (n p : Nat) {dst src : MviOperand} (h : MviSamePointer dst src) :
    mviUnsettled n p dst src = true := by
  obtain ⟨⟨k, h1, h2⟩, h3⟩ := h
  have : (decide (mviPointer dst = mviPointer src) && (mviPointer dst).isSome
      && ((mviUpdated dst).isSome || (mviUpdated src).isSome)) = true := by
    rw [h1, h2]; simpa using h3
  simp only [mviUnsettled, this, Bool.true_or]

end Sys2Proof.Machine
end

