-- ==== Sys2Proof/Tests/Slice0.lean ====
section
/-! SUPPORT. The model's own tests: an ill-formed term for each check, a word for each instruction's decoding, one step or
two of each instruction on a small state, and for each statement with hypotheses a state and operands that meet them.

Expected results come from spec/: the numbers T<n> and P<n> are the vectors and programs of 95_test_vectors.md; the words
are put together by hand from 30_encoding.md R121 to R127. -/

namespace Sys2Proof.Tests

open Sys2Proof.Machine
open Config (Params)

/-! Small states and what is looked at in a result. -/

/-- The state right after reset with some registers given. -/
def given (regs : List (Nat × Word)) : State :=
  State.reset.withRegs (regs.foldl (fun v p => v.setIfInBounds p.1 p.2) State.reset.regs)

/-- `given`, at an instruction address and with a carry. -/
def givenAt (pc : InstrAddr) (carry : Bool) (regs : List (Nat × Word)) : State :=
  ((given regs).withPc pc false).withCarry carry

/-- A state with other parameters. -/
def withParams (s : State) (p : Params) : State := { s with params := p }

/-- A whole register as a field. -/
def r (n : Fin 32) : Field := ⟨n, .full⟩

/-- A whole register as an operand. -/
def rr (n : Fin 32) : Operand := .reg ⟨n, .full⟩

/-- A register, the carry and `pc` of the next state. -/
def out (n : Nat) : Result → Option (Word × Bool × Nat)
  | .next t => some (t.x n, t.carry, t.pc.toNat)
  | .fault _ => none
  | .refused _ => none

/-- A register of the next state. -/
def reg (n : Nat) : Result → Option Word
  | .next t => some (t.x n)
  | .fault _ => none
  | .refused _ => none

/-- The `pc` of the next state. -/
def pcOf : Result → Option Nat
  | .next t => some t.pc.toNat
  | .fault _ => none
  | .refused _ => none

/-- A byte of data memory of the next state. -/
def byteAt (a : Nat) : Result → Option Byte
  | .next t => some (t.dmem.read a)
  | .fault _ => none
  | .refused _ => none

/-- The fault a step ends in. -/
def faultOf : Result → Option Fault
  | .next _ => none
  | .fault f => some f
  | .refused _ => none

/-- The refusal a step ends in. -/
def refusalOf : Result → Option Refusal
  | .next _ => none
  | .fault _ => none
  | .refused r => some r

/-! Well-formedness: an ill-formed term for each check (30_encoding.md R108, R109). -/

/-- The parameters of a V1 core that has SCAN. -/
def v1 : Params := { Params.default with rev := .v1, hasScan := true }

theorem test_wf_immediate : check Params.default 0 (.add (r 1) (r 1) (.imm 256)) = some .immediateRange := by decide
theorem test_wf_shift : check Params.default 0 (.lsl (r 1) (r 1) (.imm 32)) = some .immediateRange := by decide
theorem test_wf_count : check Params.default 0 (.lbbo 8 1 (.imm 0) (.imm 0)) = some .countRange := by decide
theorem test_wf_zero_start : check Params.default 0 (.zero 124 1) = some .zeroStart := by decide
theorem test_wf_device : check Params.default 0 (.xin 254 8 (.imm 8)) = some .deviceId := by decide
theorem test_wf_no_pointer : check Params.default 0 (.mvib (.direct (r 2)) (.direct (r 3)))
    = some .noPointer := by decide
theorem test_wf_loop_count : check Params.default 0 (.loop 6 (.imm 0)) = some .loopCount := by decide
theorem test_wf_label : check Params.default 0 (.qba (-1)) = some .labelRange := by decide
theorem test_wf_branch_reach :
    check { Params.default with qbRange := some (-512, 511) } 0 (.qba 512) = some .branchReach := by decide
theorem test_wf_loop_reach :
    check { Params.default with loopRange := some (0, 255) } 0 (.loop 256 (.imm 3)) = some .loopReach := by decide
theorem test_wf_empty_loop : check Params.default 5 (.loop 1 (.imm 3)) = some .emptyLoop := by decide
theorem test_wf_revision :
    check Params.default 0 (.scan 30 (rr 1)) = some .notInRevision ∧ check v1 0 (.zero 8 8) = some .notInRevision := by decide
theorem test_wf_xchg : check Params.default 0 (.xchg 10 8 (.imm 8)) = some .xchgRefused := by decide
theorem test_wf_good :
    WellFormed Params.default 2 (.qbgt 7 ⟨2, .w0⟩ (.imm 5)) ∧ WellFormed v1 0 (.scan 30 (rr 1)) := by decide

/-! Decoding: a word of each instruction, its fields written out. MOV, WBS and WBC have the words of AND, LDI, QBBC and
QBBS; MVIB, MVIW and MVID have no known word. -/

-- format 1: 000, aluop, io, op2, rs1, rd
theorem test_decode_add : decode 0b000_0000_0_11100010_11100001_11100011 = .ok (.add (r 3) (r 1) (rr 2)) := by decide
theorem test_decode_adc : decode 0b000_0001_1_00001010_00000001_10000011
    = .ok (.adc ⟨3, .w0⟩ ⟨1, .b0⟩ (.imm 10)) := by decide
theorem test_decode_sub : decode 0b000_0010_0_11000010_00100001_11100011
    = .ok (.sub (r 3) ⟨1, .b1⟩ (.reg ⟨2, .w2⟩)) := by decide
theorem test_decode_suc : decode 0b000_0011_0_11100010_01000001_01100011
    = .ok (.suc ⟨3, .b3⟩ ⟨1, .b2⟩ (rr 2)) := by decide
theorem test_decode_lsl : decode 0b000_0100_1_00000010_11100011_11100011
    = .ok (.lsl (r 3) (r 3) (.imm 2)) := by decide
theorem test_decode_lsr : decode 0b000_0101_0_00000001_10100011_11100011
    = .ok (.lsr (r 3) ⟨3, .w1⟩ (.reg ⟨1, .b0⟩)) := by decide
theorem test_decode_rsb : decode 0b000_0110_1_11111111_11100011_11111110
    = .ok (.rsb (r 30) (r 3) (.imm 255)) := by decide
theorem test_decode_rsc : decode 0b000_0111_1_00001010_11100011_11100011
    = .ok (.rsc (r 3) (r 3) (.imm 10)) := by decide
theorem test_decode_and : decode 0b000_1000_1_11110111_00000011_00000011
    = .ok (.and ⟨3, .b0⟩ ⟨3, .b0⟩ (.imm 0xF7)) := by decide
theorem test_decode_or : decode 0b000_1001_0_11100010_11100001_11100011 = .ok (.or (r 3) (r 1) (rr 2)) := by decide
theorem test_decode_xor : decode 0b000_1010_0_11100011_11100010_11100010 = .ok (.xor (r 2) (r 2) (rr 3)) := by decide
theorem test_decode_not : decode 0b000_1011_1_00000000_00000001_10000001 = .ok (.not ⟨1, .w0⟩ ⟨1, .b0⟩) := by decide
theorem test_decode_min : decode 0b000_1100_1_01111111_00000001_11000001
    = .ok (.min ⟨1, .w2⟩ ⟨1, .b0⟩ (.imm 127)) := by decide
theorem test_decode_max : decode 0b000_1101_0_11100010_11100001_11100011 = .ok (.max (r 3) (r 1) (rr 2)) := by decide
theorem test_decode_clr : decode 0b000_1110_1_00000101_00000001_00100001
    = .ok (.clr ⟨1, .b1⟩ ⟨1, .b0⟩ (.imm 5)) := by decide
theorem test_decode_set : decode 0b000_1111_1_00000101_11111111_11111111
    = .ok (.set (r 31) (r 31) (.imm 5)) := by decide
-- format 2: 001, sub-op, then its fields
theorem test_decode_jmp : decode 0b001_0000_1_0001001000110100_00000000 = .ok (.jmp (.imm 0x1234))
    ∧ decode 0b001_0000_0_10000010_00000000_00000000 = .ok (.jmp (.reg ⟨2, .w0⟩)) := by decide
theorem test_decode_jal : decode 0b001_0001_0_10000010_00000000_11000010
    = .ok (.jal ⟨2, .w2⟩ (.reg ⟨2, .w0⟩)) := by decide
theorem test_decode_ldi : decode 0b001_0010_0_0001001000110100_11000001 = .ok (.ldi ⟨1, .w2⟩ 0x1234) := by decide
theorem test_decode_lmbd : decode 0b001_0011_1_00000000_10000011_01100011
    = .ok (.lmbd ⟨3, .b3⟩ ⟨3, .w0⟩ (.imm 0)) := by decide
theorem test_decode_scan : decode 0b001_0100_0_10000001_00000000_11111110
    = .ok (.scan 30 (.reg ⟨1, .w0⟩)) := by decide
theorem test_decode_halt : decode 0b001_0101_0_00000000_00000000_00000000 = .ok .halt := by decide
theorem test_decode_slp : decode 0b001_1111_0_1_00000000000000000000000 = .ok (.slp true)
    ∧ decode 0b001_1111_0_0_00000000000000000000000 = .ok (.slp false) := by decide
theorem test_decode_loop : decode 0b001_1000_1_00000100_0_0000000_00000100 = .ok (.loop 4 (.imm 5))
    ∧ decode 0b001_1000_0_11100010_0_0000000_00000101 = .ok (.loop 5 (rr 2)) := by decide
-- XFR: 001, 0111, direction, device, 0, length code, byte, register
theorem test_decode_xin : decode 0b001_0111_01_00001010_0_0000111_00_00010 = .ok (.xin 10 8 (.imm 8)) := by decide
theorem test_decode_xout : decode 0b001_0111_10_00001010_0_1111110_10_00010 = .ok (.xout 10 10 (.r0 2)) := by decide
theorem test_decode_xchg : decode 0b001_0111_11_11111101_0_1111011_00_00000
    = .ok (.xchg 253 0 (.imm 124)) := by decide
theorem test_decode_zero : decode 0b001_0111_01_11111111_0_0000001_01_00010 = .ok (.zero 9 2) := by decide
-- format 4: 01, gt, eq, lt, broff[9:8], io, op2, rs1, broff[7:0]
theorem test_decode_qblt : decode 0b01_001_00_1_00000101_10000010_00000111
    = .ok (.qblt 7 ⟨2, .w0⟩ (.imm 5)) := by decide
theorem test_decode_qbeq : decode 0b01_010_00_1_00000000_00111110_00000010
    = .ok (.qbeq 2 ⟨30, .b1⟩ (.imm 0)) := by decide
theorem test_decode_qble : decode 0b01_011_01_0_11100100_11100011_11111111 = .ok (.qble 511 (r 3) (rr 4)) := by decide
theorem test_decode_qbgt : decode 0b01_100_10_0_11100100_11100011_00000000
    = .ok (.qbgt (-512) (r 3) (rr 4)) := by decide
theorem test_decode_qbne : decode 0b01_101_11_1_00000000_11100001_11111110
    = .ok (.qbne (-2) (r 1) (.imm 0)) := by decide
theorem test_decode_qbge : decode 0b01_110_00_1_11111111_00000001_00000111
    = .ok (.qbge 7 ⟨1, .b0⟩ (.imm 255)) := by decide
theorem test_decode_qba : decode 0b01_111_11_0_00000000_00000000_11111011 = .ok (.qba (-5)) := by decide
-- format 5: 110, sense, broff[9:8], io, op2, rs1, broff[7:0]
theorem test_decode_qbbs : decode 0b110_10_00_1_00000101_00100001_00000111
    = .ok (.qbbs 7 ⟨1, .b1⟩ (.imm 5)) := by decide
theorem test_decode_qbbc : decode 0b110_01_00_0_11100001_11100011_00000111 = .ok (.qbbc 7 (r 3) (rr 1)) := by decide
-- format 6: 111 or 100, load, len[6:4], io, op2, len[3:1], rs1, len[0], byte, register
theorem test_decode_lbbo : decode 0b111_1_000_1_00000101_011_00001_1_00_00010
    = .ok (.lbbo 8 1 (.imm 5) (.imm 8)) := by decide
theorem test_decode_sbbo : decode 0b111_0_111_0_10000010_110_00001_0_00_00011
    = .ok (.sbbo 12 1 (.reg ⟨2, .w0⟩) (.r0 0)) := by decide
theorem test_decode_lbco : decode 0b100_1_111_1_00000100_101_00100_1_11_11110
    = .ok (.lbco 123 4 (.imm 4) (.imm 124)) := by decide
theorem test_decode_sbco : decode 0b100_0_111_1_11111111_111_11111_1_00_00010
    = .ok (.sbco 8 31 (.imm 255) (.r0 3)) := by decide
/-- The pseudo-ops' words (R129), and the words of the programs P1, P4, P5 that no theorem above has. -/
theorem test_encode_pseudo : encode (.mov (r 3) (rr 1)) = some 0x10E1E1E3
    ∧ encode (.wbs (r 31) (.imm 30)) = some 0xC91EFF00
    ∧ encode (.mov (r 1) (.imm 10)) = some 0x24000AE1 ∧ encode (.wbc (r 31) (.imm 0)) = some 0xD100FF00 := by decide
theorem test_encode_programs : encode (.sub (r 1) (r 1) (.imm 1)) = some 0x0501E1E1
    ∧ encode (.jal ⟨30, .w0⟩ (.imm 7)) = some 0x2300079E ∧ encode (.jmp (.reg ⟨30, .w0⟩)) = some 0x209E0000
    ∧ encode (.sbbo 8 1 (.imm 0) (.imm 4)) = some 0xE1002182 ∧ encode (.lbbo 13 1 (.imm 1) (.imm 2)) = some 0xF10101A3
    ∧ encode (.scan 30 (.reg ⟨1, .w0⟩)) = some 0x288100FE := by decide
/-- What R130 and R106 say is no instruction. -/
theorem test_decode_rejects : decode 0xA0000000 = .error .format101 ∧ decode 0x2C000000 = .error .mviGroup
    ∧ decode 0x32000000 = .error (.subop 9) ∧ decode 0x2E000000 = .error .xfrDirection
    ∧ decode 0x40000000 = .error .noRelation ∧ decode 0xC0000000 = .error .noBitSense
    ∧ decode 0x30008000 = .error .iloop ∧ decode 0x2EFF0000 = .error .fill
    ∧ decode 0x2A000001 = .error .reservedBits := by decide
theorem test_table_word : decodeTableWord 32 0x00E2E1E3 = some (.add (r 3) (r 1) (rr 2))
    ∧ decodeTableWord 32 0xA0000000 = none := by decide

/-! Arithmetic (T3, T4, T8, T12, T14, T17, T18, T21, T23, T25, T27, T28). -/

theorem test_add_wraps : out 3 (exec (.add (r 3) (r 1) (rr 2)) (given [(1, 0xFFFFFFFF), (2, 1)]))
    = some (0, true, 1) := by decide
theorem test_add_byte : out 1 (exec (.add ⟨1, .b0⟩ ⟨1, .b0⟩ (.imm 4)) (given [(1, 0xAABBCCFE)]))
    = some (0xAABBCC02, true, 1) := by decide
theorem test_adc_largest : out 3 (exec (.adc (r 3) (r 1) (rr 2)) (givenAt 0 true [(1, 0xFFFFFFFF), (2, 0xFFFFFFFF)]))
    = some (0xFFFFFFFF, true, 1) := by decide
theorem test_adc_carry_in : out 4 (exec (.adc (r 4) (r 4) (.imm 0)) (givenAt 0 true []))
    = some (1, false, 1) := by decide
theorem test_sub_borrow : out 3 (exec (.sub (r 3) (r 1) (rr 2)) (given [(2, 1)]))
    = some (0xFFFFFFFF, true, 1) := by decide
theorem test_sub_bit8 : out 2 (exec (.sub ⟨2, .b0⟩ (r 1) (.imm 0)) (given [(1, 0x100)]))
    = some (0, true, 1) := by decide
theorem test_suc_smallest : out 3 (exec (.suc (r 3) (r 1) (rr 2)) (givenAt 0 true [(2, 0xFFFFFFFF)]))
    = some (0, true, 1) := by decide
theorem test_suc_borrow_in : out 5 (exec (.suc (r 5) (r 5) (rr 7)) (givenAt 0 true [(5, 1)]))
    = some (0, false, 1) := by decide
theorem test_rsb_borrow : out 3 (exec (.rsb (r 3) (r 3) (.imm 10)) (given [(3, 11)]))
    = some (0xFFFFFFFF, true, 1) := by decide
theorem test_rsb_fields : out 3 (exec (.rsb (r 3) ⟨1, .b0⟩ (.reg ⟨2, .w2⟩)) (given [(1, 5), (2, 0x90000)]))
    = some (4, false, 1) := by decide
theorem test_rsc_borrow : out 3 (exec (.rsc (r 3) (r 3) (.imm 10)) (givenAt 0 true [(3, 10)]))
    = some (0xFFFFFFFF, true, 1) := by decide
theorem test_rsc_borrow_in : out 3 (exec (.rsc (r 3) (r 3) (.imm 10)) (givenAt 0 true [(3, 4)]))
    = some (5, false, 1) := by decide

/-! Shifts, logic, bits (T30, T32, T37, T39, T41, T42, T47, T52, T53, T54, T55, T60, T66, T69, T72, T77, T79, T80, T81). -/

theorem test_lsl_carry_kept : out 3 (exec (.lsl (r 3) (r 3) (.imm 2)) (givenAt 0 true [(3, 0xC0000001)]))
    = some (4, true, 1) := by decide
theorem test_lsl_by_32 : reg 3 (exec (.lsl (r 3) (r 3) (rr 1)) (given [(1, 0x20), (3, 0x12345678)]))
    = some 0x12345678 := by decide
theorem test_lsr_by_255 : reg 3 (exec (.lsr (r 3) (r 3) (.reg ⟨1, .b0⟩)) (given [(1, 0xFF), (3, 0x80000000)]))
    = some 1 := by decide
theorem test_lsr_half : reg 3 (exec (.lsr ⟨3, .w0⟩ (r 3) (.imm 16)) (given [(3, 0xABCD1234)])) = some 0xABCDABCD := by decide
theorem test_and_fields : reg 3 (exec (.and (r 3) ⟨1, .b0⟩ (.reg ⟨2, .w2⟩))
    (given [(1, 0xF3), (2, 0x350000), (3, 0xFFFFFFFF)])) = some 0x31 := by decide
theorem test_and_byte : reg 3 (exec (.and ⟨3, .b0⟩ ⟨3, .b0⟩ (.imm 0xF7)) (given [(3, 0x1234567F)]))
    = some 0x12345677 := by decide
theorem test_or_middle : reg 1 (exec (.or ⟨1, .w1⟩ ⟨1, .b0⟩ (.imm 0)) (given [(1, 0xAA0000CC)]))
    = some 0xAA00CCCC := by decide
theorem test_xor : reg 3 (exec (.xor (r 3) (r 1) (rr 2)) (given [(1, 0xFFFF0000), (2, 0x00FFFF00)]))
    = some 0xFF00FF00 := by decide
theorem test_not_widens : reg 1 (exec (.not ⟨1, .w0⟩ ⟨1, .b0⟩) (given [(1, 0x0F)])) = some 0xFFF0 := by decide
theorem test_not_narrows : reg 1 (exec (.not ⟨1, .b0⟩ (r 2)) (given [(2, 0xFFFFFF0F)])) = some 0xF0 := by decide
theorem test_min_unsigned : reg 3 (exec (.min (r 3) (r 1) (rr 2)) (given [(1, 0x80000000), (2, 0x7FFFFFFF)]))
    = some 0x7FFFFFFF := by decide
theorem test_min_truncated : reg 1 (exec (.min ⟨1, .b0⟩ (r 2) (rr 3)) (given [(2, 0x1FF), (3, 0x2FF)]))
    = some 0xFF := by decide
theorem test_max_unsigned : reg 3 (exec (.max (r 3) (r 1) (rr 2)) (given [(1, 0x80000000), (2, 0x7FFFFFFF)]))
    = some 0x80000000 := by decide
theorem test_clr_format3 : reg 3 (exec (.clrBit (r 3) ⟨r 1, 2⟩) (given [(1, 0xF)])) = some 0xB := by decide
theorem test_clr_beyond : reg 1 (exec (.clr ⟨1, .b0⟩ ⟨1, .b0⟩ (.imm 9)) (given [(1, 0xFF)])) = some 0xFF := by decide
theorem test_set_field : reg 1 (exec (.set ⟨1, .b1⟩ ⟨1, .b0⟩ (.imm 5)) (given [(1, 1)])) = some 0x2101 := by decide
theorem test_set_of_r31 : reg 3 (exec (.set (r 3) (r 31) (.imm 4)) (given [(3, 0xFFFFFFFF)])) = some 0x10 := by decide

/-- T80: a SET of R31 goes out as an event. -/
theorem test_set_r31_event : exec (.set (r 31) (r 31) (.imm 5)) State.reset
    = .next ((State.reset.withPc 1 false).emit [.r31Out (r 31) 0x20]) := by rfl
theorem test_lmbd_found : reg 3 (exec (.lmbd ⟨3, .b3⟩ ⟨3, .w0⟩ (.imm 0)) (given [(3, 0xFFF0)]))
    = some 0x300FFF0 := by decide
theorem test_lmbd_none : reg 3 (exec (.lmbd (r 3) ⟨1, .b0⟩ (.imm 0)) (given [(1, 0xFF)])) = some 0x20 := by decide

/-! SCAN (T83, T91). -/

theorem test_scan_match : reg 30 (exec (.scan 30 (.reg ⟨1, .w0⟩))
    (given [(1, 0x37F), (2, 0x11223344), (3, 0x7F7F0055), (4, 0x66000003), (30, 0x01021209)])) = some 0x01020C0F := by decide
theorem test_scan_width3 : faultOf (exec (.scan 30 (rr 1)) (given [(30, 0x01031209)]))
    = some .scanUnspecified := by decide

/-! Moves (T105, T107, T113, T115, T117, T120, T123, T121, T124, T125, T131, T132). -/

theorem test_mov_zero_extends : reg 3 (exec (.mov (r 3) (.reg ⟨1, .b0⟩)) (given [(1, 0xAABBCCDD), (3, 0xFFFFFFFF)]))
    = some 0xDD := by decide
theorem test_mov_overlap : reg 1 (exec (.mov ⟨1, .w1⟩ (.reg ⟨1, .w0⟩)) (given [(1, 0xBEEF)]))
    = some 0xBEEFEF := by decide
theorem test_ldi_half : reg 1 (exec (.ldi ⟨1, .w2⟩ 0x1234) (given [(1, 0xABCD)])) = some 0x1234ABCD := by decide
theorem test_ldi_byte : reg 1 (exec (.ldi ⟨1, .b0⟩ 0x1234) (given [])) = some 0x34 := by decide
theorem test_mvib_read : reg 5 (exec (.mvib (.direct (r 5)) (.ptrInc 0)) (given [(1, 8), (2, 0x44332211)]))
    = some 0x11 := by decide
theorem test_mvib_write : reg 3 (exec (.mvib (.ptrDec 1) (.direct ⟨2, .b0⟩)) (given [(1, 0x1000), (2, 0x7E)]))
    = some 0x7E000000 := by decide
theorem test_mviw_read : reg 4 (exec (.mviw (.direct ⟨4, .w0⟩) (.ptr 0)) (given [(1, 0xB), (2, 0xAA000000), (3, 0xBB)]))
    = some 0xBBAA := by decide
theorem test_mviw_write : reg 3 (exec (.mviw (.ptr 0) (.direct ⟨2, .b0⟩)) (given [(1, 0xC), (2, 0xAB), (3, 0xFFFFFFFF)]))
    = some 0xFFFF00AB := by decide
theorem test_mvid_unaligned : reg 4 (exec (.mvid (.direct (r 4)) (.ptrInc 0)) (given [(1, 9), (2, 0x44332211), (3, 0x88776655)]))
    = some 0x55443322 := by decide
theorem test_mvid_clobber : faultOf (exec (.mvid (.direct (r 1)) (.ptrInc 0)) (given [(1, 8)]))
    = some .mviUnspecified := by decide

/-! Bursts and transfers (T140, T145, T147, T152, T155, T158, T164, T166, T170, T173, T174). -/

/-- `given` with data memory. -/
def givenMem (mem : Memory) (regs : List (Nat × Word)) : State := (given regs).withDmem mem

/-- `given` with one constant-table entry. -/
def givenCt (n : Nat) (v : Word) (regs : List (Nat × Word)) : State :=
  withParams (given regs) { Params.default with ct := Params.default.ct.setIfInBounds n v }

theorem test_lbbo_inside : reg 2 (exec (.lbbo 9 1 (.imm 0) (.imm 2))
    (givenMem [(0x105, 1), (0x106, 2)] [(1, 0x105), (2, 0xAAAAAAAA)])) = some 0xAA0201AA := by decide
theorem test_lbbo_order : faultOf (exec (.lbbo 120 1 (.imm 0) (.r0 0)) (given [(1, 0x105)])) = some .burstCountZero
    ∧ faultOf (exec (.lbbo 120 1 (.imm 0) (.imm 8)) (given [(1, 0x105)])) = some .regRange := by decide
theorem test_sbbo_low_first : byteAt 0x200 (exec (.sbbo 9 1 (.imm 0) (.imm 2)) (given [(1, 0x200), (2, 0x11223344)]))
    = some 0x33 := by decide
theorem test_sbbo_wraps : byteAt 1 (exec (.sbbo 8 1 (.imm 2) (.imm 1)) (given [(1, 0xFFFFFFFF), (2, 0x5A)]))
    = some 0x5A := by decide
theorem test_lbco_byte : reg 2 (exec (.lbco 8 1 (.imm 5) (.imm 1))
    ((givenCt 1 0x10000 [(2, 0xFFFFFFFF)]).withDmem [(0x10005, 0x7E)])) = some 0xFFFFFF7E := by decide
theorem test_sbco_last_entry : byteAt 0x200 (exec (.sbco 8 31 (.imm 255) (.imm 1)) (givenCt 31 0x101 [(2, 0xA5)]))
    = some 0xA5 := by decide
theorem test_zero_inside : reg 2 (exec (.zero 9 2) (given [(2, 0x11223344)])) = some 0x11000044 := by decide
theorem test_zero_range : faultOf (exec (.zero 121 4) State.reset) = some .regRange := by decide
theorem test_xin_counts : faultOf (exec (.xin 10 8 (.r0 2)) (given [(0, 0)])) = some .burstCountZero
    ∧ faultOf (exec (.xin 10 120 (.imm 8)) (given [])) = some .regRange := by decide
/-- XIN writes what the device answers, whatever that is. -/
theorem test_xin_answer : exec (.xin 10 8 (.imm 1)) State.reset
    = .next ((State.reset.withRegs (putByte State.reset.regs 8 (Config.xfrIn [] 0 10 8 1 0))).withPc 1 false) := by rfl
theorem test_xout_event : exec (.xout 10 8 (.r0 2)) (given [(0, 0x40000), (2, 0xCAFEF00D)])
    = .next (((given [(0, 0x40000), (2, 0xCAFEF00D)]).withPc 1 false).emit [.xfrOut 10 8 [0x0D, 0xF0, 0xFE, 0xCA]]) := by rfl
theorem test_xchg_refused : refusalOf (exec (.xchg 10 8 (.imm 8)) State.reset)
    = some (.illFormed .xchgRefused) := by decide

/-- `given`, with R1 at 0x100 and 9 in memory there, where the platform admits four-byte reads and writes of 16 bytes
from 0x100 up on a multiple of 4, and any access of the four bytes from 0x200 up, of a device. -/
def mapped : State :=
  withParams (givenMem [(0x100, 9)] [(1, 0x100), (3, 0x1FE), (4, 0x200)]) { Params.default with regions :=
    [⟨0x100, 16, 4, 4, 4, true, true, .ram⟩, ⟨0x200, 4, 1, 124, 1, true, true, .device⟩] }

/-- R69: the request is admitted as a whole, by its length, its alignment and its place; a straddle of the edge is not. -/
theorem test_admission : reg 2 (exec (.lbbo 8 1 (.imm 0) (.imm 4)) mapped) = some 9
    ∧ faultOf (exec (.lbbo 8 1 (.imm 0) (.imm 1)) mapped) = some .unadmitted
    ∧ faultOf (exec (.lbbo 8 1 (.imm 2) (.imm 4)) mapped) = some .unadmitted
    ∧ faultOf (exec (.lbbo 8 3 (.imm 0) (.imm 4)) mapped) = some .unadmitted := by decide
/-- R68: a device answers what it will. -/
theorem test_device_read : exec (.lbbo 8 4 (.imm 0) (.imm 1)) mapped
    = .next (((mapped.withRegs (putByte mapped.regs 8 (Config.memIn [] 0 0x200 1 0))).withPc 1 false).emit
        [.memRead 0x200 1]) := by rfl

/-- A running core whose next instruction at 0 is `i`, with R1 at 0x100 and R2 given, while another agent writes 7 and then 8
to 0x100 and 9 to 0x101, the first write before the access to byte 0 and all three before the one to byte 1. -/
def amid (i : Instr) : State :=
  ((given [(1, 0x100), (2, 0x4321)]).withMeanwhile ⟨[(0x100, 7), (0x100, 8), (0x101, 9)], [1, 3]⟩).loadAtPc (.asm i)

/-- R67: a load returns bytes from before and after another agent's writes, all of which are in memory afterwards. -/
theorem test_load_amid : reg 2 (step (amid (.lbbo 8 1 (.imm 0) (.imm 2)))) = some 0x0907
    ∧ byteAt 0x100 (step (amid (.lbbo 8 1 (.imm 0) (.imm 2)))) = some 8 := by decide
/-- R67: a store overwrites the writes before its access to a byte, and those after overwrite it. -/
theorem test_store_amid : byteAt 0x100 (step (amid (.sbbo 8 1 (.imm 0) (.imm 2)))) = some 8
    ∧ byteAt 0x101 (step (amid (.sbbo 8 1 (.imm 0) (.imm 2)))) = some 0x43 := by decide

/-- A core whose XCHG is the exchange the source defines. -/
def exchanging : State := withParams (given [(2, 0xAA)]) { Params.default with xchg := .exchange }

theorem test_xchg_exchange : exec (.xchg 10 8 (.imm 1)) exchanging
    = .next (((exchanging.withRegs (putByte exchanging.regs 8 (Config.xfrIn [] 0 10 8 1 0))).withPc 1 false).emit
        [.xfrOut 10 8 [0xAA]]) := by rfl

/-! Control flow (T180, T182, T184, T188, T191 to T208, T222, T225, T229, T235). -/

theorem test_jmp_byte : pcOf (exec (.jmp (.reg ⟨2, .b1⟩)) (givenAt 3 false [(2, 0xFF00)])) = some 255 := by decide
theorem test_jmp_range : faultOf (exec (.jmp (rr 2)) (givenAt 3 false [(2, 0x10000)]))
    = some .jumpTargetRange := by decide
theorem test_jal_target_first : out 2 (exec (.jal ⟨2, .w0⟩ (.reg ⟨2, .w0⟩)) (givenAt 9 false [(2, 0x40)]))
    = some (0xA, false, 64) := by decide
theorem test_jal_last : out 3 (exec (.jal (r 3) (.imm 0)) (givenAt 0xFFFF false []))
    = some (0x10000, false, 0) := by decide

/-- The `pc` after a compare-and-branch at 2 to 9 of `5` against `R2.w0` being 4, 5 and 6. -/
def compared (mk : Int → Field → Operand → Instr) : List (Option Nat) :=
  [0xFFFF0004, 0xFFFF0005, 0xFFFF0006].map fun v => pcOf (exec (mk 7 ⟨2, .w0⟩ (.imm 5)) (givenAt 2 false [(2, v)]))

theorem test_qbgt : compared .qbgt = [some 9, some 3, some 3] := by decide
theorem test_qbge : compared .qbge = [some 9, some 9, some 3] := by decide
theorem test_qblt : compared .qblt = [some 3, some 3, some 9] := by decide
theorem test_qble : compared .qble = [some 3, some 9, some 9] := by decide
theorem test_qbeq : compared .qbeq = [some 3, some 9, some 3] := by decide
theorem test_qbne : compared .qbne = [some 9, some 3, some 9] := by decide
theorem test_qba : pcOf (exec (.qba (-5)) (givenAt 12 false [])) = some 7 := by decide
theorem test_qbbs : pcOf (exec (.qbbs 7 ⟨1, .b1⟩ (.imm 5)) (givenAt 2 false [(1, 0x2000)])) = some 9 := by decide
theorem test_qbbs_beyond : pcOf (exec (.qbbs 7 ⟨1, .b0⟩ (.imm 9)) (givenAt 2 false [(1, 0xFFFFFFFF)]))
    = some 3 := by decide
theorem test_qbbc : pcOf (exec (.qbbc 7 (r 3) (rr 1)) (givenAt 2 false [(1, 8), (3, 0xFFFFFEFF)]))
    = some 9 := by decide
theorem test_wbs_spins : pcOf (exec (.wbs (r 2) (.imm 0)) (givenAt 6 false [])) = some 6 := by decide
theorem test_wbc_goes_on : pcOf (exec (.wbc (r 2) (.imm 0)) (givenAt 6 false [])) = some 7 := by decide

/-! HALT, SLP, LOOP and the loop end (T238, T242, T243, T246, T250, T251, T253). -/

/-- `given` with the loop hardware armed. -/
def looping (pc : InstrAddr) (n : BitVec 16) (top fin : InstrAddr) : State :=
  (State.reset.withPc pc false).withLoop n top fin

/-- The run state, `pc`, LoopCounter, LoopTop and LoopEnd of the next state. -/
def loopOf : Result → Option (RunState × Nat × Nat × Nat × Nat)
  | .next t => some (t.run, t.pc.toNat, t.loopCounter.toNat, t.loopTop.toNat, t.loopEnd.toNat)
  | .fault _ => none
  | .refused _ => none

theorem test_halt : loopOf (exec .halt (looping 5 2 3 6)) = some (.halted, 5, 2, 3, 6) := by decide
theorem test_slp_at_loop_end : loopOf (exec (.slp true) (looping 8 2 3 9))
    = some (.sleeping true, 3, 1, 3, 9) := by decide
theorem test_loop_arms : loopOf (exec (.loop 3 (.imm 3)) (looping 2 0 0 0)) = some (.running, 3, 3, 3, 5) := by decide
theorem test_loop_zero_count : loopOf (exec (.loop 5 (rr 2)) (givenAt 1 false [(2, 0x10000)]))
    = some (.running, 6, 0, 2, 6) := by decide
theorem test_loop_goes_back : loopOf (exec (.add (r 1) (r 1) (.imm 1)) (looping 4 3 3 5))
    = some (.running, 3, 2, 3, 5) := by decide
theorem test_loop_falls_out : loopOf (exec (.add (r 1) (r 1) (.imm 1)) (looping 4 1 3 5))
    = some (.running, 5, 0, 3, 5) := by decide
theorem test_v1_no_loop : loopOf (exec (.add (r 1) (r 1) (.imm 1)) (withParams (looping 4 2 3 5) v1))
    = some (.running, 5, 2, 3, 5) := by decide

/-! Steps (T260, and the first instruction after reset). -/

theorem test_step_word : out 1 (step (State.reset.withFetchWord 32 0x24000AE1)) = some (10, false, 1) := by decide
theorem test_step_empty : faultOf (step State.reset) = some .fetchOutside := by decide
theorem test_step_bad_word : faultOf (step (State.reset.withFetchWord 32 0xA0000000))
    = some (.undefinedWord .format101) := by decide
theorem test_step_ill_formed : refusalOf (step (State.reset.withFetchWord 32 0x288100FE))
    = some (.illFormed .notInRevision) := by decide
/-- R109, R321: the program of a JMP above 0xFFFF and a LOOP with an empty body after it is refused before the JMP faults. -/
theorem test_step_ill_formed_unreached :
    refusalOf (step ((given [(2, 0x10000)]).withImem [(0, .asm (.jmp (rr 2))), (1, .asm (.loop 1 (.imm 3)))]))
      = some (.illFormed .emptyLoop)
    ∧ faultOf (step ((given [(2, 0x10000)]).withImem [(0, .asm (.jmp (rr 2)))])) = some .jumpTargetRange := by decide
/-- R106, R109 (c): ILOOP and FILL, anywhere in the program. -/
theorem test_wf_undescribed : refusalOf (step (State.reset.withImem [(0, .asm .halt), (9, .word 0x30008000)]))
      = some (.illFormed .undescribed)
    ∧ refusalOf (step (State.reset.withImem [(0, .word 0x2EFF0000)])) = some (.illFormed .undescribed) := by decide
/-- `pc` does not wrap (decision D7). -/
theorem test_step_end : faultOf (match step ((State.reset.withPc 0xFFFF false).withFetchWord 32 0x0101E1E1) with
    | .next t => step t
    | o => o) = some .fetchOutside := by decide

/-! Witnesses: for each statement with hypotheses, states and operands that meet them, each clause at a boundary. -/

/-- The one hypothesis of AddAdcResult, SubSucResult, RsbRscResult, ShiftResult, BitwiseResult, MinMaxResult, ClrResult,
SetResult and LmbdResult: the last byte of the last stored register is a destination. -/
theorem test_witness_destination : (⟨30, .b3⟩ : Field).reg ≠ 31 ∧ (⟨⟨30, .b3⟩, 31⟩ : BitRef).field.reg ≠ 31 := by decide

theorem test_witness_MoveResult : (⟨30, .b3⟩ : Field).reg ≠ 31 ∧ 65535 ≤ 65535 := by decide

/-- ArithmeticFrame, FieldFrame and R31Destination speak of the members of these lists. -/
theorem test_witness_frames : Instr.rsc ∈ arithOps ∧ Instr.lmbd ∈ logicOps
    ∧ Instr.ldi (r 3) 7 ∈ [Instr.not (r 3) (r 4), .mov (r 3) (rr 1), .ldi (r 3) 7] := by simp [arithOps, logicOps]

/-- The state of T83. -/
def scanning : State :=
  given [(1, 0x37F), (2, 0x11223344), (3, 0x7F7F0055), (4, 0x66000003), (30, 0x01021209)]

theorem test_witness_ScanMatch : HoldsWord scanning 30 9 18 2 1 ∧ (scanning.val (.reg ⟨1, .w0⟩)).toNat < 256 ^ 2
    ∧ 6 < 18 ∧ 9 + 6 * 1 + 2 ≤ 124 ∧ (∀ i, i < 6 → ¬ HoldsNumber scanning (9 + i * 1) 2 0x37F)
    ∧ HoldsNumber scanning (9 + 6 * 1) 2 (scanning.val (.reg ⟨1, .w0⟩)).toNat := by
  unfold HoldsWord HoldsNumber; decide

/-- A match in the last two bytes of R30, of the last field there is. -/
theorem test_witness_ScanMatch_last : HoldsWord (given [(2, 0x0402017A)]) 2 122 1 2 4
    ∧ HoldsNumber (given [(2, 0x0402017A)]) (122 + 0 * 4) 2 0 ∧ 0 < 1 ∧ 122 + 0 * 4 + 2 ≤ 124 := by
  unfold HoldsWord HoldsNumber; decide

theorem test_witness_ScanNoMatch : HoldsWord (given [(2, 0x0101017B)]) 2 123 1 1 1
    ∧ ((given []).val (.imm 255)).toNat < 256 ^ 1
    ∧ ∀ i, i < 1 → 123 + i * 1 + 1 ≤ 124 ∧ ¬ HoldsNumber (given [(2, 0x0101017B)]) (123 + i * 1) 1 255 := by
  unfold HoldsWord HoldsNumber; decide

theorem test_witness_ScanStops : HoldsWord (given [(2, 0x01030109)]) 2 9 1 3 1
    ∧ HoldsWord (given [(2, 0x05020109)]) 2 9 1 2 5 ∧ HoldsWord (given [(2, 0x00020109)]) 2 9 1 2 0
    ∧ HoldsWord (given [(2, 0x01010109), (3, 256)]) 2 9 1 1 1
    ∧ ¬ ((given [(2, 0x01010109), (3, 256)]).val (rr 3)).toNat < 256 ^ 1 := by unfold HoldsWord; decide

/-- The second field passes byte 123 and the first does not match. -/
theorem test_witness_ScanStops_range : HoldsWord (given [(2, 0x0101027B)]) 2 123 2 1 1 ∧ 1 < 2 ∧ 124 < 123 + 1 * 1 + 1
    ∧ ∀ i, i < 1 → ¬ HoldsNumber (given [(2, 0x0101027B)]) (123 + i * 1) 1 255 := by
  unfold HoldsWord HoldsNumber; decide

/-- `MVID *r1.b2, *r1.b0` with the destination at the last four bytes. -/
theorem test_witness_MviEffect : (4, Instr.mvid) ∈ mviSizes ∧ MviFits 4 (given [(1, 0x780008)]) (.ptr 0)
    ∧ MviFits 4 (given [(1, 0x780008)]) (.ptr 2) ∧ ¬ MviSamePointer (.ptr 2) (.ptr 0)
    ∧ ¬ MviClobbers 4 (given [(1, 0x780008)]) (.ptr 2) (.ptr 0) := by
  refine ⟨by simp [mviSizes], ?_⟩
  unfold MviFits MviSamePointer MviClobbers; decide

/-- A source one byte too far; a destination one byte too far because the source side moved its pointer there, and one
that a decrement wraps; one pointer updated by both, in range (T131); a destination that is the updated pointer. -/
theorem test_witness_MviStops : ¬ MviFits 4 (given [(1, 0x79)]) (.ptr 0)
    ∧ (MviFits 4 (given [(1, 0x78)]) (.ptrInc 0) ∧ ¬ MviTargetFits 4 (given [(1, 0x78)]) (.ptr 0) (.ptrInc 0))
    ∧ ¬ MviTargetFits 1 (given []) (.ptrDec 1) (.direct (r 2))
    ∧ (MviFits 1 (given [(1, 8)]) (.ptrInc 0) ∧ MviTargetFits 1 (given [(1, 8)]) (.ptrInc 0) (.ptrInc 0)
      ∧ MviSamePointer (.ptrInc 0) (.ptrInc 0))
    ∧ (MviFits 4 (given [(1, 8)]) (.ptrInc 0) ∧ MviTargetFits 4 (given [(1, 8)]) (.direct (r 1)) (.ptrInc 0)
      ∧ ¬ MviSamePointer (.direct (r 1)) (.ptrInc 0) ∧ MviClobbers 4 (given [(1, 8)]) (.direct (r 1)) (.ptrInc 0)) := by
  unfold MviFits MviTargetFits MviSamePointer MviClobbers; decide

/-- Where the source side moves the pointer back into range, the destination fits. -/
theorem test_mvi_same_pointer : faultOf (exec (.mvid (.ptr 0) (.ptrInc 0)) (given [(1, 0x78)])) = some .regRange
    ∧ faultOf (exec (.mvid (.ptr 0) (.ptrDec 0)) (given [(1, 0x7C)])) = some .mviUnspecified := by decide

/-- The one region of the platform after reset is memory. -/
theorem reset_admits {s : State} {write : Bool} {addr : Word} {n : Nat} (hp : s.params = Params.default) (h1 : 1 ≤ n)
    (h2 : n ≤ 124) : AdmittedAs s write addr n .ram :=
  ⟨[], _, [], by rw [hp]; rfl, nofun, ⟨by cases write <;> rfl, h1, h2, by simp [Nat.mod_one], fun i _ => BitVec.isLt _⟩, rfl⟩

/-- BurstLoad, BurstStore, XinEffect and XoutEffect: 124 bytes from R0 on; one byte at the end, counted by R0. -/
theorem test_witness_bursts : Memory.wf (given [(1, 0x100)]).dmem = true ∧ CountIs (given [(1, 0x100)]) (.imm 124) 124
    ∧ 1 ≤ 124 ∧ ((0 : Fin 128) : Nat) + 124 ≤ 124
    ∧ AdmittedAs (given [(1, 0x100)]) false ((given [(1, 0x100)]).x 1 + (given [(1, 0x100)]).val (.imm 5)) 124 .ram
    ∧ Admitted (given [(1, 0x100)]) true ((given [(1, 0x100)]).params.ct[(1 : Fin 32)] + (given []).val (.imm 5)) 124
    ∧ CountIs (given [(0, 0x100)]) (.r0 1) 1 ∧ ((123 : Fin 128) : Nat) + 1 ≤ 124 :=
  ⟨by decide, rfl, by decide, by decide, reset_admits rfl (by decide) (by decide),
    ⟨_, .head _, rfl, by decide, by decide, by simp [Nat.mod_one], fun i _ => BitVec.isLt _⟩, by unfold CountIs; decide,
    by decide⟩

/-- BurstLoad from a device, and from the last four bytes of a region of memory. -/
theorem test_witness_BurstLoad_kinds : AdmittedAs mapped false (mapped.x 4 + mapped.val (.imm 3)) 1 .device
    ∧ AdmittedAs mapped false (mapped.x 1 + mapped.val (.imm 12)) 4 .ram := by
  refine ⟨⟨[_], _, [], rfl, ?_, ?_, rfl⟩, ⟨[], _, [_], rfl, nofun, ?_, rfl⟩⟩
  · intro q hq
    rw [List.mem_singleton] at hq
    subst hq
    unfold Admits; decide
  · unfold Admits; decide
  · unfold Admits; decide

/-- `given` where the platform admits three bytes from 0x100 up, for reads. -/
def threeBytes : State :=
  withParams (given [(0, 125), (1, 0x100)]) { Params.default with regions := [⟨0x100, 3, 1, 124, 1, true, false, .ram⟩] }

theorem test_witness_BurstStops : CountIs threeBytes (.r0 1) 0 ∧ (CountIs threeBytes (.r0 0) 125 ∧ 124 < 125)
    ∧ (CountIs threeBytes (.imm 4) 4 ∧ 124 < ((121 : Fin 128) : Nat) + 4)
    ∧ (((120 : Fin 128) : Nat) + 4 ≤ 124 ∧ ¬ Admitted threeBytes false (threeBytes.x 1 + threeBytes.val (.imm 0)) 4)
    ∧ Admitted threeBytes false (threeBytes.x 1 + threeBytes.val (.imm 0)) 3
    ∧ ¬ Admitted threeBytes true (threeBytes.x 1 + threeBytes.val (.imm 0)) 3
    ∧ ¬ Admitted mapped false (mapped.x 1 + mapped.val (.imm 2)) 4 := by
  unfold CountIs Admitted Admits; decide

/-- Its premises for SBBO and LBBO with a register count, and for SBCO and LBCO. -/
theorem test_witness_StoreThenLoad : Memory.wf (given [(0, 2), (1, 0x100)]).dmem = true ∧ (1 : Fin 32) ≠ 31
    ∧ (given [(0, 2), (1, 0x100)]).meanwhile = .nothing ∧ StoredOperand (.imm 5) ∧ CountIs (given [(0, 2), (1, 0x100)]) (.r0 0) 2 ∧ ((122 : Fin 128) : Nat) + 2 ≤ 124
    ∧ (∃ t, exec (.sbbo 4 1 (.imm 5) (.r0 0)) (given [(0, 2), (1, 0x100)]) = .next t)
    ∧ (∃ t, exec (.sbco 4 31 (.imm 5) (.r0 0)) (given [(0, 2), (1, 0x100)]) = .next t)
    ∧ ∀ addr, AdmittedAs (given [(0, 2), (1, 0x100)]) false addr 2 .ram :=
  ⟨by decide, by decide, rfl, trivial, by unfold CountIs; decide, by decide, ⟨_, rfl⟩, ⟨_, rfl⟩,
    fun _ => reset_admits rfl (by decide) (by decide)⟩

theorem test_witness_LittleEndian : Memory.wf (given [(1, 0xFFFFFFFE)]).dmem = true
    ∧ Admitted (given [(1, 0xFFFFFFFE)]) true ((given [(1, 0xFFFFFFFE)]).x 1 + (given []).val (.imm 0)) 4 := by
  unfold Admitted Admits; decide

theorem test_witness_ZeroEffect : 120 + 4 ≤ 124 ∧ 124 < 121 + 4 := by decide

theorem test_witness_XchgEffect : State.reset.params.xchg = .refuse
    ∧ (withParams State.reset { Params.default with xchg := .asXin }).params.xchg = .asXin
    ∧ exchanging.params.xchg = .exchange ∧ CountIs exchanging (.imm 124) 124 := by unfold CountIs; decide

theorem test_witness_XfrStops : (Instr.xchg 10 121 (.imm 4) = .xchg 10 121 (.imm 4) → exchanging.params.xchg ≠ .refuse)
    ∧ CountIs exchanging (.r0 0) 0 ∧ (CountIs threeBytes (.r0 0) 125 ∧ 124 < 125)
    ∧ (CountIs exchanging (.imm 4) 4 ∧ 124 < ((121 : Fin 128) : Nat) + 4) := by unfold CountIs; decide

/-- JmpEffect and JalEffect: the last address there is, and the first one beyond. -/
theorem test_witness_jumps : ((given [(2, 0xFFFF)]).val (rr 2)).toNat ≤ 65535
    ∧ 65535 < ((given [(2, 0x10000)]).val (rr 2)).toNat := by decide

theorem test_witness_CompareBranches : (Instr.qbne, fun b a => decide (b ≠ a)) ∈ compareOps := by simp [compareOps]

/-- A running core with an assembly-level instruction at `pc`. -/
def running (i : Instr) (s : State) : State := s.loadAtPc (.asm i)

/-- A program of one assembly-level instruction that is well-formed where it stands. -/
theorem one_wellFormed {s : State} {a : Nat} {i : Instr} (hi : s.imem = [(a, .asm i)])
    (h : check s.params (BitVec.ofNat 16 a) i = none) : ProgramWellFormed s := by
  rintro c hc why (⟨j, hj | ⟨w, hw, -⟩, hk⟩ | ⟨-, w, hw, -⟩) <;> rw [hi, List.mem_singleton] at hc <;> subst hc
  · cases hj; rw [h] at hk; cases hk
  · cases hw
  · cases hw

theorem test_witness_WaitSpins : (r 2).reg ≠ 31 ∧ StoredOperand (.imm 0)
    ∧ (running (.wbs (r 2) (.imm 0)) State.reset).loopCounter = 0
    ∧ (running (.wbs (r 2) (.imm 0)) State.reset).meanwhile = .nothing
    ∧ Runs (running (.wbs (r 2) (.imm 0)) State.reset) (.wbs (r 2) (.imm 0))
    ∧ ProgramWellFormed (running (.wbs (r 2) (.imm 0)) State.reset)
    ∧ fieldBit (running (.wbs (r 2) (.imm 0)) State.reset) (r 2) (.imm 0) = false :=
  ⟨by decide, trivial, rfl, rfl, ⟨.inl rfl, rfl, rfl⟩, one_wellFormed rfl (by decide), by decide⟩

/-- WaitSpins: WBC on the last bit of R30, at 5 in the body of an armed loop that ends at 6. -/
theorem test_witness_WaitSpins_wbc : (looping 5 2 3 6).loopEnd ≠ (looping 5 2 3 6).pc
    ∧ Runs (running (.wbc (r 30) (.imm 31)) ((looping 5 2 3 6).withRegs (given [(30, 0x80000000)]).regs))
      (.wbc (r 30) (.imm 31))
    ∧ ProgramWellFormed (running (.wbc (r 30) (.imm 31)) ((looping 5 2 3 6).withRegs (given [(30, 0x80000000)]).regs))
    ∧ fieldBit (running (.wbc (r 30) (.imm 31)) ((looping 5 2 3 6).withRegs (given [(30, 0x80000000)]).regs))
      (r 30) (.imm 31) = true :=
  ⟨by decide, ⟨.inl rfl, rfl, rfl⟩, one_wellFormed rfl (by decide), by decide⟩

/-- A halted core that the host enables. -/
def enabled : State := (State.reset.withRun .halted).withHost [.enable]

theorem test_witness_HaltStops : enabled.host = .enable :: [] ∧ enabled.run = .halted := by decide

theorem test_witness_LoopArms : (2 : Int) ≤ 2 ∧ ((givenAt 65533 false []).pc.toNat : Int) + 2 ≤ 65535
    ∧ (1 ≤ 256 ∧ 256 ≤ 256) ∧ ((given [(2, 0x10000)]).rd (r 2)).toNat % 65536 = 0 := by decide

theorem test_witness_LoopPasses : (looping 4 2 3 5).params.rev = .v3 ∧ 1 ≤ 1 ∧ 2 ≤ (looping 4 2 3 5).loopCounter.toNat := by
  decide

/-- A program of one word that the check finds nothing in. -/
theorem word_wellFormed {s : State} {w : Word} (hi : s.imem = [(0, .word w)])
    (h : Slot.illFormed s.params 0 (.word w) = none) : ProgramWellFormed s := by
  intro c hc why hw
  rw [hi, List.mem_singleton] at hc
  subst hc
  rcases hw with ⟨j, hj | ⟨v, hv, hd⟩, hk⟩ | ⟨-, v, hv, hd⟩
  · cases hj
  · cases hv
    simp [Slot.illFormed, Slot.instr, hd] at h
    simp [h] at hk
  · cases hv
    rcases hd with hd | hd <;> simp [Slot.illFormed, Slot.instr, hd, isUndescribed] at h

/-- Both sides of its hypothesis on the fetch: an assembly-level instruction and a word. -/
theorem test_witness_StepRuns : (running .halt State.reset).imem.fetch (running .halt State.reset).pc = some (.asm .halt)
    ∧ (State.reset.withFetchWord 32 0x2A000000).imem.fetch 0 = some (.word 0x2A000000) ∧ decode 0x2A000000 = .ok .halt
    ∧ ProgramWellFormed (running .halt State.reset) ∧ ProgramWellFormed (State.reset.withFetchWord 32 0x2A000000)
    ∧ (running .halt State.reset).run = .running
    ∧ (running .halt State.reset).pcOut = false ∧ (running .halt State.reset).host = [] :=
  ⟨by decide, by decide, by decide, one_wellFormed rfl (by decide), word_wellFormed rfl (by decide), rfl, rfl, rfl⟩

/-- A state whose next step is a move of the host. -/
def hosted (m : HostMove) (run : RunState) : State := (State.reset.withRun run).withHost [m]

theorem test_witness_FetchStops : State.reset.imem.fetch State.reset.pc = none ∧ (State.reset.withPc 0 true).pcOut = true
    ∧ (State.reset.withFetchWord 32 0xA0000000).imem.fetch 0 = some (.word 0xA0000000)
    ∧ decode 0xA0000000 = .error .format101 ∧ State.reset.host = [] ∧ State.reset.run = .running
    ∧ ProgramWellFormed State.reset ∧ ProgramWellFormed (State.reset.withFetchWord 32 0xA0000000) :=
  ⟨by decide, by decide, by decide, by decide, rfl, rfl, fun _ hc => absurd hc List.not_mem_nil, word_wellFormed rfl (by decide)⟩

/-- A well-formed instruction and behind it, at the last address there is, a branch past the end. -/
theorem test_witness_RefusesIllFormed :
    ProgramIllFormed (State.reset.withImem [(0, .asm .halt), (0xFFFF, .asm (.qba 1))]) .labelRange
    ∧ CoreMoves State.reset ∧ State.reset.run = .running ∧ v1.rev = .v1 ∧ Params.default.rev = .v3
    ∧ step (hosted (.writeImem 0 none) .running) = .refused .noSuchHostMove := by
  refine ⟨⟨[_], _, [], rfl, ?_, .inl ⟨_, .inl rfl, by decide⟩⟩, .inl rfl, rfl, rfl, rfl, rfl⟩
  intro q hq
  exact one_wellFormed (s := running .halt State.reset) (a := 0) rfl (by decide) q hq

theorem test_witness_StoppedCore : (State.reset.withRun .halted).host = [] ∧ (State.reset.withRun .halted).run = .halted
    ∧ (State.reset.withRun (.sleeping false)).run = .sleeping false
    ∧ (State.reset.withRun (.sleeping true)).run = .sleeping true := by decide

theorem test_witness_HostMoveEffects : (hosted .enable .running).run ≠ .halted
    ∧ (hosted .clearSleeping (.sleeping false)).run = .sleeping false
    ∧ (∀ w, (hosted .clearSleeping .halted).run ≠ .sleeping w)
    ∧ (hosted (.meanwhile ⟨[(0, 1)], [1]⟩) .running).host = .meanwhile ⟨[(0, 1)], [1]⟩ :: [] ∧ (hosted .reset .halted).host = .reset :: []
    ∧ (hosted (.writeImem 0xFFFF none) .halted).run = .halted ∧ InstrMemory.wf State.reset.imem = true
    ∧ (hosted (.writeImem 0 none) .running).run ≠ .halted
    ∧ Memory.wf (hosted (.agentWrite 0xFFFFFFFF 1) .running).dmem = true := by
  decide

/-- A halted core whose instruction at `pc` the host replaces before it enables it. -/
def patched : State := enabled.withHost [.writeImem 0 (some (.asm .halt)), .enable]

theorem test_witness_Breakpoint : patched.run = .halted ∧ patched.pcOut = false ∧ InstrMemory.wf patched.imem = true
    ∧ patched.host = .writeImem patched.pc (some (.asm .halt)) :: .enable :: [] := by decide

theorem test_witness_CarryWriters :
    (∃ t, step (running (.sub (r 3) (r 3) (.imm 1)) State.reset) = .next t
      ∧ t.carry ≠ (running (.sub (r 3) (r 3) (.imm 1)) State.reset).carry)
    ∧ ∃ t, step ((hosted .reset .running).withCarry true) = .next t ∧ t.carry ≠ true :=
  ⟨⟨_, rfl, by decide⟩, ⟨_, rfl, by decide⟩⟩

theorem test_witness_MemoryWriters :
    (∃ t, step (running (.sbbo 8 1 (.imm 0) (.imm 1)) (given [(2, 0xA5)])) = .next t
      ∧ t.dmem.read 0 ≠ (given [(2, 0xA5)]).dmem.read 0)
    ∧ (∃ t, step (hosted (.agentWrite 0xFFFFFFFF 1) .halted) = .next t ∧ t.dmem.read 0xFFFFFFFF ≠ 0)
    ∧ ∃ t, step (amid .halt) = .next t ∧ t.dmem.read 0x101 ≠ 0 :=
  ⟨⟨_, rfl, by decide⟩, ⟨_, rfl, by decide⟩, ⟨_, rfl, by decide⟩⟩

theorem test_witness_ProgramFixed :
    ∃ t, step (hosted (.writeImem 0 (some (.asm .halt))) .halted) = .next t ∧ t.imem ≠ State.reset.imem :=
  ⟨_, rfl, by decide⟩

theorem test_witness_RunStateMoves : (∃ t, step (running .halt State.reset) = .next t ∧ t.run ≠ .running)
    ∧ (∃ t, step (running (.slp true) State.reset) = .next t ∧ t.run ≠ .running)
    ∧ (∃ t, step enabled = .next t ∧ t.run ≠ .halted)
    ∧ ∃ t, step (hosted .clearSleeping (.sleeping false)) = .next t ∧ t.run ≠ .sleeping false :=
  ⟨⟨_, rfl, by decide⟩, ⟨_, rfl, by decide⟩, ⟨_, rfl, by decide⟩, ⟨_, rfl, by decide⟩⟩

theorem test_witness_LoopWriters :
    (∃ t, step (running (.add (r 1) (r 1) (.imm 1)) (looping 4 1 3 5)) = .next t ∧ t.loopCounter ≠ 1)
    ∧ ¬ HostMoves (running (.add (r 1) (r 1) (.imm 1)) (looping 4 1 3 5)) .reset
    ∧ ∀ dist cnt, ¬ Runs (running (.add (r 1) (r 1) (.imm 1)) (looping 4 1 3 5)) (.loop dist cnt) := by
  refine ⟨⟨_, rfl, by decide⟩, ?_, ?_⟩
  · rintro ⟨rest, h⟩; cases h
  · rintro dist cnt ⟨-, -, h⟩; cases h

/-- RegisterWriters and HistoryGrows: the last byte of R30 changes, and an event is added. -/
theorem test_witness_RegisterWriters :
    ∃ t, step (running (.ldi ⟨30, .b3⟩ 5) State.reset) = .next t ∧ 123 < 124 ∧ t.rf 123 ≠ State.reset.rf 123
      ∧ t.history ≠ [] := ⟨_, rfl, by decide⟩

theorem test_witness_InvStep : (running (.ldi (r 1) 5) State.reset).Inv
    ∧ ∃ t, step (running (.ldi (r 1) 5) State.reset) = .next t := ⟨by unfold State.Inv; decide, ⟨_, rfl⟩⟩

theorem test_witness_DecodeEncode : operandCheck (.qbgt (-512) (r 3) (.imm 255)) = none
    ∧ (encode (.qbgt (-512) (r 3) (.imm 255))).isSome = true ∧ operandCheck (.xin 253 123 (.imm 124)) = none
    ∧ (encode (.xin 253 123 (.imm 124))).isSome = true := by decide

theorem test_witness_EncodeDecode : decode 0xFFFFFFFF = .ok (.lbbo 127 31 (.imm 255) (.r0 3))
    ∧ (∀ rd rs, Instr.lbbo 127 31 (.imm 255) (.r0 3) ≠ .not rd rs)
    ∧ (∀ rn op, Instr.lbbo 127 31 (.imm 255) (.r0 3) ≠ .scan rn op)
    ∧ ∀ dist, Instr.lbbo 127 31 (.imm 255) (.r0 3) ≠ .qba dist :=
  ⟨by decide, nofun, nofun, nofun⟩

/-- Each kind of word that R130 rejects. -/
theorem test_witness_DecodeRejects : bits 0xBFFFFFFF 31 29 = 5 ∧ (bits 0x2DFFFFFF 31 29 = 1 ∧ bits 0x2DFFFFFF 28 25 = 6)
    ∧ (bits 0x3DFFFFFF 31 29 = 1 ∧ bits 0x3DFFFFFF 28 25 = 14) ∧ (bits 0x2E7FFFFF 31 25 = 23 ∧ bits 0x2E7FFFFF 24 23 = 0)
    ∧ (bits 0x47FFFFFF 31 30 = 1 ∧ bits 0x47FFFFFF 29 27 = 0) ∧ (bits 0xDFFFFFFF 31 29 = 6 ∧ bits 0xDFFFFFFF 28 27 = 3) := by
  decide

end Sys2Proof.Tests
end

/-! Proofs of the family 10_state.md: what a step changes of the registers, the carry, the loop state and the run state,
and what a destination in R31 does. Each rule about every step comes from two inversions: of the step (`step_next`) and of
the instruction it runs (`exec_next`). -/

namespace Sys2Proof.Machine

section Instructions

variable {i : Instr} {s u : State}

/-- Only the six arithmetic instructions write the carry (R33). -/
theorem exec_carry (h : exec i s = .next u) :
    u.carry = s.carry ∨ ∃ mk ∈ arithOps, ∃ rd rs op, i = mk rd rs op := by
  cases exec_next h with
  | plain hq => exact .inl ((State.next_carry _ _).trans hq.carry)
  | arith hi _ => exact .inr hi
  | store _ => exact .inl (State.advance_carry _)
  | halt _ => exact .inl rfl
  | slp _ => exact .inl (State.advance_carry _)
  | loop _ => exact .inl (State.next_carry _ _)

/-- Only HALT and SLP move the run state (R36, R287, R288). -/
theorem exec_run (h : exec i s = .next u) :
    u.run = s.run ∨ (i = .halt ∧ u.run = .halted) ∨ ∃ w, i = .slp w ∧ u.run = .sleeping w := by
  cases exec_next h with
  | plain hq => exact .inl ((State.next_run _ _).trans hq.run)
  | arith _ hq => exact .inl ((State.next_run _ _).trans hq.run)
  | store _ => exact .inl (State.advance_run _)
  | halt hi => exact .inr (.inl ⟨hi, rfl⟩)
  | slp hi => exact .inr (.inr ⟨_, hi, State.advance_run _⟩)
  | loop _ => exact .inl (State.next_run _ _)

/-- What a loop end can do to the loop state (R291): take one pass off, on a V3 core. -/
structure LoopTicks (s t : State) : Prop where
  top : t.loopTop = s.loopTop
  fin : t.loopEnd = s.loopEnd
  counter : t.loopCounter ≠ s.loopCounter → t.loopCounter.toNat + 1 = s.loopCounter.toNat ∧ s.params.rev = .v3

theorem LoopTicks.of_eq {a b : State} (ht : b.loopTop = a.loopTop) (he : b.loopEnd = a.loopEnd)
    (hc : b.loopCounter = a.loopCounter) : LoopTicks a b :=
  ⟨ht, he, fun hne => absurd hc hne⟩

/-- `LoopTicks` depends only on the revision and the loop state before. -/
theorem LoopTicks.from_eq {a b t : State} (h : LoopTicks b t) (hp : b.params = a.params)
    (ht : b.loopTop = a.loopTop) (he : b.loopEnd = a.loopEnd) (hc : b.loopCounter = a.loopCounter) : LoopTicks a t := by
  obtain ⟨htop, hfin, hcount⟩ := h
  rw [hc, hp] at hcount
  exact ⟨htop.trans ht, hfin.trans he, hcount⟩

theorem next_loopTicks (s : State) (a : Int) : LoopTicks s (s.next a) := by
  obtain ⟨htop, hfin, hcount⟩ := next_arrives s a
  refine ⟨htop, hfin, fun hne => ?_⟩
  split at hcount
  · next hend =>
    obtain ⟨hone, -⟩ := hcount
    exact ⟨hone, hend.1⟩
  · obtain ⟨hsame, -⟩ := hcount
    exact absurd hsame hne

/-- Only LOOP sets the loop state; any other instruction leaves it to the loop end (R35, R291). -/
theorem exec_loopTicks (h : exec i s = .next u) : LoopTicks s u ∨ ∃ dist cnt, i = .loop dist cnt := by
  cases exec_next h with
  | plain hq => exact .inl ((next_loopTicks _ _).from_eq hq.params hq.loopTop hq.loopEnd hq.loopCounter)
  | arith _ hq => exact .inl ((next_loopTicks _ _).from_eq hq.params hq.loopTop hq.loopEnd hq.loopCounter)
  | store _ => exact .inl ((next_loopTicks _ _).from_eq rfl rfl rfl rfl)
  | halt _ => exact .inl (.of_eq rfl rfl rfl)
  | slp _ => exact .inl ((next_loopTicks _ _).from_eq rfl rfl rfl rfl)
  | loop hi => exact .inr ⟨_, _, hi⟩

/-- The instructions with no register destination: branches, waits, the jump without link, stores, XOUT, and those that
only control the core. -/
def keepsRegisters : Instr → Bool
  | .qbgt .. | .qbge .. | .qblt .. | .qble .. | .qbeq .. | .qbne .. | .qba .. | .qbbs .. | .qbbc .. => true
  | .wbs .. | .wbc .. | .jmp .. | .sbbo .. | .sbco .. | .xout .. | .halt | .slp .. | .loop .. => true
  | _ => false

theorem branch_regs {taken : Bool} {dist : Int} (h : s.branch taken dist = .next u) : u.regs = s.regs := by
  cases h; exact State.next_regs _ _

theorem burst_store_regs {start : Fin 128} {base : Word} {op : Operand} {cnt : Count}
    (h : s.burst true start base op cnt = .next u) : u.regs = s.regs := by
  rcases burst_cases s true start base op cnt with ⟨f, -, e⟩ | ⟨-, -, e⟩ | ⟨-, k, -, e⟩
  · rw [e] at h; cases h
  · rw [e] at h; cases h
  · rw [e] at h; cases h; exact State.advance_regs _

theorem execXout_regs {dev : Nat} {start : Fin 128} {cnt : Count} (h : execXout dev start cnt s = .next u) :
    u.regs = s.regs := by
  rcases transfer_cases s start cnt (s.xfrOut dev start) with ⟨f, -, e⟩ | ⟨-, e⟩
  · rw [execXout, e] at h; cases h
  · rw [execXout, e] at h; cases h; exact State.advance_regs _

theorem execJmp_regs {target : Operand} (h : execJmp target s = .next u) : u.regs = s.regs := by
  unfold execJmp at h
  split at h
  · cases h; exact State.next_regs _ _
  · cases h

/-- An instruction with no register destination changes no register (R29). -/
theorem exec_regs (h : exec i s = .next u) (hi : keepsRegisters i = true) : u.regs = s.regs := by
  cases i with
  | qbgt dist rs op => exact branch_regs h
  | qbge dist rs op => exact branch_regs h
  | qblt dist rs op => exact branch_regs h
  | qble dist rs op => exact branch_regs h
  | qbeq dist rs op => exact branch_regs h
  | qbne dist rs op => exact branch_regs h
  | qba dist => exact branch_regs h
  | qbbs dist rs op => exact branch_regs h
  | qbbc dist rs op => exact branch_regs h
  | wbs rs op => exact branch_regs h
  | wbc rs op => exact branch_regs h
  | jmp target => exact execJmp_regs h
  | sbbo start base op cnt => exact burst_store_regs h
  | sbco start base op cnt => exact burst_store_regs h
  | xout dev start cnt => exact execXout_regs h
  | halt => cases h; rfl
  | slp wake => cases h; exact State.advance_regs _
  | loop dist cnt => cases h; exact State.next_regs _ _
  | _ => cases hi

theorem keepsRegisters_of_compareOps {dist : Int} {rs : Field} {op : Operand} :
    ∀ p ∈ compareOps, keepsRegisters (p.1 dist rs op) = true := by
  simp [compareOps, keepsRegisters]

end Instructions

section Steps

variable {s t : State}

/-- The registers, the carry and the loop state are as before. -/
structure KeepsCoreData (s t : State) : Prop where
  regs : t.regs = s.regs
  carry : t.carry = s.carry
  loopCounter : t.loopCounter = s.loopCounter
  loopTop : t.loopTop = s.loopTop
  loopEnd : t.loopEnd = s.loopEnd

/-- The registers, the carry and the loop state change in a step only by a reset or by the instruction it runs. -/
theorem step_coreData (h : step s = .next t) :
    KeepsCoreData s t ∨ HostMoves s .reset ∨ ∃ i u, Runs s i ∧ exec i s.popped = .next u ∧ KeepsCoreData u t := by
  cases step_next h with
  | core hm hc =>
    cases hc with
    | ran hrun hf _ he => exact .inr (.inr ⟨_, _, ⟨hm, hrun, hf⟩, he, rfl, rfl, rfl, rfl, rfl⟩)
    | idle _ => exact .inl ⟨rfl, rfl, rfl, rfl, rfl⟩
    | asleep _ _ => exact .inl ⟨rfl, rfl, rfl, rfl, rfl⟩
    | woke _ _ => exact .inl ⟨rfl, rfl, rfl, rfl, rfl⟩
  | enable _ => split <;> exact .inl ⟨rfl, rfl, rfl, rfl, rfl⟩
  | wake _ _ => exact .inl ⟨rfl, rfl, rfl, rfl, rfl⟩
  | clear _ _ => exact .inl ⟨rfl, rfl, rfl, rfl, rfl⟩
  | reset hm => exact .inr (.inl hm)
  | writeImem _ _ => exact .inl ⟨rfl, rfl, rfl, rfl, rfl⟩
  | agentWrite _ => exact .inl ⟨rfl, rfl, rfl, rfl, rfl⟩
  | meanwhile _ => exact .inl ⟨rfl, rfl, rfl, rfl, rfl⟩

/-- With no host move pending the step is the core's. -/
theorem step_of_host_nil (hh : s.host = []) : step s = s.coreStep := by
  simp only [step, State.cycle, hh]

theorem coreStep_of_halted (hr : s.run = .halted) : s.coreStep = .next s := by
  simp only [State.coreStep, hr]

theorem coreStep_of_sleeping (hr : s.run = .sleeping false) : s.coreStep = .next s := by
  simp only [State.coreStep, hr]

theorem coreStep_of_waiting (hr : s.run = .sleeping true) :
    s.coreStep = .next ((if Config.wakeEvent s.history s.moment then s.withRun .running else s).laterBy 1) := by
  simp only [State.coreStep, hr]
  split <;> rfl

end Steps

section R31

variable {s t u : State} {mk : Field → Field → Operand → Instr}

/-- A write of one number to a part of R31 and to the same part of R0: what goes out is what R0 takes (R31, D20). -/
theorem WroteField.r31_as_r0 {part : Sel} {v : Nat} (h31 : WroteField s t ⟨31, part⟩ v)
    (h0 : WroteField s u ⟨0, part⟩ v) :
    t.history = s.history ++ [.r31Out ⟨31, part⟩ (u.rd ⟨0, part⟩)] ∧ ∀ k, k < 124 → t.rf k = s.rf k := by
  have hr : (u.rd ⟨0, part⟩).toNat = v % 2 ^ Field.width ⟨31, part⟩ := h0.rd (show (0 : Fin 32) ≠ 31 by decide)
  rw [WroteField, if_pos rfl, ← hr, BitVec.ofNat_toNat, BitVec.setWidth_eq] at h31
  exact h31.symm

/-- An arithmetic instruction ends in `State.arith`, with a result that does not depend on the destination (R140). -/
theorem exec_arithOps (s : State) (rs : Field) (op : Operand) (hmk : mk ∈ arithOps) :
    ∃ r, ∀ rd, exec (mk rd rs op) s = s.arith rd r := by
  simp only [arithOps, List.mem_cons, List.not_mem_nil, or_false] at hmk
  rcases hmk with rfl | rfl | rfl | rfl | rfl | rfl <;> exact ⟨_, fun _ => rfl⟩

/-- The instructions of `logicOps` end in `State.result`, with a value that does not depend on the destination. -/
theorem exec_logicOps (s : State) (rs : Field) (op : Operand) (hmk : mk ∈ logicOps) :
    ∃ v, ∀ rd, exec (mk rd rs op) s = s.result rd v := by
  simp only [logicOps, List.mem_cons, List.not_mem_nil, or_false] at hmk
  rcases hmk with rfl | rfl | rfl | rfl | rfl | rfl | rfl | rfl | rfl | rfl <;> exact ⟨_, fun _ => rfl⟩

/-- The instruction `mk`, given a part of R31, sends out what it writes to the same part of R0, changes no register and
leaves the same carry. -/
def Outward (s : State) (part : Sel) (mk : Field → Instr) : Prop :=
  ∃ t u, exec (mk ⟨31, part⟩) s = .next t ∧ exec (mk ⟨0, part⟩) s = .next u
    ∧ t.history = s.history ++ [.r31Out ⟨31, part⟩ (u.rd ⟨0, part⟩)]
    ∧ (∀ k, k < 124 → t.rf k = s.rf k) ∧ t.carry = u.carry

theorem outward_of_result {part : Sel} {mk : Field → Instr} {v : Word}
    (h : ∀ rd, exec (mk rd) s = s.result rd v) : Outward s part mk := by
  obtain ⟨t, ht, hct, ⟨hwt, -, -⟩⟩ := result_writes s ⟨31, part⟩ v
  obtain ⟨u, hu, hcu, ⟨hwu, -, -⟩⟩ := result_writes s ⟨0, part⟩ v
  obtain ⟨hhist, hrf⟩ := hwt.r31_as_r0 hwu
  exact ⟨t, u, (h _).trans ht, (h _).trans hu, hhist, hrf, hct.trans hcu.symm⟩

theorem outward_of_arith {part : Sel} {mk : Field → Instr} {r : Int}
    (h : ∀ rd, exec (mk rd) s = s.arith rd r) : Outward s part mk := by
  obtain ⟨t, ht, hct, ⟨hwt, -, -⟩⟩ := arith_writes s ⟨31, part⟩ r
  obtain ⟨u, hu, hcu, ⟨hwu, -, -⟩⟩ := arith_writes s ⟨0, part⟩ r
  obtain ⟨hhist, hrf⟩ := hwt.r31_as_r0 hwu
  exact ⟨t, u, (h _).trans ht, (h _).trans hu, hhist, hrf, hct.trans hcu.symm⟩

end R31

/-! The statements. -/

/-- Settles O13: each of the instructions ends in `State.arith` or `State.result`, with one value for every destination. -/
theorem r31Destination : Obligations.R31Destination := by
  intro s part rs op n
  have hnot : Outward s part fun rd => .not rd rs := outward_of_result fun _ => rfl
  have hmov : Outward s part fun rd => .mov rd op := outward_of_result fun _ => rfl
  have hldi : Outward s part fun rd => .ldi rd n := outward_of_result fun _ => rfl
  refine ⟨fun mk hmk => ?_, hnot, hmov, hldi⟩
  rcases List.mem_append.mp hmk with ha | hl
  · obtain ⟨r, hr⟩ := exec_arithOps s rs op ha
    exact outward_of_arith hr
  · obtain ⟨v, hv⟩ := exec_logicOps s rs op hl
    exact outward_of_result hv

/-- Settles O46: by the inversions of the step and of the instruction. -/
theorem carryWriters : Obligations.CarryWriters := by
  intro s t h hne
  rcases step_coreData h with hk | hreset | ⟨i, u, hruns, he, hk⟩
  · exact absurd hk.carry hne
  · exact .inl hreset
  · rcases exec_carry he with hc | ⟨mk, hmk, rd, rs, op, rfl⟩
    · exact absurd (hk.carry.trans hc) hne
    · exact .inr ⟨mk, hmk, rd, rs, op, hruns⟩

/-- Settles O49: by cases on the move; of the instructions only HALT and SLP count. -/
theorem runStateMoves : Obligations.RunStateMoves := by
  intro s t h hne
  cases step_next h with
  | core hm hc =>
    cases hc with
    | ran hrun hf _ he =>
      rw [hrun]
      rcases exec_run he with hu | ⟨rfl, hu⟩ | ⟨w, rfl, hu⟩
      · exact absurd hu hne
      · exact .inl ⟨⟨hm, hrun, hf⟩, hu⟩
      · exact .inr ⟨w, ⟨hm, hrun, hf⟩, hu⟩
    | idle _ => exact absurd rfl hne
    | asleep _ _ => exact absurd rfl hne
    | woke hrun hw =>
      rw [hrun]
      exact ⟨.inr (.inr ⟨rfl, hm, hw⟩), rfl⟩
  | enable hm =>
    by_cases hrun : s.run = .halted
    · simp only [hrun, if_true]
      exact ⟨.inl hm, rfl⟩
    · rw [if_neg hrun] at hne
      exact absurd rfl hne
  | wake hm hrun =>
    rw [hrun]
    exact ⟨.inl hm, rfl⟩
  | clear _ _ => exact absurd rfl hne
  | reset hm =>
    cases hrun : s.run with
    | running => exact absurd hrun.symm hne
    | halted => exact ⟨.inr hm, rfl⟩
    | sleeping w => exact ⟨.inr (.inl hm), rfl⟩
  | writeImem _ _ => exact absurd rfl hne
  | agentWrite _ => exact absurd rfl hne
  | meanwhile _ => exact absurd rfl hne

/-- Settles O50: by the inversions of the step and of the instruction. -/
theorem loopWriters : Obligations.LoopWriters := by
  intro s t h hreset hloop
  have hticks : LoopTicks s t := by
    rcases step_coreData h with hk | hr | ⟨i, u, hruns, he, hk⟩
    · exact .of_eq hk.loopTop hk.loopEnd hk.loopCounter
    · exact absurd hr hreset
    · rcases exec_loopTicks he with ⟨htop, hfin, hcount⟩ | ⟨dist, cnt, rfl⟩
      · rw [← hk.loopCounter] at hcount
        exact ⟨hk.loopTop.trans htop, hk.loopEnd.trans hfin, hcount⟩
      · exact absurd hruns (hloop dist cnt)
  exact ⟨hticks.top, hticks.fin, hticks.counter⟩

/-- Settles O51: the instruction that ran changed a register, so it is not one that keeps them all. -/
theorem registerWriters : Obligations.RegisterWriters := by
  intro s t k h hk hne
  rcases step_coreData h with hd | hreset | ⟨i, u, hruns, he, hd⟩
  · exact absurd (rf_congr hd.regs hk) hne
  · exact .inl hreset
  · have hw : keepsRegisters i ≠ true := fun hi =>
      hne (rf_congr (hd.regs.trans (exec_regs he hi)) hk)
    refine .inr ⟨i, hruns, fun dist rs op start base cnt dev w => ⟨fun p hp hi => ?_, fun hi => ?_⟩⟩
    · exact hw (hi ▸ keepsRegisters_of_compareOps p hp)
    · simp only [List.mem_cons, List.not_mem_nil, or_false] at hi
      rcases hi with rfl | rfl | rfl | rfl | rfl | rfl | rfl | rfl | rfl | rfl | rfl | rfl <;> exact hw rfl

/-- Settles O43: by the run state. -/
theorem stoppedCore : Obligations.StoppedCore := by
  intro s hh
  rw [step_of_host_nil hh]
  refine ⟨fun hr => ?_, fun hr => ?_⟩
  · rcases hr with hr | hr
    · exact coreStep_of_halted hr
    · exact coreStep_of_sleeping hr
  · rw [coreStep_of_waiting hr]
    split <;> rfl

/-- Every register of the state after reset is 0 (log entry 6). -/
theorem reset_x {n : Nat} (hn : n < 31) : State.reset.x n = 0 := by
  have h31 : n ≠ 31 := by omega
  simp [State.x, State.reset, h31, hn]

/-- Settles O55: the fields of `State.reset`, one by one. -/
theorem resetState : Obligations.ResetState :=
  ⟨rfl, rfl, rfl, rfl, rfl, rfl, rfl, rfl, rfl, fun _ hn => reset_x hn, rfl⟩

end Sys2Proof.Machine

/-! Proofs of the family 20_memory.md: who changes data memory and instruction memory, the invariant of every step, and what
a burst store leaves for a load. As in the family before, a rule about every step comes from the inversion of the step
(`step_next`) and of the instruction it runs (`exec_next`). -/

namespace Sys2Proof.Machine

section StoreRun

variable (s : State) (o n : Nat) (addr : Word)

@[simp] theorem State.storeRun_params : (s.storeRun o n addr).params = s.params := rfl
@[simp] theorem State.storeRun_meanwhile_writes :
    (s.storeRun o n addr).meanwhile.writes = s.meanwhile.left addr n 0 s.meanwhile.writes := rfl

end StoreRun

/-! Who changes the memories and the parameters. -/

section Instructions

variable {i : Instr} {s u : State}

/-- No instruction changes the parameters or instruction memory (R75, D16). -/
theorem exec_program (h : exec i s = .next u) : u.params = s.params ∧ u.imem = s.imem := by
  cases exec_next h with
  | plain hq => exact ⟨(State.next_params _ _).trans hq.params, (State.next_imem _ _).trans hq.imem⟩
  | arith _ hq => exact ⟨(State.next_params _ _).trans hq.params, (State.next_imem _ _).trans hq.imem⟩
  | store _ => exact ⟨State.advance_params _, State.advance_imem _⟩
  | halt _ => exact ⟨rfl, rfl⟩
  | slp _ => exact ⟨State.advance_params _, State.advance_imem _⟩
  | loop _ => exact ⟨State.next_params _ _, State.next_imem _ _⟩

/-- An instruction leaves data memory, and what other agents write meanwhile, as they were, or it is SBBO or SBCO and stores
one run of bytes (R71, R210). -/
theorem exec_dmem (h : exec i s = .next u) :
    (u.dmem = s.dmem ∧ u.meanwhile = s.meanwhile)
      ∨ ((∃ start base op cnt, i = .sbbo start base op cnt ∨ i = .sbco start base op cnt)
        ∧ ∃ addr bs, u.dmem = s.dmem.writeRun addr bs) := by
  cases exec_next h with
  | plain hq => exact .inl ⟨(State.next_dmem _ _).trans hq.dmem, (State.next_meanwhile _ _).trans hq.meanwhile⟩
  | arith _ hq => exact .inl ⟨(State.next_dmem _ _).trans hq.dmem, (State.next_meanwhile _ _).trans hq.meanwhile⟩
  | store hi => exact .inr ⟨hi, _, _, State.advance_dmem _⟩
  | halt _ => exact .inl ⟨rfl, rfl⟩
  | slp _ => exact .inl ⟨State.advance_dmem _, State.advance_meanwhile _⟩
  | loop _ => exact .inl ⟨State.next_dmem _ _, State.next_meanwhile _ _⟩

theorem exec_dmem_wf (h : exec i s = .next u) (hwf : Memory.wf s.dmem = true) : Memory.wf u.dmem = true := by
  rcases exec_dmem h with ⟨hd, -⟩ | ⟨-, addr, bs, hd⟩
  · rw [hd]; exact hwf
  · rw [hd]; exact Memory.wf_writeRun _ _ _ hwf

theorem refuseUnless_none {ok : Bool} {why : IllFormed} : refuseUnless ok why = none ↔ ok = true := by
  cases ok <;> simp [refuseUnless]

/-- A well-formed instruction is one the core has (R105). -/
theorem available_of_check {p : Config.Params} {pc : InstrAddr} (h : check p pc i = none) : available p i = true := by
  simp only [check, Option.orElse_eq_orElse, Option.orElse_eq_or, Option.or_eq_none_iff, refuseUnless_none] at h
  obtain ⟨-, ha, -⟩ := h
  exact ha

/-- A V1 core has no LOOP, and its loop end takes nothing off the counter (R105, R261). -/
theorem exec_loopCounter_of_v1 {pc : InstrAddr} (hv : s.params.rev = .v1) (hc : check s.params pc i = none)
    (h : exec i s = .next u) : u.loopCounter = s.loopCounter := by
  rcases exec_loopTicks h with hticks | ⟨dist, cnt, rfl⟩
  · by_contra hne
    obtain ⟨-, hv3⟩ := hticks.counter hne
    rw [hv] at hv3
    cases hv3
  · have ha := available_of_check hc
    simp [available, hv] at ha

end Instructions

section Steps

variable {s t : State}

/-- The parameters stay, and instruction memory stays or is the halted core's, written by the host (R75, R352, R361). -/
theorem step_program (h : step s = .next t) :
    t.params = s.params ∧ (t.imem = s.imem
      ∨ s.run = .halted ∧ ∃ a sl, HostMoves s (.writeImem a sl) ∧ t.imem = s.imem.replace a sl) := by
  cases step_next h with
  | core _ hc =>
    cases hc with
    | ran _ _ _ he =>
      obtain ⟨hp, hi⟩ := exec_program he
      exact ⟨hp, .inl hi⟩
    | idle _ => exact ⟨rfl, .inl rfl⟩
    | asleep _ _ => exact ⟨rfl, .inl rfl⟩
    | woke _ _ => exact ⟨rfl, .inl rfl⟩
  | enable _ => split <;> exact ⟨rfl, .inl rfl⟩
  | wake _ _ => exact ⟨rfl, .inl rfl⟩
  | clear _ _ => exact ⟨rfl, .inl rfl⟩
  | reset _ => exact ⟨rfl, .inl rfl⟩
  | writeImem hm hrun => exact ⟨rfl, .inr ⟨hrun, _, _, hm, rfl⟩⟩
  | agentWrite _ => exact ⟨rfl, .inl rfl⟩
  | meanwhile _ => exact ⟨rfl, .inl rfl⟩

/-- Data memory stays, or takes another agent's byte, or is what the instruction that ran left, with the writes of others
that are left settled (R67, R71, R72). -/
theorem step_dmem (h : step s = .next t) :
    t.dmem = s.dmem ∨ (∃ a v, HostMoves s (.agentWrite a v) ∧ t.dmem = s.dmem.write a.toNat v)
      ∨ ∃ i u, Runs s i ∧ exec i s.popped = .next u ∧ t.dmem = u.dmem.writeAll u.meanwhile.writes := by
  cases step_next h with
  | core hm hc =>
    cases hc with
    | ran hrun hf _ he => exact .inr (.inr ⟨_, _, ⟨hm, hrun, hf⟩, he, rfl⟩)
    | idle _ => exact .inl rfl
    | asleep _ _ => exact .inl rfl
    | woke _ _ => exact .inl rfl
  | enable _ => split <;> exact .inl rfl
  | wake _ _ => exact .inl rfl
  | clear _ _ => exact .inl rfl
  | reset _ => exact .inl rfl
  | writeImem _ _ => exact .inl rfl
  | agentWrite hm => exact .inr (.inl ⟨_, _, hm, rfl⟩)
  | meanwhile _ => exact .inl rfl

/-! The three parts of the invariant. -/

theorem step_dmem_wf (h : step s = .next t) (hwf : Memory.wf s.dmem = true) : Memory.wf t.dmem = true := by
  rcases step_dmem h with hk | ⟨a, v, -, hk⟩ | ⟨i, u, -, he, hk⟩
  · rw [hk]; exact hwf
  · rw [hk]; exact Memory.wf_write _ _ _ a.isLt hwf
  · rw [hk]; exact Memory.wf_writeAll _ _ (exec_dmem_wf he hwf)

theorem step_imem_wf (h : step s = .next t) (hwf : InstrMemory.wf s.imem = true) : InstrMemory.wf t.imem = true := by
  obtain ⟨-, hk | ⟨-, a, sl, -, hk⟩⟩ := step_program h
  · rw [hk]; exact hwf
  · rw [hk]; exact InstrMemory.wf_replace _ _ _ hwf

/-- The loop hardware a V1 core has not stays unarmed: the instruction that ran was checked, so it was no LOOP. -/
theorem step_unarmed_of_v1 (h : step s = .next t) (hv : s.params.rev = .v1) (h0 : s.loopCounter = 0) :
    t.loopCounter = 0 := by
  cases step_next h with
  | core _ hc =>
    cases hc with
    | ran _ _ hcheck he => exact (exec_loopCounter_of_v1 (s := s.popped) hv hcheck he).trans h0
    | idle _ => exact h0
    | asleep _ _ => exact h0
    | woke _ _ => exact h0
  | enable _ => split <;> exact h0
  | wake _ _ => exact h0
  | clear _ _ => exact h0
  | reset _ => rfl
  | writeImem _ _ => exact h0
  | agentWrite _ => exact h0
  | meanwhile _ => exact h0

end Steps

/-! What a burst store leaves. -/

section Bursts

variable {s t : State}

/-- A stored register reads the same where the registers are the same. -/
theorem x_congr (h : t.regs = s.regs) {k : Nat} (hk : k ≠ 31) : t.x k = s.x k := by
  simp [State.x, h, hk]

/-- An operand that reads no R31 has the same value where the registers are the same. -/
theorem val_congr (h : t.regs = s.regs) {op : Operand} (ho : StoredOperand op) : t.val op = s.val op := by
  cases op with
  | imm v => rfl
  | reg f =>
    have hf : (f.reg : Nat) ≠ 31 := fun e => ho (Fin.ext e)
    simp only [State.val, State.rd, x_congr h hf]

/-- A byte count stands for the same number where the registers are the same. -/
theorem countIs_congr (h : t.regs = s.regs) {cnt : Count} {n : Nat} (hn : CountIs s cnt n) : CountIs t cnt n := by
  cases cnt with
  | imm m => exact hn
  | r0 k =>
    rw [CountIs] at hn ⊢
    rw [hn, rf_congr h (by omega)]

theorem admittedAs_congr (h : t.params = s.params) {write : Bool} {addr : Word} {n : Nat} {kind : Config.RegionKind}
    (ha : AdmittedAs s write addr n kind) : AdmittedAs t write addr n kind := by
  unfold AdmittedAs at ha ⊢
  rwa [h]

variable {start start' : Fin 128} {base : Word} {op : Operand} {cnt : Count} {n : Nat}

/-- What a burst does whose count and range are good and whose request the platform admits (R210 to R213). -/
theorem burst_of_admittedAs {write : Bool} {kind : Config.RegionKind} (hn : CountIs s cnt n) (h1 : 1 ≤ n)
    (hfit : start + n ≤ 124) (ha : AdmittedAs s write (base + s.val op) n kind) :
    s.burst write start base op cnt
      = .next (if write then (s.storeRun start n (base + s.val op)).advance
          else (s.loadRun kind start n (base + s.val op)).advance) := by
  have hr : rangeFault start n = none := rangeFault_none.mpr ⟨h1, by omega, hfit⟩
  have hadm : s.admission write (s.burstAddr base op) n = some kind := admission_some.mpr ha
  simp only [State.burst, countOf_eq hn, hr, hadm]
  cases write <;> rfl

/-- What a burst store that did not fault did. -/
theorem burst_store_next (hn : CountIs s cnt n) (h : s.burst true start base op cnt = .next t) :
    1 ≤ n ∧ n ≤ 124 ∧ t = (s.storeRun start n (base + s.val op)).advance := by
  rcases burst_cases s true start base op cnt with ⟨f, -, e⟩ | ⟨-, -, e⟩ | ⟨hr, k, -, e⟩
  · rw [e] at h; cases h
  · rw [e] at h; cases h
  · rw [e] at h
    rw [countOf_eq hn] at h hr
    obtain ⟨h1, h124, -⟩ := rangeFault_none.mp hr
    cases h
    exact ⟨h1, h124, rfl⟩

/-- Memory answers a load with the bytes it holds where no other agent writes meanwhile (R68, R71). -/
theorem answeredByte_ram_of_no_writes (h : s.meanwhile.writes = []) (addr : Word) (n i : Nat) :
    answeredByte s addr n .ram i = s.dmem.read (addr + BitVec.ofNat 32 i).toNat := by
  simp [answeredByte, h, lastWrite]

/-- A load that memory answers, no other agent writing meanwhile, brings the bytes of data memory (R71, R210). -/
theorem burst_load_reads (hn : CountIs s cnt n) (h1 : 1 ≤ n) (hfit : start + n ≤ 124) (hw : s.meanwhile.writes = [])
    (ha : AdmittedAs s false (base + s.val op) n .ram) :
    ∃ u, s.burst false start base op cnt = .next u
      ∧ ∀ i, i < n → u.rf (start + i) = s.dmem.read (base + s.val op + BitVec.ofNat 32 i).toNat := by
  refine ⟨_, burst_of_admittedAs hn h1 hfit ha, fun i hi => ?_⟩
  obtain ⟨hrange, -⟩ := loadRun_wrote s .ram start n (base + s.val op) hfit
  calc (s.loadRun .ram start n (base + s.val op)).advance.rf (start + i)
      = (s.loadRun .ram start n (base + s.val op)).rf (start + i) := rf_congr (State.advance_regs _) (by omega)
    _ = answeredByte s (base + s.val op) n .ram i := by
      rw [hrange _ (by omega), if_pos (by omega), Nat.add_sub_cancel_left]
    _ = s.dmem.read (base + s.val op + BitVec.ofNat 32 i).toNat := answeredByte_ram_of_no_writes hw _ _ _

/-- What a burst stored, a load by the same base, offset and count brings back: the store changed none of these, and memory
holds the bytes (R71). -/
theorem burst_store_then_load (hwf : Memory.wf s.dmem = true) (hm : s.meanwhile = .nothing) (ho : StoredOperand op)
    (hn : CountIs s cnt n) (hfit : start' + n ≤ 124) (h : s.burst true start base op cnt = .next t)
    (ha : AdmittedAs s false (base + s.val op) n .ram) :
    ∃ u, t.burst false start' base op cnt = .next u ∧ ∀ i, i < n → u.rf (start' + i) = s.rf (start + i) := by
  have hregs : t.regs = s.regs := burst_store_regs h
  obtain ⟨h1, h124, ht⟩ := burst_store_next hn h
  have hparams : t.params = s.params := by simp [ht]
  have hwrites : t.meanwhile.writes = [] := by simp [ht, hm, Meanwhile.nothing, Meanwhile.left]
  obtain ⟨hstored, -⟩ := storeRun_wrote s start n (base + s.val op) hwf h124
  have hval : t.val op = s.val op := val_congr hregs ho
  rw [← hval] at ha
  obtain ⟨u, hu, hread⟩ := burst_load_reads (countIs_congr hregs hn) h1 hfit hwrites (admittedAs_congr hparams ha)
  refine ⟨u, hu, fun i hi => ?_⟩
  rw [hread i hi, hval, ht, State.advance_dmem]
  exact hstored i hi

/-- Byte `k` of a stored register, as a number, is digit `k` of the register to the base 256 (10_state.md R21). -/
theorem rf_toNat (s : State) {m k : Nat} (hk : k < 4) : (s.rf (4 * m + k)).toNat = (s.x m).toNat / 256 ^ k % 256 := by
  have hword : (4 * m + k) / 4 = m := by omega
  have hbyte : (4 * m + k) % 4 = k := by omega
  have hrf : s.rf (4 * m + k) = byteOf (s.x m) k := by simp only [State.rf, byteOf, hword, hbyte]
  rw [hrf, byteOf_toNat, BitVec.toNat_ofNat]

end Bursts

/-! The statements. -/

/-- Settles O53: each part of the invariant by its own lemma; a V1 core after the step was one before it. -/
theorem invStep : Obligations.InvStep := by
  rintro s t ⟨hd, hi, hl⟩ h
  obtain ⟨hp, -⟩ := step_program h
  refine ⟨step_dmem_wf h hd, step_imem_wf h hi, fun hv => ?_⟩
  rw [hp] at hv
  exact step_unarmed_of_v1 h hv (hl hv)

/-- Settles O23: both pairs are one burst each way; the base of LBBO is a register the store did not change, that of LBCO a
parameter. -/
theorem storeThenLoad : Obligations.StoreThenLoad := by
  intro s t start start' base op cnt n hwf hm ho hn hfit
  refine ⟨fun hbase h ha => ?_, fun h ha => ?_⟩
  · have hx : t.x base = s.x base := x_congr (burst_store_regs h) fun e => hbase (Fin.ext e)
    obtain ⟨u, hu, hback⟩ := burst_store_then_load hwf hm ho hn hfit h ha
    exact ⟨u, by rw [← hu, ← hx]; rfl, hback⟩
  · obtain ⟨hp, -⟩ := exec_program h
    have hc : t.ctEntry base = s.ctEntry base := by rw [State.ctEntry, State.ctEntry, hp]
    obtain ⟨u, hu, hback⟩ := burst_store_then_load hwf hm ho hn hfit h ha
    exact ⟨u, by rw [← hu, ← hc]; rfl, hback⟩

/-- Settles O24: byte `k` in memory is byte `4n + k` of the register file, which is digit `k` of the register. -/
theorem littleEndian : Obligations.LittleEndian := by
  intro s n base op hwf hadm
  obtain ⟨kind, ha⟩ := hadm.admittedAs
  have hfit : 4 * (n : Nat) + 4 ≤ 124 := by omega
  obtain ⟨hstored, -⟩ := storeRun_wrote s (4 * n) 4 (s.x base + s.val op) hwf (by omega)
  refine ⟨_, burst_of_admittedAs (cnt := .imm 4) rfl (by omega) hfit ha, fun k hk => ?_⟩
  rw [if_pos rfl, State.advance_dmem, hstored k hk, rf_toNat s hk]

/-- Settles O47: by the inversions of the step and of the instruction; a byte the writes of others do not name reads as the
instruction left it. -/
theorem memoryWriters : Obligations.MemoryWriters := by
  intro s t a hwf h hne
  rcases step_dmem h with hk | ⟨b, v, hm, hk⟩ | ⟨i, u, hruns, he, hk⟩
  · exact absurd (by rw [hk]) hne
  · refine .inl ⟨b, v, hm, ?_⟩
    by_contra hb
    exact hne (by rw [hk, Memory.read_write _ _ _ _ hwf, if_neg (Ne.symm hb)])
  · rcases exec_dmem he with ⟨hd, hw⟩ | ⟨⟨start, base, op, cnt, hi⟩, -⟩
    · refine .inr (.inl ⟨⟨i, hruns⟩, ?_⟩)
      by_contra hnone
      have hlast : lastWrite a s.meanwhile.writes = none := lastWrite_none fun w hw e => hnone ⟨w, hw, e⟩
      refine hne ?_
      rw [hk, hd, hw, State.popped_dmem, State.popped_meanwhile, Memory.read_writeAll _ _ _ hwf, hlast, Option.getD_none]
    · refine .inr (.inr ⟨start, base, op, cnt, ?_⟩)
      rcases hi with rfl | rfl
      · exact .inl hruns
      · exact .inr hruns

/-- Settles O48: by the inversion of the step. -/
theorem programFixed : Obligations.ProgramFixed := by
  intro s t h
  obtain ⟨hp, hk⟩ := step_program h
  refine ⟨hp, fun hne => ?_⟩
  rcases hk with hk | ⟨hrun, a, sl, hm, -⟩
  · exact absurd hk hne
  · exact ⟨hrun, a, sl, hm⟩

end Sys2Proof.Machine

/-! Proofs of the family 30_encoding.md: the two round trips between instructions and words, which instructions have a word
and which words stand for none, what well-formed means, and what a step refuses. Both round trips go format by format: the
table of a format (`aluInstr`, `compareInstr`, `burstInstr`, `bitTestInstr`) is said once, and the decoder and the encoder
are each tied to it. -/

namespace Sys2Proof.Laws

/-- Two checks one after the other find nothing if neither does. -/
theorem orElse_none {a b : Option IllFormed} : (a <|> b) = none ↔ a = none ∧ b = none := by
  cases a <;> simp

theorem refuseUnless_decide {p : Prop} [Decidable p] {why : IllFormed} : refuseUnless (decide p) why = none ↔ p :=
  refuseUnless_none.trans decide_eq_true_iff

/-! The decoder and the encoder of each format, over one table. -/

section Tables

variable (rd rs : Field) (op : Operand) (w : Word)

/-- Format 1: the instruction of ALU operation `n` (R123). -/
def aluInstr : Nat → Instr
  | 0 => .add rd rs op
  | 1 => .adc rd rs op
  | 2 => .sub rd rs op
  | 3 => .suc rd rs op
  | 4 => .lsl rd rs op
  | 5 => .lsr rd rs op
  | 6 => .rsb rd rs op
  | 7 => .rsc rd rs op
  | 8 => .and rd rs op
  | 9 => .or rd rs op
  | 10 => .xor rd rs op
  | 11 => .not rd rs
  | 12 => .min rd rs op
  | 13 => .max rd rs op
  | 14 => .clr rd rs op
  | _ => .set rd rs op

theorem decodeAlu_eq :
    decodeAlu w = aluInstr (decodeField (bits w 7 0)) (decodeField (bits w 15 8)) (decodeOp w) (bits w 28 25) := rfl

/-- NOT has no third operand: its word holds an immediate 0 there (R123). -/
theorem encode_aluInstr {n : Nat} (hn : n < 16) :
    encode (aluInstr rd rs op n) = encodeAlu n rd rs (if n = 11 then .imm 0 else op) := by
  interval_cases n <;> rfl

/-- Format 4: the instruction of the relation bits `n`, which are `gt`, `eq`, `lt` (R125). -/
def compareInstr (dist : Int) : Nat → Instr
  | 1 => .qblt dist rs op
  | 2 => .qbeq dist rs op
  | 3 => .qble dist rs op
  | 4 => .qbgt dist rs op
  | 5 => .qbne dist rs op
  | 6 => .qbge dist rs op
  | _ => .qba dist

theorem decodeCompare_eq : decodeCompare w =
    if bits w 29 27 = 0 then .error .noRelation
    else .ok (compareInstr (decodeField (bits w 15 8)) (decodeOp w) (decodeDist w) (bits w 29 27)) := by
  have hlt : bits w 29 27 < 8 := Nat.mod_lt _ (by decide)
  unfold decodeCompare
  generalize bits w 29 27 = n at *
  interval_cases n <;> rfl

/-- But for QBA, whose operand bits the decoder ignores, the word holds the relation bits and the operands. -/
theorem encode_compareInstr {n : Nat} (dist : Int) (h1 : 1 ≤ n) (h7 : n < 7) :
    encode (compareInstr rs op dist n) = encodeBranch (8 + n) dist (branchOperands rs op) := by
  interval_cases n <;> rfl

/-- Format 5: QBBS if `set`, QBBC if not (R126). -/
def bitTestInstr (dist : Int) : Bool → Instr
  | false => .qbbc dist rs op
  | true => .qbbs dist rs op

theorem decodeBitTest_of {b : Bool} (h : bits w 28 27 = 1 + b.toNat) :
    decodeBitTest w = .ok (bitTestInstr (decodeField (bits w 15 8)) (decodeOp w) (decodeDist w) b) := by
  cases b <;> rw [decodeBitTest, h] <;> rfl

/-- Format 6: a load or a store, from the constant table or from a register (R127). -/
def burstInstr (start : Fin 128) (base : Fin 32) (cnt : Count) : (table load : Bool) → Instr
  | false, true => .lbbo start base op cnt
  | false, false => .sbbo start base op cnt
  | true, true => .lbco start base op cnt
  | true, false => .sbco start base op cnt

theorem decodeBurst_eq (table : Bool) : decodeBurst table w =
    burstInstr (decodeOp w) (decodeStart w) (Fin.ofNat 32 (bits w 12 8))
      (decodeCount (bits w 27 25 * 16 + bits w 15 13 * 2 + bits w 7 7)) table (decide (bits w 28 28 = 1)) := rfl

theorem encode_burstInstr (start : Fin 128) (base : Fin 32) (cnt : Count) (table load : Bool) :
    encode (burstInstr op start base cnt table load)
      = encodeBurst ((if table then 8 else 14) + load.toNat) start base op cnt := by
  cases table <;> cases load <;> rfl

end Tables

/-! Decoding what was encoded, format by format. -/

section DecodeEncode

variable {rd rs : Field} {op : Operand} {w : Word} {n k : Nat} {dist : Int} {dev : Nat} {start : Fin 128} {cnt : Count}

theorem decode_encodeAlu (hw : encodeAlu n rd rs op = some w) (hn : n < 16) (h : op.check k = none) (hk : k ≤ 255) :
    decode w = .ok (aluInstr rd rs op n) := by
  obtain ⟨hd, hsub, hrd, hrs, hop⟩ := encodeAlu_bits hw hn h hk
  rw [hd, decodeAlu_eq, hsub, hrd, hrs, hop]

theorem decode_encodeCompare (hw : encodeBranch (8 + n) dist (branchOperands rs op) = some w) (h1 : 1 ≤ n) (h8 : n < 8)
    (h : op.check k = none) (hk : k ≤ 255) : decode w = .ok (compareInstr rs op dist n) := by
  obtain ⟨hhead, hdist, hrs, hop⟩ := encodeBranch_bits hw (by omega) h hk
  obtain ⟨hd, hrel⟩ := decode_compare hhead (by omega) (by omega)
  have hn : bits w 29 27 = n := by omega
  rw [hd, decodeCompare_eq, if_neg (by omega), hn, hdist, hrs, hop]

theorem decode_encodeBitTest {b : Bool} (hw : encodeBranch (25 + b.toNat) dist (branchOperands rs op) = some w)
    (h : op.check k = none) (hk : k ≤ 255) : decode w = .ok (bitTestInstr rs op dist b) := by
  have hb : b.toNat < 2 := b.toNat_lt
  obtain ⟨hhead, hdist, hrs, hop⟩ := encodeBranch_bits hw (by omega) h hk
  obtain ⟨hd, hsense⟩ := decode_bitTest hhead (by omega) (by omega)
  rw [hd, decodeBitTest_of w (b := b) (by omega), hdist, hrs, hop]

theorem decode_encodeBurst {base : Fin 32} {table load : Bool}
    (hw : encodeBurst ((if table then 8 else 14) + load.toNat) start base op cnt = some w)
    (h : op.check 255 = none) (hc : cnt.check = none) : decode w = .ok (burstInstr op start base cnt table load) := by
  have hn : (if table then 8 else 14) + load.toNat < 16 := by cases table <;> cases load <;> decide
  obtain ⟨hfmt, hload, hcnt, hstart, hbase, hop⟩ := encodeBurst_bits hw hn h hc
  have hd : decode w = .ok (decodeBurst table w) := by cases table <;> cases load <;> rw [decode, hfmt] <;> rfl
  have hl : decide (bits w 28 28 = 1) = load := by rw [hload]; cases table <;> cases load <;> rfl
  rw [hd, decodeBurst_eq, hl, hcnt, hstart, hbase, hop]

/-! Format 2: when the decoder accepts a word of each sub-operation, and what it reads (R124). -/

theorem decodeMisc_jmp (h : bits w 28 25 = 0) (h7 : bits w 7 0 = 0) (h15 : bits w 24 24 = 0 → bits w 15 8 = 0) :
    decodeMisc w = .ok (.jmp (decodeTarget w)) := by
  simp only [decodeMisc, h]
  exact if_neg (by simpa [h7] using h15)

theorem decodeMisc_jal (h : bits w 28 25 = 1) (h15 : bits w 24 24 = 0 → bits w 15 8 = 0) :
    decodeMisc w = .ok (.jal (decodeField (bits w 7 0)) (decodeTarget w)) := by
  simp only [decodeMisc, h]
  exact if_neg (by simpa using h15)

theorem decodeMisc_ldi (h : bits w 28 25 = 2) (h24 : bits w 24 24 = 0) :
    decodeMisc w = .ok (.ldi (decodeField (bits w 7 0)) (bits w 23 8)) := by
  simp only [decodeMisc, h]
  exact if_neg (not_not.mpr h24)

/-- The count of a LOOP word: bits 23:16 hold an immediate less one (R124). -/
def decodeLoopCount (w : Word) : Operand :=
  if bits w 24 24 = 1 then .imm (bits w 23 16 + 1) else .reg (decodeField (bits w 23 16))

theorem decodeMisc_loop (h : bits w 28 25 = 8) (h15 : bits w 15 15 = 0) (h14 : bits w 14 8 = 0) :
    decodeMisc w = .ok (.loop (bits w 7 0) (decodeLoopCount w)) := by
  simp only [decodeMisc, h, h15, h14]
  rfl

theorem decodeXfr_zero {m : Nat} (h14 : bits w 14 14 = 0) (hdir : bits w 24 23 = 1) (hdev : bits w 22 15 = 255)
    (hcnt : decodeCount (bits w 13 7) = .imm m) : decodeXfr w = .ok (.zero (decodeStart w) m) := by
  simp [decodeXfr, h14, hdir, hdev, hcnt]

theorem decodeXfr_xin (h14 : bits w 14 14 = 0) (hdir : bits w 24 23 = 1) (hdev : bits w 22 15 ≤ 253) :
    decodeXfr w = .ok (.xin (bits w 22 15) (decodeStart w) (decodeCount (bits w 13 7))) := by
  have h255 : bits w 22 15 ≠ 255 := by omega
  have h254 : bits w 22 15 ≠ 254 := by omega
  simp [decodeXfr, h14, hdir, h255, h254]

theorem decodeXfr_xout (h14 : bits w 14 14 = 0) (hdir : bits w 24 23 = 2) :
    decodeXfr w = .ok (.xout (bits w 22 15) (decodeStart w) (decodeCount (bits w 13 7))) := by
  simp [decodeXfr, h14, hdir]

theorem decodeXfr_xchg (h14 : bits w 14 14 = 0) (hdir : bits w 24 23 = 3) :
    decodeXfr w = .ok (.xchg (bits w 22 15) (decodeStart w) (decodeCount (bits w 13 7))) := by
  simp [decodeXfr, h14, hdir]

/-! Format 2, encoded and decoded. -/

/-- Bits 15:8 of a register target are 0 (R124). -/
theorem encodeTarget_unused {t : Operand} (hc : t.check 65535 = none) (h : encodeTarget t / 2 ^ 24 % 2 = 0) :
    encodeTarget t / 2 ^ 8 % 2 ^ 8 = 0 := by
  cases t with
  | imm v =>
    have := operand_imm_le hc
    simp only [encodeTarget] at h
    omega
  | reg f =>
    simp only [encodeTarget]
    omega

theorem decode_encodeJmp {t : Operand} (hw : encodeMisc 0 (encodeTarget t) = some w) (h : t.check 65535 = none) :
    decode w = .ok (.jmp t) := by
  obtain ⟨hlt, hlow⟩ := encodeTarget_lt h
  have hun := encodeTarget_unused h
  obtain ⟨hd, hsub, hv⟩ := encodeMisc_bits hw (by decide) hlt
  have ht : decodeTarget w = t := decodeTarget_encode h w (by omega)
  rw [hd, decodeMisc_jmp hsub (by simp only [bits]; omega) (by simp only [bits]; omega), ht]

theorem decode_encodeJal {t : Operand} (hw : encodeMisc 1 (encodeTarget t + encodeField rd) = some w)
    (h : t.check 65535 = none) : decode w = .ok (.jal rd t) := by
  obtain ⟨hlt, hlow⟩ := encodeTarget_lt h
  have hf := encodeField_lt rd
  have hun := encodeTarget_unused h
  obtain ⟨hd, hsub, hv⟩ := encodeMisc_bits hw (by decide) (by omega)
  have ht : decodeTarget w = t := decodeTarget_encode h w (by omega)
  have hrd : decodeField (bits w 7 0) = rd := decodeField_encode _ _ (by simp only [bits]; omega)
  rw [hd, decodeMisc_jal hsub (by simp only [bits]; omega), ht, hrd]

theorem decode_encodeLdi {v : Nat} (hw : encodeMisc 2 (v * 2 ^ 8 + encodeField rd) = some w) (h : v ≤ 65535) :
    decode w = .ok (.ldi rd v) := by
  have hf := encodeField_lt rd
  obtain ⟨hd, hsub, hv⟩ := encodeMisc_bits hw (by decide) (by omega)
  have hrd : decodeField (bits w 7 0) = rd := decodeField_encode _ _ (by simp only [bits]; omega)
  have himm : bits w 23 8 = v := by simp only [bits]; omega
  rw [hd, decodeMisc_ldi hsub (by simp only [bits]; omega), hrd, himm]

theorem decode_encodeLmbd (hw : encodeMisc 3 (encodeOp op + encodeField rs * 2 ^ 8 + encodeField rd) = some w)
    (h : op.check 255 = none) : decode w = .ok (.lmbd rd rs op) := by
  obtain ⟨hlt, hlow⟩ := encodeOp_lt h (le_refl _)
  have hf := encodeField_lt rd
  have hf' := encodeField_lt rs
  obtain ⟨hd, hsub, hv⟩ := encodeMisc_bits hw (by decide) (by omega)
  have hrd : decodeField (bits w 7 0) = rd := decodeField_encode _ _ (by simp only [bits]; omega)
  have hrs : decodeField (bits w 15 8) = rs := decodeField_encode _ _ (by simp only [bits]; omega)
  have hop : decodeOp w = op := decodeOp_encode h (le_refl _) w (by omega)
  simp only [hd, decodeMisc, hsub, hrd, hrs, hop]

theorem decode_encodeScan {rn : Fin 32} (hw : encodeMisc 4 (encodeOp op + encodeField ⟨rn, .full⟩) = some w)
    (h : op.check 255 = none) : decode w = .ok (.scan rn op) := by
  obtain ⟨hlt, hlow⟩ := encodeOp_lt h (le_refl _)
  have hf : encodeField ⟨rn, .full⟩ = 7 * 32 + rn := rfl
  obtain ⟨hd, hsub, hv⟩ := encodeMisc_bits hw (by decide) (by omega)
  have hrn : Fin.ofNat 32 (bits w 4 0) = rn := Fin.ext (by simp only [bits, Fin.ofNat]; omega)
  have hop : decodeOp w = op := decodeOp_encode h (le_refl _) w (by omega)
  simp only [hd, decodeMisc, hsub, hrn, hop]

theorem decode_encodeLoop {c : Operand} (hw : encode (.loop dist c) = some w) (h : operandCheck (.loop dist c) = none) :
    decode w = .ok (.loop dist c) := by
  cases c with
  | imm v =>
    have hv : 1 ≤ v ∧ v ≤ 256 := refuseUnless_decide.mp h
    simp only [encode, Option.ite_none_right_eq_some] at hw
    obtain ⟨hdist, hw⟩ := hw
    obtain ⟨hd, hsub, hval⟩ := encodeMisc_bits hw (by decide) (by omega)
    have hlab : (bits w 7 0 : Int) = dist := by simp only [bits]; omega
    have hc : decodeLoopCount w = .imm v := by
      rw [decodeLoopCount, if_pos (by simp only [bits]; omega)]
      exact congrArg Operand.imm (by simp only [bits]; omega)
    rw [hd, decodeMisc_loop hsub (by simp only [bits]; omega) (by simp only [bits]; omega), hlab, hc]
  | reg f =>
    have hf := encodeField_lt f
    simp only [encode, Option.ite_none_right_eq_some] at hw
    obtain ⟨hdist, hw⟩ := hw
    obtain ⟨hd, hsub, hval⟩ := encodeMisc_bits hw (by decide) (by omega)
    have hlab : (bits w 7 0 : Int) = dist := by simp only [bits]; omega
    have hc : decodeLoopCount w = .reg f := by
      rw [decodeLoopCount, if_neg (by simp only [bits]; omega)]
      exact congrArg Operand.reg (decodeField_encode _ _ (by simp only [bits]; omega))
    rw [hd, decodeMisc_loop hsub (by simp only [bits]; omega) (by simp only [bits]; omega), hlab, hc]

theorem decode_encodeSlp {wake : Bool} (hw : encode (.slp wake) = some w) : decode w = .ok (.slp wake) := by
  cases wake <;> cases hw <;> rfl

theorem decode_encodeZero {o m : Nat} (hw : encode (.zero o m) = some w) (h : operandCheck (.zero o m) = none) :
    decode w = .ok (.zero o m) := by
  obtain ⟨ho, hc⟩ : _ ∧ Count.check (.imm m) = none := orElse_none.mp h
  have ho : o ≤ 123 := refuseUnless_decide.mp ho
  obtain ⟨hd, hdir, hdev, h14, hcode, hstart⟩ :=
    encodeXfr_bits (start := ⟨o, by omega⟩) hw (by decide) (by decide) (encodeCount_lt hc)
  rw [hd, decodeXfr_zero h14 hdir hdev (by rw [hcode, decodeCount_encode hc]), hstart]

theorem decode_encodeXin (hw : encodeXfr 1 dev start (encodeCount cnt) = some w) (hv : dev ≤ 253)
    (hc : cnt.check = none) : decode w = .ok (.xin dev start cnt) := by
  obtain ⟨hd, hdir, hdev, h14, hcode, hstart⟩ := encodeXfr_bits hw (by decide) (by omega) (encodeCount_lt hc)
  rw [hd, decodeXfr_xin h14 hdir (by omega), hdev, hstart, hcode, decodeCount_encode hc]

theorem decode_encodeXout (hw : encodeXfr 2 dev start (encodeCount cnt) = some w) (hv : dev ≤ 253)
    (hc : cnt.check = none) : decode w = .ok (.xout dev start cnt) := by
  obtain ⟨hd, hdir, hdev, h14, hcode, hstart⟩ := encodeXfr_bits hw (by decide) (by omega) (encodeCount_lt hc)
  rw [hd, decodeXfr_xout h14 hdir, hdev, hstart, hcode, decodeCount_encode hc]

theorem decode_encodeXchg (hw : encodeXfr 3 dev start (encodeCount cnt) = some w) (hv : dev ≤ 253)
    (hc : cnt.check = none) : decode w = .ok (.xchg dev start cnt) := by
  obtain ⟨hd, hdir, hdev, h14, hcode, hstart⟩ := encodeXfr_bits hw (by decide) (by omega) (encodeCount_lt hc)
  rw [hd, decodeXfr_xchg h14 hdir, hdev, hstart, hcode, decodeCount_encode hc]

end DecodeEncode

/-- Settles O56: by the format of each instruction's word. -/
theorem decodeEncode : Obligations.DecodeEncode := by
  intro i w hc hw
  cases i with
  | add rd rs op => exact decode_encodeAlu (n := 0) (k := 255) hw (by decide) hc (by decide)
  | adc rd rs op => exact decode_encodeAlu (n := 1) (k := 255) hw (by decide) hc (by decide)
  | sub rd rs op => exact decode_encodeAlu (n := 2) (k := 255) hw (by decide) hc (by decide)
  | suc rd rs op => exact decode_encodeAlu (n := 3) (k := 255) hw (by decide) hc (by decide)
  | lsl rd rs op => exact decode_encodeAlu (n := 4) (k := 31) hw (by decide) hc (by decide)
  | lsr rd rs op => exact decode_encodeAlu (n := 5) (k := 31) hw (by decide) hc (by decide)
  | rsb rd rs op => exact decode_encodeAlu (n := 6) (k := 255) hw (by decide) hc (by decide)
  | rsc rd rs op => exact decode_encodeAlu (n := 7) (k := 255) hw (by decide) hc (by decide)
  | and rd rs op => exact decode_encodeAlu (n := 8) (k := 255) hw (by decide) hc (by decide)
  | or rd rs op => exact decode_encodeAlu (n := 9) (k := 255) hw (by decide) hc (by decide)
  | xor rd rs op => exact decode_encodeAlu (n := 10) (k := 255) hw (by decide) hc (by decide)
  | not rd rs => exact decode_encodeAlu (n := 11) (k := 255) (op := .imm 0) hw (by decide) rfl (by decide)
  | min rd rs op => exact decode_encodeAlu (n := 12) (k := 255) hw (by decide) hc (by decide)
  | max rd rs op => exact decode_encodeAlu (n := 13) (k := 255) hw (by decide) hc (by decide)
  | clr rd rs op => exact decode_encodeAlu (n := 14) (k := 31) hw (by decide) hc (by decide)
  | set rd rs op => exact decode_encodeAlu (n := 15) (k := 31) hw (by decide) hc (by decide)
  | mov rd src =>
    cases src with
    | reg f => exact decode_encodeAlu (n := 8) (k := 255) (op := .reg f) hw (by decide) rfl (by decide)
    | imm v => exact decode_encodeLdi hw (operand_imm_le hc)
  | jmp t => exact decode_encodeJmp hw hc
  | jal rd t => exact decode_encodeJal hw hc
  | ldi rd v => exact decode_encodeLdi hw (operand_imm_le hc)
  | lmbd rd rs op => exact decode_encodeLmbd hw hc
  | scan rn op => exact decode_encodeScan hw hc
  | halt => cases hw; rfl
  | slp wake => exact decode_encodeSlp hw
  | loop dist c => exact decode_encodeLoop hw hc
  | mvib dst src | mviw dst src | mvid dst src => cases hw
  | zero o m => exact decode_encodeZero hw hc
  | xin dev start cnt =>
    obtain ⟨hdev, hcnt⟩ := orElse_none.mp hc
    exact decode_encodeXin hw (refuseUnless_decide.mp hdev) hcnt
  | xout dev start cnt =>
    obtain ⟨hdev, hcnt⟩ := orElse_none.mp hc
    exact decode_encodeXout hw (refuseUnless_decide.mp hdev) hcnt
  | xchg dev start cnt =>
    obtain ⟨hdev, hcnt⟩ := orElse_none.mp hc
    exact decode_encodeXchg hw (refuseUnless_decide.mp hdev) hcnt
  | qblt dist rs op => exact decode_encodeCompare (n := 1) (k := 255) hw (by decide) (by decide) hc (by decide)
  | qbeq dist rs op => exact decode_encodeCompare (n := 2) (k := 255) hw (by decide) (by decide) hc (by decide)
  | qble dist rs op => exact decode_encodeCompare (n := 3) (k := 255) hw (by decide) (by decide) hc (by decide)
  | qbgt dist rs op => exact decode_encodeCompare (n := 4) (k := 255) hw (by decide) (by decide) hc (by decide)
  | qbne dist rs op => exact decode_encodeCompare (n := 5) (k := 255) hw (by decide) (by decide) hc (by decide)
  | qbge dist rs op => exact decode_encodeCompare (n := 6) (k := 255) hw (by decide) (by decide) hc (by decide)
  | qba dist =>
    exact decode_encodeCompare (n := 7) (k := 255) (rs := ⟨0, .b0⟩) (op := .reg ⟨0, .b0⟩) hw (by decide) (by decide) rfl
      (by decide)
  | qbbc dist rs op => exact decode_encodeBitTest (b := false) (k := 31) hw hc (by decide)
  | qbbs dist rs op => exact decode_encodeBitTest (b := true) (k := 31) hw hc (by decide)
  | wbs rs op => exact decode_encodeBitTest (b := false) (k := 31) hw hc (by decide)
  | wbc rs op => exact decode_encodeBitTest (b := true) (k := 31) hw hc (by decide)
  | lbbo start base op cnt =>
    obtain ⟨hop, hcnt⟩ := orElse_none.mp hc
    exact decode_encodeBurst (table := false) (load := true) hw hop hcnt
  | sbbo start base op cnt =>
    obtain ⟨hop, hcnt⟩ := orElse_none.mp hc
    exact decode_encodeBurst (table := false) (load := false) hw hop hcnt
  | lbco start base op cnt =>
    obtain ⟨hop, hcnt⟩ := orElse_none.mp hc
    exact decode_encodeBurst (table := true) (load := true) hw hop hcnt
  | sbco start base op cnt =>
    obtain ⟨hop, hcnt⟩ := orElse_none.mp hc
    exact decode_encodeBurst (table := true) (load := false) hw hop hcnt

/-! Encoding what was decoded, format by format. -/

section EncodeDecode

variable {w : Word} {i : Instr}

theorem encode_decodeAlu (hf : bits w 31 29 = 0) (hnot : ∀ rd rs, decodeAlu w ≠ .not rd rs) :
    encode (decodeAlu w) = some w := by
  have hlt : bits w 28 25 < 16 := Nat.mod_lt _ (by decide)
  have h11 : bits w 28 25 ≠ 11 := fun h => hnot _ _ (by rw [decodeAlu_eq, h]; rfl)
  rw [decodeAlu_eq, encode_aluInstr _ _ _ hlt, if_neg h11]
  exact encodeAlu_decode w _ hf rfl

theorem encode_decodeCompare (hf : bits w 31 30 = 1) (h : decodeCompare w = .ok i) (hqba : ∀ dist, i ≠ .qba dist) :
    encode i = some w := by
  rw [decodeCompare_eq] at h
  split at h
  · cases h
  · next h0 =>
    cases h
    have h7 : bits w 29 27 ≠ 7 := fun h7 => hqba (decodeDist w) (by rw [h7]; rfl)
    have hlt : bits w 29 27 < 8 := Nat.mod_lt _ (by decide)
    rw [encode_compareInstr _ _ _ (by omega) (by omega)]
    exact encodeBranch_decode w _ (by simp only [bits] at *; omega)

theorem encode_decodeBitTest (hf : bits w 31 29 = 6) (h : decodeBitTest w = .ok i) : encode i = some w := by
  unfold decodeBitTest at h
  split at h
  · cases h
    exact encodeBranch_decode w 0b11001 (by simp only [bits] at *; omega)
  · cases h
    exact encodeBranch_decode w 0b11010 (by simp only [bits] at *; omega)
  · cases h

theorem encode_decodeBurst {table : Bool} (hf : bits w 31 29 = if table then 4 else 7) :
    encode (decodeBurst table w) = some w := by
  have hload : (decide (bits w 28 28 = 1)).toNat = bits w 28 28 := by
    have hlt : bits w 28 28 < 2 := Nat.mod_lt _ (by decide)
    interval_cases bits w 28 28 <;> rfl
  rw [decodeBurst_eq, encode_burstInstr, hload]
  have := w.isLt
  refine encodeBurst_decode w _ ?_
  cases table with
  | true =>
    change bits w 31 29 = 4 at hf
    change _ = 8 + bits w 28 28
    simp only [bits] at *
    omega
  | false =>
    change bits w 31 29 = 7 at hf
    change _ = 14 + bits w 28 28
    simp only [bits] at *
    omega

theorem encode_decodeXfr (hf : bits w 31 29 = 1) (hs : bits w 28 25 = 7) (h : decodeXfr w = .ok i) :
    encode i = some w := by
  have hcode : encodeCount (decodeCount (bits w 13 7)) = bits w 13 7 :=
    encodeCount_decode _ (Nat.mod_lt _ (by decide))
  have hword {dir : Nat} (h14 : bits w 14 14 = 0) (hdir : bits w 24 23 = dir) :
      encodeXfr dir (bits w 22 15) (decodeStart w) (encodeCount (decodeCount (bits w 13 7))) = some w := by
    rw [hcode]
    exact encodeXfr_decode w dir hf hs hdir h14
  simp only [decodeXfr] at h
  split at h
  · cases h
  · next h14 =>
    have h14 := not_not.mp h14
    split at h
    · cases h
    · next hdir =>
      split at h
      · next hdev =>
        split at h
        · next m hcnt =>
          cases h
          have := hword h14 hdir
          rwa [hdev, hcnt] at this
        · cases h
      · split at h
        · cases h
        · cases h; exact hword h14 hdir
    · next hdir => cases h; exact hword h14 hdir
    · next h0 h1 h2 =>
      cases h
      have hlt : bits w 24 23 < 4 := Nat.mod_lt _ (by decide)
      simp only [imp_false] at h0 h1 h2
      exact hword (dir := 3) h14 (by omega)

theorem encode_decodeLoopCount (dist : Nat) (hd : dist ≤ 255) :
    encode (.loop dist (decodeLoopCount w)) = encodeMisc 8 (bits w 24 16 * 2 ^ 16 + dist) := by
  unfold decodeLoopCount
  split
  · next h =>
    simp only [encode]
    rw [if_pos (by omega)]
    exact congrArg (encodeMisc 8) (by simp only [bits] at *; omega)
  · next h =>
    simp only [encode]
    rw [if_pos (by omega), encodeField_decode]
    exact congrArg (encodeMisc 8) (by simp only [bits] at *; omega)

theorem encode_decodeMisc (hf : bits w 31 29 = 1) (h : decodeMisc w = .ok i) (hscan : ∀ rn op, i ≠ .scan rn op) :
    encode i = some w := by
  simp only [decodeMisc] at h
  split at h
  case h_1 hs =>
    split at h
    · cases h
    · next hz =>
      obtain ⟨h7, h15⟩ := not_or.mp hz
      cases h
      refine encodeMisc_decode w _ _ hf hs ?_
      rw [encodeTarget_decode w h15]
      simp only [bits] at *; omega
  case h_2 hs =>
    split at h
    · cases h
    · next h15 =>
      cases h
      refine encodeMisc_decode w _ _ hf hs ?_
      rw [encodeTarget_decode w h15, encodeField_decode]
      simp only [bits] at *; omega
  case h_3 hs =>
    split at h
    · cases h
    · next h24 =>
      cases h
      refine encodeMisc_decode w _ _ hf hs ?_
      rw [encodeField_decode]
      simp only [bits] at *; omega
  case h_4 hs =>
    cases h
    refine encodeMisc_decode w _ _ hf hs ?_
    rw [encodeOp_decode, encodeField_decode, encodeField_decode]
    simp only [bits] at *; omega
  case h_5 => cases h; exact absurd rfl (hscan _ _)
  case h_6 hs =>
    split at h
    · cases h
    · next hz =>
      cases h
      refine encodeMisc_decode w _ _ hf hs ?_
      simp only [bits] at *; omega
  case h_7 => cases h
  case h_8 hs => exact encode_decodeXfr hf hs h
  case h_9 hs =>
    split at h
    · cases h
    · split at h
      · cases h
      · cases h
        rw [← decodeLoopCount, encode_decodeLoopCount _ (by simp only [bits]; omega)]
        refine encodeMisc_decode w _ _ hf hs ?_
        simp only [bits] at *; omega
  case h_10 hs =>
    split at h
    · cases h
    · next hz =>
      cases h
      refine encodeMisc_decode w _ _ hf hs ?_
      simp only [decide_eq_true_eq]
      split <;> simp only [bits] at * <;> omega
  case h_11 => cases h

end EncodeDecode

/-- Settles O57: by the format of the word. -/
theorem encodeDecode : Obligations.EncodeDecode := by
  intro w i h hnot hscan hqba
  unfold decode at h
  split at h
  case h_1 hf => cases h; exact encode_decodeAlu hf hnot
  case h_2 hf => exact encode_decodeMisc hf h hscan
  case h_3 hf => exact encode_decodeCompare (by simp only [bits] at *; omega) h hqba
  case h_4 hf => exact encode_decodeCompare (by simp only [bits] at *; omega) h hqba
  case h_5 hf => cases h; exact encode_decodeBurst (table := true) hf
  case h_6 => cases h
  case h_7 hf => exact encode_decodeBitTest hf h
  case h_8 h0 h1 h2 h3 h4 h5 h6 =>
    cases h
    have hlt : bits w 31 29 < 8 := Nat.mod_lt _ (by decide)
    simp only [imp_false] at h0 h1 h2 h3 h4 h5 h6
    have hf : bits w 31 29 = 7 := by omega
    exact encode_decodeBurst (table := false) hf

/-! Which instructions have a word, and which words stand for none. -/

theorem encodeBranch_isSome (head low : Nat) (dist : Int) :
    (encodeBranch head dist low).isSome = decide (-512 ≤ dist ∧ dist ≤ 511) := by
  unfold encodeBranch encodeDist
  by_cases h : -512 ≤ dist ∧ dist ≤ 511
  · rw [if_pos h, decide_eq_true h]; rfl
  · rw [if_neg h, decide_eq_false h]; rfl

theorem encodeLoop_isSome (dist : Int) (c : Operand) :
    (encode (.loop dist c)).isSome = decide (0 ≤ dist ∧ dist ≤ 255) := by
  cases c <;> by_cases h : 0 ≤ dist ∧ dist ≤ 255 <;> simp only [encode, h] <;> rfl

/-- Settles O58: the words of formats 1, 2 and 6 are made without a test but for the label of a LOOP; those of formats 4 and
5 are made where the distance fits. -/
theorem encodeDefined : Obligations.EncodeDefined := by
  intro i
  cases i with
  | mov rd src => cases src <;> rfl
  | loop dist c => exact encodeLoop_isSome dist c
  | qbgt dist rs op | qbge dist rs op | qblt dist rs op | qble dist rs op | qbeq dist rs op | qbne dist rs op
  | qba dist | qbbs dist rs op | qbbc dist rs op => exact encodeBranch_isSome _ _ dist
  | wbs rs op | wbc rs op => exact encodeBranch_isSome _ _ 0
  | _ => rfl

/-- Settles O59: in each of the five kinds the decoder's own branch is an error. -/
theorem decodeRejects : Obligations.DecodeRejects := by
  rintro w (hf | ⟨hf, hs⟩ | ⟨hs, hdir⟩ | ⟨hf, hrel⟩ | ⟨hf, hsense⟩)
  · exact ⟨.format101, by simp only [decode, hf]⟩
  · have hd : decode w = decodeMisc w := by simp only [decode, hf]
    rw [hd]
    unfold decodeMisc
    generalize bits w 28 25 = n at *
    rcases hs with rfl | ⟨h9, h14⟩
    · exact ⟨_, rfl⟩
    · interval_cases n <;> exact ⟨_, rfl⟩
  · have hf : bits w 31 29 = 1 := by simp only [bits] at *; omega
    have h7 : bits w 28 25 = 7 := by simp only [bits] at *; omega
    have hd : decode w = decodeXfr w := by simp only [decode, hf, decodeMisc, h7]
    rw [hd, decodeXfr, hdir]
    split <;> exact ⟨_, rfl⟩
  · obtain ⟨hd, -⟩ := decode_compare (w := w) (n := 8) (by simp only [bits] at *; omega) (by decide) (by decide)
    exact ⟨.noRelation, by rw [hd, decodeCompare_eq, if_pos hrel]⟩
  · have hd : decode w = decodeBitTest w := by simp only [decode, hf]
    rcases hsense with h | h <;> exact ⟨.noBitSense, by simp only [hd, decodeBitTest, h]⟩

/-- Settles O60: each word is decoded. -/
theorem decodeWords : Obligations.DecodeWords := by
  unfold Obligations.DecodeWords
  decide

end Sys2Proof.Laws

namespace Sys2Proof.Machine

/-! Pseudo-ops (R107). -/

theorem exec_mov_reg (rd f : Field) (s : State) : exec (.mov rd (.reg f)) s = exec (.and rd f (.reg f)) s :=
  congrArg (s.result rd) BitVec.and_self.symm

/-- Settles O14: MOV of a register is the one expansion with another meaning; `x AND x` is `x`. -/
theorem pseudoOps : Obligations.PseudoOps := by
  intro i s
  cases i with
  | mov rd src =>
    cases src with
    | reg f => exact exec_mov_reg rd f s
    | imm v => rfl
  | _ => rfl

/-! What each check of an instruction means (R99, R105, R108, R226, R260, R292). -/

section WellFormed

open Laws (orElse_none refuseUnless_decide)

variable {p : Config.Params} {pc : InstrAddr} {i : Instr}

/-- Every number of the list lies in its range. -/
def InRanges (l : List (Nat × Nat × Nat)) : Prop := ∀ x ∈ l, x.2.1 ≤ x.1 ∧ x.1 ≤ x.2.2

theorem inRanges_nil : InRanges [] := nofun

theorem inRanges_cons {v lo hi : Nat} {l : List (Nat × Nat × Nat)} :
    InRanges ((v, lo, hi) :: l) ↔ (lo ≤ v ∧ v ≤ hi) ∧ InRanges l := List.forall_mem_cons

theorem inRanges_singleton {v lo hi : Nat} : InRanges [(v, lo, hi)] ↔ lo ≤ v ∧ v ≤ hi := List.forall_mem_singleton

theorem inRanges_append {l l' : List (Nat × Nat × Nat)} : InRanges (l ++ l') ↔ InRanges l ∧ InRanges l' :=
  List.forall_mem_append

theorem operand_check_none {n : Nat} {op : Operand} : op.check n = none ↔ InRanges (opRange 0 n op) := by
  cases op with
  | reg f => exact iff_of_true rfl inRanges_nil
  | imm v =>
    rw [opRange, inRanges_singleton, and_iff_right (Nat.zero_le v)]
    exact refuseUnless_decide

theorem count_check_none {cnt : Count} : cnt.check = none ↔ InRanges (countRange cnt) := by
  cases cnt with
  | imm v => exact refuseUnless_decide.trans inRanges_singleton.symm
  | r0 k => exact iff_of_true rfl inRanges_nil

theorem loop_operandCheck_none {dist : Int} {op : Operand} :
    operandCheck (.loop dist op) = none ↔ InRanges (opRange 1 256 op) := by
  cases op with
  | imm v => exact refuseUnless_decide.trans inRanges_singleton.symm
  | reg f => exact iff_of_true rfl inRanges_nil

theorem burst_check_none {op : Operand} {cnt : Count} :
    (op.check 255 <|> cnt.check) = none ↔ InRanges (opRange 0 255 op ++ countRange cnt) := by
  rw [orElse_none, operand_check_none, count_check_none, inRanges_append]

theorem xfr_check_none {dev : Nat} {cnt : Count} :
    (refuseUnless (decide (dev ≤ 253)) .deviceId <|> cnt.check) = none ↔ InRanges ((dev, 0, 253) :: countRange cnt) := by
  rw [orElse_none, refuseUnless_decide, count_check_none, inRanges_cons, and_iff_right (Nat.zero_le dev)]

theorem zero_check_none {start len : Nat} :
    operandCheck (.zero start len) = none ↔ InRanges (immediateRanges (.zero start len)) := by
  rw [operandCheck, orElse_none, refuseUnless_decide, refuseUnless_decide, immediateRanges, inRanges_cons,
    inRanges_singleton, and_iff_right (Nat.zero_le start)]

/-- An MVIx has a pointer operand (R202). -/
def HasPointer (i : Instr) : Prop :=
  ∀ m ∈ mviSizes, ∀ dst src, i = m.2 dst src → dst.isPointer = true ∨ src.isPointer = true

theorem hasPointer_iff : HasPointer i ↔
    (∀ dst src, i = .mvib dst src → dst.isPointer = true ∨ src.isPointer = true)
      ∧ (∀ dst src, i = .mviw dst src → dst.isPointer = true ∨ src.isPointer = true)
      ∧ ∀ dst src, i = .mvid dst src → dst.isPointer = true ∨ src.isPointer = true := by
  simp only [HasPointer, mviSizes, List.forall_mem_cons, List.not_mem_nil, false_imp_iff, implies_true, and_true]

/-- The instructions that go through a pointer (R202). -/
def isMvi : Instr → Bool
  | .mvib .. | .mviw .. | .mvid .. => true
  | _ => false

/-- The check of an instruction that is no MVIx is about ranges alone. -/
theorem ranges_and_hasPointer {c : Prop} (h : c ↔ InRanges (immediateRanges i)) (hi : isMvi i = false) :
    c ↔ InRanges (immediateRanges i) ∧ HasPointer i := by
  refine h.trans (and_iff_left (hasPointer_iff.mpr ⟨?_, ?_, ?_⟩)).symm
  · rintro d s rfl; cases hi
  · rintro d s rfl; cases hi
  · rintro d s rfl; cases hi

theorem operandCheck_none : operandCheck i = none ↔ InRanges (immediateRanges i) ∧ HasPointer i := by
  cases i with
  | mvib dst src | mviw dst src | mvid dst src =>
    simp [operandCheck, immediateRanges, inRanges_nil, hasPointer_iff, refuseUnless_none]
  | add rd rs op | adc rd rs op | sub rd rs op | suc rd rs op | rsb rd rs op | rsc rd rs op | lsl rd rs op | lsr rd rs op
  | and rd rs op | or rd rs op | xor rd rs op | min rd rs op | max rd rs op | clr rd rs op | set rd rs op
  | lmbd rd rs op | scan rn op | mov rd op | jmp op | jal rd op
  | qbgt dist rs op | qbge dist rs op | qblt dist rs op | qble dist rs op | qbeq dist rs op | qbne dist rs op
  | qbbs dist rs op | qbbc dist rs op | wbs rs op | wbc rs op =>
    exact ranges_and_hasPointer operand_check_none rfl
  | ldi rd v => exact ranges_and_hasPointer (operand_check_none (n := 65535) (op := .imm v)) rfl
  | lbbo start base op cnt | sbbo start base op cnt | lbco start base op cnt | sbco start base op cnt =>
    exact ranges_and_hasPointer burst_check_none rfl
  | zero start len => exact ranges_and_hasPointer zero_check_none rfl
  | xin dev start cnt | xout dev start cnt | xchg dev start cnt =>
    exact ranges_and_hasPointer xfr_check_none rfl
  | loop dist op => exact ranges_and_hasPointer loop_operandCheck_none rfl
  | not rd rs | qba dist | halt | slp wake =>
    exact ranges_and_hasPointer (iff_of_true rfl inRanges_nil) rfl

theorem available_iff : available p i = true ↔ CoreHas p i := by
  cases i with
  | scan rn op => simp [available, CoreHas]
  | mvib dst src | mviw dst src | mvid dst src | zero start len | xin dev start cnt | xout dev start cnt
  | xchg dev start cnt | loop dist op => exact decide_eq_true_iff
  | _ => exact iff_of_true rfl trivial

theorem xchgCheck_none : xchgCheck p i = none ↔ ∀ dev start cnt, i = .xchg dev start cnt → p.xchg ≠ .refuse := by
  cases i with
  | xchg dev start cnt =>
    exact refuseUnless_decide.trans ⟨fun h _ _ _ _ => h, fun h => h dev start cnt rfl⟩
  | _ => exact iff_of_true rfl nofun

theorem inReach_iff {range : Option (Int × Int)} {dist : Int} : inReach range dist = true ↔ Reaches range dist := by
  cases range with
  | none => exact iff_of_true rfl nofun
  | some r =>
    obtain ⟨lo, hi⟩ := r
    refine decide_eq_true_iff.trans ⟨?_, fun h => h lo hi rfl⟩
    rintro h _ _ ⟨⟩
    exact h

theorem branchCheck_none {dist : Int} : branchCheck p pc dist = none ↔
    0 ≤ (pc.toNat : Int) + dist ∧ (pc.toNat : Int) + dist ≤ 65535 ∧ Reaches p.qbRange dist := by
  rw [branchCheck, orElse_none, refuseUnless_decide, refuseUnless_none, inReach_iff, and_assoc]

/-- The label of a wait is its own address (R107). -/
theorem branchCheck_self : branchCheck p pc 0 = none ↔ Reaches p.qbRange 0 := by
  have := pc.isLt
  rw [branchCheck_none, ← and_assoc, and_iff_right (by omega)]

theorem loopCheck_none {dist : Int} : loopCheck p pc dist = none ↔
    2 ≤ dist ∧ (pc.toNat : Int) + dist ≤ 65535 ∧ Reaches p.loopRange dist := by
  rw [loopCheck, orElse_none, orElse_none, refuseUnless_decide, refuseUnless_decide, refuseUnless_none, inReach_iff]
  constructor
  · rintro ⟨⟨-, hle⟩, h2, hr⟩
    exact ⟨h2, hle, hr⟩
  · rintro ⟨h2, hle, hr⟩
    exact ⟨⟨by omega, hle⟩, h2, hr⟩

theorem labelCheck_none : labelCheck p pc i = none ↔ LabelFits p pc i := by
  cases i with
  | qbgt dist rs op | qbge dist rs op | qblt dist rs op | qble dist rs op | qbeq dist rs op | qbne dist rs op
  | qba dist | qbbs dist rs op | qbbc dist rs op => exact branchCheck_none
  | wbs rs op | wbc rs op => exact branchCheck_self
  | loop dist op => exact loopCheck_none
  | _ => exact iff_of_true rfl trivial

/-- Settles O42: each of the four checks by its meaning. -/
theorem wellFormedMeans : Obligations.WellFormedMeans := by
  intro p pc i
  rw [WellFormed, check, orElse_none, orElse_none, orElse_none, operandCheck_none, refuseUnless_none, available_iff,
    xchgCheck_none, labelCheck_none, and_assoc]
  rfl

end WellFormed

/-! What a step refuses (R109, R321; decisions D16, D17, D30). -/

section Refusals

variable {s : State} {r : Refusal}

/-- Where it is the core's move, the step is the core's. -/
theorem step_of_coreMoves (h : CoreMoves s) : step s = s.popped.coreStep := by
  rcases h with hh | ⟨rest, hh⟩ <;> rw [step, State.cycle, State.popped, hh]
  · show s.coreStep = (s.withHost []).coreStep
    rw [← hh]
    rfl
  · rfl

theorem tick_settled_refused {q : Result} (h : tick (settled q) = .refused r) : q = .refused r := by
  cases q with
  | next u => cases h
  | fault f => cases h
  | refused r' => exact h

/-- A running core refuses its program, and nothing else: in a well-formed program there is no XCHG for `exec` to refuse. -/
theorem runInstr_refused (h : s.runInstr = .refused r) : ∃ why, r = .illFormed why ∧ ProgramIllFormed s why := by
  cases hp : s.imem.illFormed s.params with
  | some why =>
    rw [State.runInstr, hp] at h
    cases h
    exact ⟨why, rfl, illFormed_some.mp hp⟩
  | none =>
    have hwf := illFormed_none.mp hp
    rw [runInstr_of_wellFormed hwf] at h
    cases hf : s.fetch with
    | error f => rw [hf] at h; cases h
    | ok i =>
      rw [hf] at h
      obtain ⟨dev, start, cnt, rfl, hx⟩ := exec_refused (tick_settled_refused h)
      obtain ⟨-, -, -, hxchg, -⟩ := (wellFormedMeans _ _ _).mp (fetch_wellFormed hwf hf)
      exact absurd hx (hxchg dev start cnt rfl)

/-- Only a running core refuses. -/
theorem coreStep_refused (h : s.coreStep = .refused r) : s.run = .running ∧ s.runInstr = .refused r := by
  unfold State.coreStep at h
  split at h
  · next hrun => exact ⟨hrun, h⟩
  · cases h
  · cases h
  · split at h <;> cases h

/-- What a refused step is: the core's refusal, or a host write of instruction memory outside Halted. -/
theorem step_refused (h : step s = .refused r) :
    (CoreMoves s ∧ s.popped.coreStep = .refused r)
      ∨ (r = .noSuchHostMove ∧ s.run ≠ .halted ∧ ∃ a sl, HostMoves s (.writeImem a sl)) := by
  cases hh : s.host with
  | nil => exact .inl ⟨.inl hh, (step_of_coreMoves (.inl hh)).symm.trans h⟩
  | cons m rest =>
    have hm : (s.withHost rest).hostStep m = .refused r := by rw [← h, step, State.cycle, hh]
    cases m with
    | core => exact .inl ⟨.inr ⟨rest, hh⟩, (step_of_coreMoves (.inr ⟨rest, hh⟩)).symm.trans h⟩
    | writeImem a sl =>
      rw [State.hostStep] at hm
      split at hm
      · cases hm
      · next hrun => cases hm; exact .inr ⟨rfl, hrun, a, sl, rest, hh⟩
    | enable => cases hm
    | clearSleeping => cases hm
    | reset => cases hm
    | agentWrite a v => cases hm
    | meanwhile d => cases hm

/-- Settles O41: the refusal by the check of the program, the converse by the inversion of a refused step, and the
revisions by what a well-formed instruction needs of the core. -/
theorem refusesIllFormed : Obligations.RefusesIllFormed := by
  refine ⟨fun s why hm hrun hp => ?_, fun s r h => ?_,
    fun p pc d s rn op n m o cnt dist => ⟨fun hv i hi hwf => ?_, fun hv hwf => ?_⟩⟩
  · have hill : s.popped.imem.illFormed s.popped.params = some why := illFormed_some.mpr hp
    rw [step_of_coreMoves hm]
    simp only [State.coreStep, State.popped_run, hrun, State.runInstr, hill]
  · rcases step_refused h with ⟨hm, hc⟩ | hhost
    · obtain ⟨hrun, hr⟩ := coreStep_refused hc
      obtain ⟨why, rfl, hp⟩ := runInstr_refused hr
      exact .inl ⟨why, rfl, hm, hrun, hp⟩
    · exact .inr hhost
  · have hv3 := available_iff.mp (available_of_check hwf)
    simp only [List.mem_cons, List.not_mem_nil, or_false] at hi
    have hrev : p.rev = .v3 := by rcases hi with rfl | rfl | rfl | rfl | rfl | rfl | rfl | rfl <;> exact hv3
    cases hv.symm.trans hrev
  · obtain ⟨hv1, -⟩ := available_iff.mp (available_of_check hwf)
    cases hv.symm.trans hv1

end Refusals

end Sys2Proof.Machine

/-! Proofs of the family 41_arithmetic_logical.md: the results and frames of the arithmetic, logical and single-bit
instructions, and SCAN. An arithmetic instruction ends in `State.arith`, any other but SCAN in `State.result`, so what is
left to show of it is the number in the destination; SCAN is a search and then two field writes. -/

namespace Sys2Proof.Machine

section FieldResults

variable {s t : State} {rd : Field}

theorem WroteField.hasResult {n : Nat} (h : WroteField s t rd n) (hrd : rd.reg ≠ 31) : HasResult t rd n := by
  rw [HasResult, h.rd hrd]
  push_cast
  rfl

/-- Bit by bit, the destination holds the low bits of what was written (R24). -/
theorem WroteField.testBit {n j : Nat} (h : WroteField s t rd n) (hrd : rd.reg ≠ 31) (hj : j < Field.width rd) :
    (t.rd rd).toNat.testBit j = n.testBit j := by
  rw [h.rd hrd, Nat.testBit_mod_two_pow, decide_eq_true hj, Bool.true_and]

theorem field_width_le (f : Field) : Field.width f ≤ 32 := by
  obtain ⟨n, sel⟩ := f
  cases sel <;> simp [Field.width, selWidth]

/-- Result and carry of an arithmetic instruction whose exact result is `r` (R140, R141). -/
theorem arith_hasResult (s : State) (r : Int) (hrd : rd.reg ≠ 31) :
    ∃ t, s.arith rd r = .next t ∧ HasResult t rd r ∧ HasCarry t rd r := by
  obtain ⟨t, ht, hcarry, hwrote, -, -⟩ := arith_writes s rd r
  rw [BitVec.toNat_ofInt] at hwrote
  have hc : HasCarry t rd r := by rw [HasCarry, hcarry, carryOut, decide_eq_true_eq]
  exact ⟨t, ht, hasResult_of hwrote hrd, hc⟩

/-- Result and carry of an instruction that writes the word `v`, the number `n`, and no flag (R140, R33). -/
theorem result_hasResult {v : Word} {n : Nat} (s : State) (hv : v.toNat = n) (hrd : rd.reg ≠ 31) :
    ∃ t, s.result rd v = .next t ∧ HasResult t rd n ∧ t.carry = s.carry := by
  obtain ⟨t, ht, hcarry, hwrote, -, -⟩ := result_writes s rd v
  exact ⟨t, ht, hv ▸ hwrote.hasResult hrd, hcarry⟩

/-- `result_hasResult`, bit by bit. -/
theorem result_testBit {v : Word} {bit : Nat → Bool} (s : State) (hv : ∀ j, j < 32 → v.getLsbD j = bit j)
    (hrd : rd.reg ≠ 31) :
    ∃ t, s.result rd v = .next t ∧ t.carry = s.carry ∧ ∀ j, j < Field.width rd → (t.rd rd).toNat.testBit j = bit j := by
  obtain ⟨t, ht, hcarry, hwrote, -, -⟩ := result_writes s rd v
  exact ⟨t, ht, hcarry, fun j hj =>
    (hwrote.testBit hrd hj).trans (hv j (Nat.lt_of_lt_of_le hj (field_width_le rd)))⟩

end FieldResults

section SingleBits

variable {rd rs : Field} {k : Nat}

theorem bitMask_getLsbD (k : Nat) {j : Nat} (hj : j < 32) : (bitMask k).getLsbD j = decide (j = k) := by
  have hpow : bitMask k = BitVec.twoPow 32 k := rfl
  rw [hpow, BitVec.getLsbD_twoPow, Bool.eq_iff_iff]
  simp only [Bool.and_eq_true, decide_eq_true_eq]
  omega

/-- The bit number of Formats 3 and 4 (R97) needs no reduction modulo 32. -/
theorem bitNumber_imm (s : State) (b : Fin 32) : s.bitNumber (.imm b) = b := by
  rw [State.bitNumber, State.val, BitVec.toNat_ofNat]
  omega

/-- Bits of what CLR writes (R156). -/
theorem clearedWord_getLsbD (a : Word) (k : Nat) {j : Nat} (hj : j < 32) :
    (a &&& ~~~(bitMask k)).getLsbD j = (decide (j ≠ k) && a.toNat.testBit j) := by
  rw [BitVec.getLsbD_and, BitVec.getLsbD_not, bitMask_getLsbD k hj, decide_eq_true hj, Bool.true_and, Bool.and_comm,
    ← decide_not, BitVec.testBit_toNat]

/-- CLR with bit number `k` (R156). -/
theorem exec_clr_bits (s : State) {op : Operand} (hk : s.bitNumber op = k) (hrd : rd.reg ≠ 31) :
    ∃ t, exec (.clr rd rs op) s = .next t ∧ t.carry = s.carry ∧ ∀ j, j < Field.width rd →
      (t.rd rd).toNat.testBit j = (decide (j ≠ k) && (s.rd rs).toNat.testBit j) :=
  hk ▸ result_testBit s (fun _ hj => clearedWord_getLsbD (s.rd rs) (s.bitNumber op) hj) hrd

/-- The source of SET, bit by bit: a field of R31 is 0 (R30). -/
theorem setSource_getLsbD (s : State) (rs : Field) (j : Nat) :
    (s.setSource rs).getLsbD j = (decide (rs.reg ≠ 31) && (s.rd rs).toNat.testBit j) := by
  by_cases h31 : rs.reg = 31
  · rw [State.setSource, if_pos h31, decide_eq_false (not_not.mpr h31), Bool.false_and]
    exact BitVec.getLsbD_zero
  · rw [State.setSource, if_neg h31, decide_eq_true h31, Bool.true_and, BitVec.testBit_toNat]

/-- SET with bit number `k` (R157). -/
theorem exec_set_bits (s : State) {op : Operand} (hk : s.bitNumber op = k) (hrd : rd.reg ≠ 31) :
    ∃ t, exec (.set rd rs op) s = .next t ∧ t.carry = s.carry ∧ ∀ j, j < Field.width rd →
      (t.rd rd).toNat.testBit j = (decide (j = k) || (decide (rs.reg ≠ 31) && (s.rd rs).toNat.testBit j)) := by
  refine result_testBit s (fun j hj => ?_) hrd
  rw [BitVec.getLsbD_or, setSource_getLsbD, bitMask_getLsbD _ hj, hk, Bool.or_comm]

/-- LMBD, where its search answers `n`, or 32 for no match (R159). -/
theorem exec_lmbd_number {op : Operand} {n : Nat} (s : State)
    (hn : (highestBit (s.rd rs) ((s.val op).getLsbD 0) (Field.width rs)).getD 32 = n) (hle : n ≤ 32)
    (hrd : rd.reg ≠ 31) :
    ∃ t, exec (.lmbd rd rs op) s = .next t ∧ HasResult t rd n ∧ t.carry = s.carry :=
  result_hasResult s (by rw [hn, BitVec.toNat_ofNat]; omega) hrd

end SingleBits

section Scan

variable {s : State} {rn : Fin 32} {op : Operand} {start count w stride v o : Nat}

/-- The four bytes of a control word as SCAN reads them (R158). -/
theorem scanByte_of_holdsWord (h : HoldsWord s rn start count w stride) :
    scanByte (s.x rn) 0 = start ∧ scanByte (s.x rn) 1 = count ∧ scanByte (s.x rn) 2 = w
      ∧ scanByte (s.x rn) 3 = stride := by
  obtain ⟨hstart, hcount, hw, hstride, hx⟩ := h
  have key : ∀ k, scanByte (s.x rn) k = (s.x rn).toNat / 2 ^ (8 * k) % 256 := fun k => by
    rw [scanByte, extractBits, lowBits_eq_ofNat, BitVec.toNat_ofNat, BitVec.toNat_ushiftRight,
      Nat.shiftRight_eq_div_pow]
    omega
  simp only [key, hx]
  omega

theorem scanDescribed_iff : scanDescribed w stride v = true
    ↔ (w = 1 ∨ w = 2 ∨ w = 4) ∧ 1 ≤ stride ∧ stride ≤ 4 ∧ v < 256 ^ w := by
  rw [scanDescribed, decide_eq_true_eq, show (256 : Nat) = 2 ^ 8 by rfl, ← pow_mul]

/-- What SCAN makes of the answer of its search. -/
def State.scanEnd (s : State) (rn : Fin 32) : Except Fault (Option (Nat × Nat)) → Result
  | .error f => .fault f
  | .ok none => .next (s.scanResult rn 0xFF 0).advance
  | .ok (some (o, left)) => .next (s.scanResult rn o left).advance

/-- SCAN, its control word taken apart: it searches if the source describes the operation (R158). -/
theorem exec_scan (h : HoldsWord s rn start count w stride) :
    exec (.scan rn op) s = if scanDescribed w stride (s.val op).toNat then
        s.scanEnd rn (s.scanFrom w stride (s.val op).toNat start count)
      else .fault .scanUnspecified := by
  obtain ⟨hstart, hcount, hw, hstride⟩ := scanByte_of_holdsWord h
  simp only [exec, execScan, hstart, hcount, hw, hstride]
  split
  · cases s.scanFrom w stride (s.val op).toNat start count with
    | error f => rfl
    | ok r => cases r <;> rfl
  · rfl

/-- The search passes over fields that lie in R0 to R30 and do not hold the value. -/
theorem scanFrom_skip (left : Nat) :
    ∀ {j o : Nat}, (∀ i, i < j → o + i * stride + w ≤ 124 ∧ fromBytes (s.rfRun (o + i * stride) w) ≠ v) →
      s.scanFrom w stride v o (j + left) = s.scanFrom w stride v (o + j * stride) left := by
  intro j
  induction j with
  | zero => intro o _; simp
  | succ j ih =>
    intro o h
    obtain ⟨hrange, hne⟩ := h 0 (by omega)
    rw [Nat.zero_mul, Nat.add_zero] at hrange hne
    have hstep : ∀ i, o + stride + i * stride = o + (i + 1) * stride := fun i => by ring
    calc s.scanFrom w stride v o (j + 1 + left)
        = s.scanFrom w stride v (o + stride) (j + left) := by
          rw [Nat.add_right_comm, State.scanFrom, if_neg (by omega), if_neg hne]
      _ = s.scanFrom w stride v (o + (j + 1) * stride) left := by
          rw [ih fun i hi => hstep i ▸ h (i + 1) (by omega), hstep]

/-- The search ends at the first field that holds the value (D31). -/
theorem scanFrom_first {j : Nat} (hj : j < count) (hrange : o + j * stride + w ≤ 124)
    (hbefore : ∀ i, i < j → fromBytes (s.rfRun (o + i * stride) w) ≠ v)
    (hmatch : fromBytes (s.rfRun (o + j * stride) w) = v) :
    s.scanFrom w stride v o count = .ok (some (o + j * stride, count - j)) := by
  obtain ⟨left, rfl⟩ : ∃ left, count = j + (left + 1) := ⟨count - j - 1, by omega⟩
  have hskip : ∀ i, i < j → o + i * stride + w ≤ 124 ∧ fromBytes (s.rfRun (o + i * stride) w) ≠ v := fun i hi => by
    have hmul : i * stride ≤ j * stride := Nat.mul_le_mul_right stride hi.le
    exact ⟨by omega, hbefore i hi⟩
  rw [scanFrom_skip _ hskip, State.scanFrom, if_neg (by omega), if_pos hmatch, Nat.add_sub_cancel_left]

/-- The one fault of the search. -/
theorem scanFrom_error {f : Fault} {left : Nat} (h : s.scanFrom w stride v o left = .error f) :
    f = .scanUnspecified := by
  induction left generalizing o with
  | zero => cases h
  | succ left ih =>
    rw [State.scanFrom] at h
    split at h
    · cases h; rfl
    · split at h
      · cases h
      · exact ih h

/-- The search faults where a field leaves R0 to R30 and none before it holds the value (R158). -/
theorem scanFrom_outside {j : Nat} (hj : j < count) (hout : 124 < o + j * stride + w)
    (hbefore : ∀ i, i < j → fromBytes (s.rfRun (o + i * stride) w) ≠ v) :
    s.scanFrom w stride v o count = .error .scanUnspecified := by
  cases h : s.scanFrom w stride v o count with
  | error f => rw [scanFrom_error h]
  | ok r =>
    have hok := scanFrom_ok h
    cases r with
    | none =>
      obtain ⟨hin, -⟩ := hok j hj
      omega
    | some p =>
      obtain ⟨i, -, hp, -, hin, hmatch, -⟩ := hok
      rw [hp] at hin hmatch
      have hij : j ≤ i := not_lt.mp fun hlt => hbefore i hlt hmatch
      have hmul : j * stride ≤ i * stride := Nat.mul_le_mul_right stride hij
      omega

/-- Writing a field first changes neither where the instruction arrives nor the rest. -/
theorem WritesOnly.after_wr {t : State} {f g : Field} {x : Word} {n : Nat} (h : WritesOnly (s.wr f x) t g n) :
    WroteField (s.wr f x) t g n ∧ Continues s t ∧ KeepsRest s t := by
  obtain ⟨hwrote, hcont, ⟨hrun, himem, hparams, hhost, hmoment⟩, hdmem, hmeanwhile⟩ := h
  simp only [State.wr_run, State.wr_imem, State.wr_params, State.wr_host, State.wr_moment, State.wr_dmem,
    State.wr_meanwhile] at hrun himem hparams hhost hmoment hdmem hmeanwhile
  refine ⟨hwrote, ?_, ⟨hrun, himem, hparams, hhost, hmoment⟩, hdmem, hmeanwhile⟩
  rw [Continues, State.wr_pc] at hcont
  exact hcont.of_eq (State.wr_params ..) (State.wr_loopCounter ..) (State.wr_loopTop ..) (State.wr_loopEnd ..)

/-- The two result bytes of SCAN, written one after the other (R158). -/
theorem scan_writes (s : State) (rn : Fin 32) {o left : Nat} (ho : o < 256) (hleft : left < 256) :
    ∃ m t, s.scanEnd rn (.ok (some (o, left))) = .next t ∧ WroteField s m (byteField rn 0) o
      ∧ WroteField m t (byteField rn 1) left ∧ t.carry = s.carry ∧ Continues s t ∧ KeepsRest s t := by
  have htoNat : ∀ n, n < 256 → (BitVec.ofNat 32 n).toNat = n := fun n hn => by rw [BitVec.toNat_ofNat]; omega
  have hfirst := wr_wrote s (byteField rn 0) (BitVec.ofNat 32 o)
  obtain ⟨t, ht, hcarry, hrest⟩ := result_writes (s.wr (byteField rn 0) (BitVec.ofNat 32 o)) (byteField rn 1)
    (BitVec.ofNat 32 left)
  obtain ⟨hsecond, hcont, hkeeps⟩ := hrest.after_wr
  rw [htoNat o ho] at hfirst
  rw [htoNat left hleft] at hsecond
  exact ⟨_, t, ht, hfirst, hsecond, hcarry.trans (State.wr_carry ..), hcont, hkeeps⟩

end Scan

/-! The statements. -/

/-- Settles O1: both end in `State.arith`, with the sums as exact results. -/
theorem addAdcResult : Obligations.AddAdcResult :=
  fun s _ _ _ hrd => ⟨arith_hasResult s _ hrd, arith_hasResult s _ hrd⟩

/-- Settles O2: both end in `State.arith`, with the differences as exact results. -/
theorem subSucResult : Obligations.SubSucResult :=
  fun s _ _ _ hrd => ⟨arith_hasResult s _ hrd, arith_hasResult s _ hrd⟩

/-- Settles O3: both end in `State.arith`, with the reversed differences as exact results. -/
theorem rsbRscResult : Obligations.RsbRscResult :=
  fun s _ _ _ hrd => ⟨arith_hasResult s _ hrd, arith_hasResult s _ hrd⟩

/-- Settles O4: by all that `State.arith` does. -/
theorem arithmeticFrame : Obligations.ArithmeticFrame := by
  intro mk hmk s rd rs op
  obtain ⟨r, hr⟩ := exec_arithOps s rs op hmk
  obtain ⟨t, ht, -, hwrites⟩ := arith_writes s rd r
  exact ⟨t, _, (hr rd).trans ht, hwrites⟩

/-- Settles O5: a shift by `k` multiplies or divides by `2 ^ k`. -/
theorem shiftResult : Obligations.ShiftResult := by
  intro s rd rs op hrd
  have hlsl : (s.rd rs <<< s.bitNumber op).toNat = (s.rd rs).toNat * 2 ^ ((s.val op).toNat % 32) % 2 ^ 32 := by
    rw [BitVec.toNat_shiftLeft, Nat.shiftLeft_eq, State.bitNumber]
  have hlsr : (s.rd rs >>> s.bitNumber op).toNat = (s.rd rs).toNat / 2 ^ ((s.val op).toNat % 32) := by
    rw [BitVec.toNat_ushiftRight, Nat.shiftRight_eq_div_pow, State.bitNumber]
  exact ⟨result_hasResult s hlsl hrd, result_hasResult s hlsr hrd⟩

/-- Settles O6: each operation on words is the one on numbers. -/
theorem bitwiseResult : Obligations.BitwiseResult := fun s _ _ _ hrd =>
  ⟨result_hasResult s (BitVec.toNat_and ..) hrd, result_hasResult s (BitVec.toNat_or ..) hrd,
    result_hasResult s (BitVec.toNat_xor ..) hrd, result_hasResult s BitVec.toNat_not hrd⟩

/-- Settles O7: words compare as their numbers do. -/
theorem minMaxResult : Obligations.MinMaxResult := by
  intro s rd rs op hrd
  exact ⟨result_hasResult s (apply_ite BitVec.toNat ..) hrd, result_hasResult s (apply_ite BitVec.toNat ..) hrd⟩

/-- Settles O8: the four formats are CLR of Format 1. -/
theorem clrResult : Obligations.ClrResult := fun s _ _ _ b hrd =>
  ⟨exec_clr_bits s rfl hrd, exec_clr_bits s rfl hrd, exec_clr_bits s (bitNumber_imm s b.bit) hrd,
    exec_clr_bits s (bitNumber_imm s b.bit)⟩

/-- Settles O9: the four formats are SET of Format 1. -/
theorem setResult : Obligations.SetResult := fun s _ _ _ b hrd =>
  ⟨exec_set_bits s rfl hrd, exec_set_bits s rfl hrd, exec_set_bits s (bitNumber_imm s b.bit) hrd,
    exec_set_bits s (bitNumber_imm s b.bit)⟩

/-- Settles O10: by what the search for the highest matching bit answers. -/
theorem lmbdResult : Obligations.LmbdResult := by
  intro s rd rs op hrd
  have hbit : (s.val op).getLsbD 0 = decide ((s.val op).toNat % 2 = 1) := by
    rw [← BitVec.testBit_toNat, Nat.testBit_zero]
  rcases highestBit_cases (s.rd rs) ((s.val op).getLsbD 0) (Field.width rs) with
    ⟨i, hi, hlt, hat, hmax⟩ | ⟨hnone, hno⟩
  · have hle : i ≤ 32 := hlt.le.trans (field_width_le rs)
    obtain ⟨t, ht, hres, hcarry⟩ := exec_lmbd_number s (congrArg (Option.getD · 32) hi) hle hrd
    rw [hbit] at hat hmax
    exact ⟨t, ht, hcarry, .inl ⟨i, ⟨hlt, hat⟩, fun j ⟨hj, hjat⟩ => hmax j hj hjat, hres⟩⟩
  · obtain ⟨t, ht, hres, hcarry⟩ := exec_lmbd_number s (congrArg (Option.getD · 32) hnone) le_rfl hrd
    rw [hbit] at hno
    exact ⟨t, ht, hcarry, .inr ⟨fun i ⟨hi, hat⟩ => hno i hi hat, hres⟩⟩

/-- Settles O12: by all that `State.result` does. -/
theorem fieldFrame : Obligations.FieldFrame := by
  intro s rd rs op n
  have hframe : ∀ {i : Instr} {v : Word}, exec i s = s.result rd v →
      ∃ t v, exec i s = .next t ∧ t.carry = s.carry ∧ WritesOnly s t rd v := fun {i v} hi => by
    obtain ⟨t, ht, hcarry, hwrites⟩ := result_writes s rd v
    exact ⟨t, _, hi.trans ht, hcarry, hwrites⟩
  refine ⟨fun mk hmk => ?_, fun i hi => ?_⟩
  · obtain ⟨v, hv⟩ := exec_logicOps s rs op hmk
    exact hframe (hv rd)
  · simp only [List.mem_cons, List.not_mem_nil, or_false] at hi
    rcases hi with rfl | rfl | rfl <;> exact hframe rfl

/-- Settles O15: the search stops at field `j`. -/
theorem scanMatch : Obligations.ScanMatch := by
  intro s rn op start count w stride j hword hw hlo hhi hfits hj hrange hbefore hmatch
  have ⟨_, hcount, _⟩ := hword
  have hfirst := scanFrom_first hj hrange (fun i hi => mt (holdsNumber_iff ..).mpr (hbefore i hi))
    ((holdsNumber_iff ..).mp hmatch)
  rw [exec_scan hword, if_pos (scanDescribed_iff.mpr ⟨hw, hlo, hhi, hfits⟩), hfirst]
  exact scan_writes s rn (by omega) (by omega)

/-- Settles O16: the search passes over every field. -/
theorem scanNoMatch : Obligations.ScanNoMatch := by
  intro s rn op start count w stride hword hw hlo hhi hfits hnone
  have hend : s.scanFrom w stride (s.val op).toNat start count = .ok none :=
    scanFrom_skip 0 fun i hi => by
      obtain ⟨hin, hne⟩ := hnone i hi
      exact ⟨hin, mt (holdsNumber_iff ..).mpr hne⟩
  rw [exec_scan hword, if_pos (scanDescribed_iff.mpr ⟨hw, hlo, hhi, hfits⟩), hend]
  exact scan_writes s rn (by decide) (by decide)

/-- Settles O17: an operation the source does not describe is not searched for; a described one leaves R0 to R30. -/
theorem scanStops : Obligations.ScanStops := by
  intro s rn op start count w stride hword hstop
  rw [exec_scan hword]
  by_cases hd : scanDescribed w stride (s.val op).toNat = true
  · rcases hstop with hnot | ⟨j, hj, hout, hbefore⟩
    · exact absurd (scanDescribed_iff.mp hd) hnot
    · rw [if_pos hd, scanFrom_outside hj hout fun i hi => mt (holdsNumber_iff ..).mpr (hbefore i hi)]
      rfl
  · rw [if_neg hd]

end Sys2Proof.Machine

/-! Proofs of the family 42_register_load_store.md: moves, the register-file indirect moves, bursts, ZERO and the XFR
instructions. Each is one shared operation (`State.result`, `State.mvi`, `State.burst`, `State.rfPut`, `State.transfer`) and
then the advance of `pc`; all but the store half of a burst only write registers and add events (`Quiet`), which settles what
they leave alone. -/

namespace Sys2Proof.Machine

section Advance

variable {s u t : State}

/-- What an instruction leaves alone that only writes registers and adds events, and goes on. -/
theorem Quiet.advance_goes (h : Quiet s u) :
    u.advance.carry = s.carry ∧ Continues s u.advance ∧ KeepsRest s u.advance :=
  ⟨(State.advance_carry u).trans h.carry,
    advance_continues h.params h.loopCounter h.loopTop h.loopEnd h.pc,
    KeepsRest.intro ((State.advance_run u).trans h.run) ((State.advance_dmem u).trans h.dmem)
      ((State.advance_imem u).trans h.imem) ((State.advance_params u).trans h.params)
      ((State.advance_host u).trans h.host) ((State.advance_moment u).trans h.moment)
      ((State.advance_meanwhile u).trans h.meanwhile)⟩

/-- The whole effect of an instruction that writes one range of the register file and goes on (R211). -/
theorem WroteRange.advance_goes {o n : Nat} {byteAt : Nat → Byte} {before : List Config.Event}
    (hw : WroteRange s u o n byteAt before) (hq : Quiet s u) :
    WroteRange s u.advance o n byteAt before ∧ u.advance.carry = s.carry ∧ Continues s u.advance
      ∧ KeepsRest s u.advance :=
  ⟨hw.of_eq (State.advance_regs u) (State.advance_history u), hq.advance_goes⟩

end Advance

section Mvi

variable {s m t t' : State} {n v : Nat} {dst src : MviOperand}

/-- `MviDest` depends only on the registers and the history of the state after. -/
theorem MviDest.of_eq (h : MviDest n m t v dst) (hr : t'.regs = t.regs) (hh : t'.history = t.history) :
    MviDest n m t' v dst := by
  cases dst with
  | direct f => exact WroteField.of_eq h hr hh
  | ptr k => exact WroteRange.of_eq h hr hh
  | ptrInc k =>
    obtain ⟨u, hrange, hptr⟩ := h
    exact ⟨u, hrange, hptr.of_eq hr hh⟩
  | ptrDec k =>
    obtain ⟨u, hptr, hrange⟩ := h
    exact ⟨u, hptr, hrange.of_eq hr hh⟩

/-- The state after both sides of an MVIx, before `pc` advances (R203). -/
def State.mviMoved (s : State) (n : Nat) (dst src : MviOperand) : State :=
  ((s.mviReady n dst src).mviStore n ((s.mviReady n dst src).mviOffset dst) ((s.mviPre n src).mviValue n src) dst).mviPost
    n ((s.mviReady n dst src).mviOffset dst) dst

theorem quiet_mviMoved (s : State) (n : Nat) (dst src : MviOperand) : Quiet s (s.mviMoved n dst src) :=
  have hfetched : Quiet s (s.mviFetched n src) := (quiet_mviPre ..).trans (quiet_mviPost ..)
  have hready : Quiet s (s.mviReady n dst src) := hfetched.trans (quiet_mviPre ..)
  (hready.trans (quiet_mviStore ..)).trans (quiet_mviPost ..)

theorem mviReady_offset (s : State) (n : Nat) (dst src : MviOperand) :
    (s.mviReady n dst src).mviOffset dst = mviTarget n s src dst :=
  (mviOffset_eq (s.mviFetched n src) n dst).trans (mviTarget_eq s n dst src)

/-- MVIx once both ranges fit (R203, R207). -/
theorem mvi_of_fits (hsrc : MviFits n s src) (hdst : MviTargetFits n s dst src) :
    s.mvi n dst src = if mviUnsettled n (mviTarget n s src dst) dst src then .fault .mviUnspecified
      else .next (s.mviMoved n dst src).advance := by
  simp only [State.mvi, State.mviMoved, (mviInRange_iff s n src).mpr hsrc, (mviReady_inRange_iff s n dst src).mpr hdst,
    Bool.and_self, if_true, mviReady_offset]

/-- An MVIx with a range past byte 123 (R203, R211). -/
theorem mvi_regRange (h : ¬ (MviFits n s src ∧ MviTargetFits n s dst src)) : s.mvi n dst src = .fault .regRange := by
  have hrange : ((s.mviPre n src).mviInRange n src && (s.mviReady n dst src).mviInRange n dst) ≠ true := by
    rwa [ne_eq, Bool.and_eq_true, mviInRange_iff, mviReady_inRange_iff]
  simp only [State.mvi, if_neg hrange]

/-- Where R207 (a) does not hold, the destination's offset is that of the state before. -/
theorem mviTarget_of_not_same (hsame : ¬ MviSamePointer dst src) : mviTarget n s src dst = mviStart n s dst :=
  (mviTarget_eq s n dst src).symm.trans (mviStart_fetched s n dst src hsame)

/-- All that an MVIx whose operands fit and are settled does (R203). -/
theorem mvi_effect (hn : n ≤ 4) (hsrc : MviFits n s src) (hdst : MviFits n s dst) (hsame : ¬ MviSamePointer dst src)
    (hclob : ¬ MviClobbers n s dst src) :
    ∃ m t v, s.mvi n dst src = .next t ∧ MviSource n s m v src ∧ MviDest n m t v dst
      ∧ t.carry = s.carry ∧ Continues s t ∧ KeepsRest s t := by
  have htarget : mviTarget n s src dst = mviStart n s dst := mviTarget_of_not_same hsame
  have htfits : MviTargetFits n s dst src := fun hp => htarget ▸ hdst hp
  have hfits : MviFits n (s.mviFetched n src) dst := fun hp => (mviTarget_eq s n dst src).symm ▸ htfits hp
  have hunsettled : mviUnsettled n (mviTarget n s src dst) dst src ≠ true := by
    rwa [ne_eq, htarget, mviUnsettled_iff n s dst src hsame]
  have hdest := mvi_dest (s.mviFetched n src) n dst ((s.mviPre n src).mviValue n src) hfits
  refine ⟨s.mviFetched n src, (s.mviMoved n dst src).advance, ((s.mviPre n src).mviValue n src).toNat, ?_,
    mvi_source s n src hn hsrc, hdest.of_eq (State.advance_regs _) (State.advance_history _),
    (quiet_mviMoved s n dst src).advance_goes⟩
  rw [mvi_of_fits hsrc htfits, if_neg hunsettled]

/-- An MVIx whose operands fit and whose order of effects the source does not settle (R207). -/
theorem mvi_unspecified (hsrc : MviFits n s src) (hdst : MviTargetFits n s dst src)
    (h : mviUnsettled n (mviTarget n s src dst) dst src = true) : s.mvi n dst src = .fault .mviUnspecified := by
  rw [mvi_of_fits hsrc hdst, if_pos h]

/-- The instructions of `mviSizes` are `State.mvi` at their width, which is at most 4 (R204 to R206). -/
theorem exec_mviSizes {p : Nat × (MviOperand → MviOperand → Instr)} (hp : p ∈ mviSizes) :
    p.1 ≤ 4 ∧ ∀ s dst src, exec (p.2 dst src) s = s.mvi p.1 dst src := by
  simp only [mviSizes, List.mem_cons, List.not_mem_nil, or_false] at hp
  rcases hp with rfl | rfl | rfl
  · exact ⟨by decide, fun _ _ _ => rfl⟩
  · exact ⟨by decide, fun _ _ _ => rfl⟩
  · exact ⟨by decide, fun _ _ _ => rfl⟩

end Mvi

section Bursts

variable {s : State} {start : Fin 128} {base : Word} {op : Operand} {cnt : Count} {n : Nat}

/-- All that an admitted load does (R210). -/
theorem burst_load_effect {kind : Config.RegionKind} (hn : CountIs s cnt n) (h1 : 1 ≤ n) (hfit : start + n ≤ 124)
    (ha : AdmittedAs s false (base + s.val op) n kind) :
    ∃ t, s.burst false start base op cnt = .next t
      ∧ WroteRange s t start n (answeredByte s (base + s.val op) n kind) [.memRead (base + s.val op) n]
      ∧ t.carry = s.carry ∧ Continues s t ∧ KeepsRest s t :=
  ⟨_, burst_of_admittedAs hn h1 hfit ha,
    (loadRun_wrote s kind start n (base + s.val op) hfit).advance_goes ((quiet_emit ..).trans (quiet_rfPut ..))⟩

/-- What a store of `n` bytes from `start` to `addr` leaves: memory, memory once the writes other agents make meanwhile have
taken effect, the registers, the event, and all else as an instruction that goes on leaves it (R67, R210). -/
def StoredRun (s t : State) (start n : Nat) (addr : Word) : Prop :=
  (∀ i, i < n → t.dmem.read (addr + BitVec.ofNat 32 i).toNat = s.rf (start + i))
    ∧ (∀ a, (∀ i, i < n → a ≠ (addr + BitVec.ofNat 32 i).toNat) → t.dmem.read a = s.dmem.read a)
    ∧ (∀ i, i < n → t.settle.dmem.read (addr + BitVec.ofNat 32 i).toNat
      = (lastWrite (addr + BitVec.ofNat 32 i).toNat (s.meanwhile.writes.drop (s.meanwhile.beforeByte i))).getD
        (s.rf (start + i)))
    ∧ (∀ a, (∀ i, i < n → a ≠ (addr + BitVec.ofNat 32 i).toNat) →
      t.settle.dmem.read a = (lastWrite a s.meanwhile.writes).getD (s.dmem.read a))
    ∧ (∀ k, k < 124 → t.rf k = s.rf k)
    ∧ t.history = s.history ++ [.memWrite addr ((List.range n).map fun i => s.rf (start + i))]
    ∧ t.carry = s.carry ∧ Continues s t ∧ KeepsWorld s t

theorem State.advance_settle_dmem (s : State) : s.advance.settle.dmem = s.settle.dmem := by
  rw [State.settle_dmem, State.settle_dmem, State.advance_dmem, State.advance_meanwhile]

/-- A store leaves the run state, instruction memory, the parameters and the environment's fields as they were. -/
theorem storeRun_keepsWorld (s : State) (o n : Nat) (addr : Word) : KeepsWorld s (s.storeRun o n addr).advance :=
  ⟨State.advance_run _, State.advance_imem _, State.advance_params _, State.advance_host _, State.advance_moment _⟩

theorem storeRun_stored (s : State) (o n : Nat) (addr : Word) (hwf : Memory.wf s.dmem = true) (hn : n ≤ 124) :
    StoredRun s (s.storeRun o n addr).advance o n addr := by
  obtain ⟨hat, hoff⟩ := storeRun_wrote s o n addr hwf hn
  obtain ⟨hsettledAt, hsettledOff⟩ := storeRun_settled s o n addr hwf hn
  rw [StoredRun, State.advance_dmem, State.advance_settle_dmem]
  have hregs : (s.storeRun o n addr).advance.regs = s.regs := State.advance_regs _
  exact ⟨hat, hoff, hsettledAt, hsettledOff, fun _ hk => rf_congr hregs hk, State.advance_history _, State.advance_carry _,
    advance_continues rfl rfl rfl rfl rfl, storeRun_keepsWorld s o n addr⟩

/-- All that an admitted store does (R210). -/
theorem burst_store_effect (hwf : Memory.wf s.dmem = true) (hn : CountIs s cnt n) (h1 : 1 ≤ n) (hfit : start + n ≤ 124)
    (hadm : Admitted s true (base + s.val op) n) :
    ∃ t, s.burst true start base op cnt = .next t ∧ StoredRun s t start n (base + s.val op) := by
  obtain ⟨kind, ha⟩ := hadm.admittedAs
  exact ⟨_, burst_of_admittedAs hn h1 hfit ha, storeRun_stored s start n (base + s.val op) hwf (by omega)⟩

theorem burst_of_rangeFault {write : Bool} {f : Fault} (hn : CountIs s cnt n) (hf : rangeFault start n = some f) :
    s.burst write start base op cnt = .fault f := by
  simp only [State.burst, countOf_eq hn, hf]

theorem burst_of_not_admitted {write : Bool} (hn : CountIs s cnt n) (h1 : 1 ≤ n) (hfit : start + n ≤ 124)
    (ha : ¬ Admitted s write (base + s.val op) n) : s.burst write start base op cnt = .fault .unadmitted := by
  have hr : rangeFault start n = none := rangeFault_none.mpr ⟨h1, by omega, hfit⟩
  have hadm : s.admission write (s.burstAddr base op) n = none := admission_none.mpr ha
  simp only [State.burst, countOf_eq hn, hr, hadm]

/-- Where a burst stops (R211 to R213, R218), by the three checks of `rangeFault` and then the platform's. -/
theorem burst_stops (s : State) (write : Bool) (start : Fin 128) (base : Word) (op : Operand) {cnt : Count} {n : Nat}
    (hn : CountIs s cnt n) :
    (n = 0 → s.burst write start base op cnt = .fault .burstCountZero)
      ∧ (124 < n → s.burst write start base op cnt = .fault .burstCountTooBig)
      ∧ (1 ≤ n → n ≤ 124 → 124 < start + n → s.burst write start base op cnt = .fault .regRange)
      ∧ (1 ≤ n → start + n ≤ 124 → ¬ Admitted s write (base + s.val op) n →
        s.burst write start base op cnt = .fault .unadmitted) := by
  obtain ⟨hzero, hbig, hrange⟩ := rangeFault_some start n
  exact ⟨fun h => burst_of_rangeFault hn (hzero h), fun h => burst_of_rangeFault hn (hbig h),
    fun h1 h124 h => burst_of_rangeFault hn (hrange h1 h124 h), burst_of_not_admitted hn⟩

end Bursts

section Transfers

variable {s : State} {dev : Nat} {start : Fin 128} {cnt : Count} {n : Nat} {move : Nat → State}

/-- An XFR transfer whose count and range are good (R223). -/
theorem transfer_of_fits (hn : CountIs s cnt n) (h1 : 1 ≤ n) (hfit : start + n ≤ 124) :
    s.transfer start cnt move = .next (move n).advance := by
  have hr : rangeFault start n = none := rangeFault_none.mpr ⟨h1, by omega, hfit⟩
  simp only [State.transfer, countOf_eq hn, hr]

theorem transfer_of_rangeFault {f : Fault} (hn : CountIs s cnt n) (hf : rangeFault start n = some f) :
    s.transfer start cnt move = .fault f := by
  simp only [State.transfer, countOf_eq hn, hf]

/-- The instruction faults on a bad count or range, `n` bytes from `start` (R211, R213). -/
def RangeStops (i : Instr) (s : State) (start n : Nat) : Prop :=
  (n = 0 → exec i s = .fault .burstCountZero) ∧ (124 < n → exec i s = .fault .burstCountTooBig)
    ∧ (1 ≤ n → n ≤ 124 → 124 < start + n → exec i s = .fault .regRange)

theorem rangeStops_of_transfer {i : Instr} (hn : CountIs s cnt n) (hi : exec i s = s.transfer start cnt move) :
    RangeStops i s start n := by
  obtain ⟨hzero, hbig, hrange⟩ := rangeFault_some start n
  rw [RangeStops, hi]
  exact ⟨fun h => transfer_of_rangeFault hn (hzero h), fun h => transfer_of_rangeFault hn (hbig h),
    fun h1 h124 h => transfer_of_rangeFault hn (hrange h1 h124 h)⟩

theorem exec_xchg_refuse (h : s.params.xchg = .refuse) :
    exec (.xchg dev start cnt) s = .refused (.illFormed .xchgRefused) := by
  simp only [exec, execXchg, h]

theorem exec_xchg_asXin (h : s.params.xchg = .asXin) :
    exec (.xchg dev start cnt) s = s.transfer start cnt (s.xfrIn dev start) := by
  simp only [exec, execXchg, h]

theorem exec_xchg_exchange (h : s.params.xchg = .exchange) :
    exec (.xchg dev start cnt) s = s.transfer start cnt (s.xfrExchange dev start) := by
  simp only [exec, execXchg, h]

/-- Where XCHG runs at all it is an XFR transfer (R226). -/
theorem exec_xchg_transfer (h : s.params.xchg ≠ .refuse) :
    ∃ move, exec (.xchg dev start cnt) s = s.transfer start cnt move := by
  cases hx : s.params.xchg with
  | refuse => exact absurd hx h
  | asXin => exact ⟨_, exec_xchg_asXin hx⟩
  | exchange => exact ⟨_, exec_xchg_exchange hx⟩

/-- Bytes of the register file cleared (R220). -/
theorem rfPut_zeros_wrote (s : State) {o len : Nat} (h : o + len ≤ 124) :
    WroteRange s (s.rfPut o (List.replicate len 0)) o len (fun _ => 0) [] := by
  have hzero : (fun i : Nat => ((List.replicate len (0 : Byte))[i]?).getD 0) = fun _ => 0 := by
    funext i
    rw [List.getElem?_replicate]
    split <;> rfl
  have hw := rfPut_wrote s o (List.replicate len 0) (by rwa [List.length_replicate])
  rwa [List.length_replicate, hzero] at hw

end Transfers

/-! The statements. -/

/-- Settles O18: an MVIx is `State.mvi` at its width; neither side leaves anything but registers and events. -/
theorem mviEffect : Obligations.MviEffect := by
  intro p hp s dst src hsrc hdst hsame hclob
  obtain ⟨hn, hexec⟩ := exec_mviSizes hp
  rw [hexec]
  exact mvi_effect hn hsrc hdst hsame hclob

/-- Settles O19: the ranges are tested first, then R207 (a), then (b) and (c), for which the destination's offset is that of
the state before. -/
theorem mviStops : Obligations.MviStops := by
  intro p hp s dst src
  obtain ⟨-, hexec⟩ := exec_mviSizes hp
  rw [hexec]
  refine ⟨fun h => mvi_regRange fun ⟨hsrc, _⟩ => h hsrc, fun h => mvi_regRange fun ⟨_, hdst⟩ => h hdst,
    fun hsrc hdst hsame => ?_, fun hsrc hdst hsame hclob => ?_⟩
  · exact mvi_unspecified hsrc hdst (mviUnsettled_of_same _ _ hsame)
  · refine mvi_unspecified hsrc hdst ?_
    rwa [mviTarget_of_not_same hsame, mviUnsettled_iff _ _ _ _ hsame]

/-- Settles O11: all three end in `State.result`; an immediate of 16 bits is its word's number. -/
theorem moveResult : Obligations.MoveResult := by
  intro s rd rs v hrd hv
  have hword : (BitVec.ofNat 32 v).toNat = v := by
    rw [BitVec.toNat_ofNat]
    omega
  exact ⟨result_hasResult s rfl hrd, result_hasResult s hword hrd, result_hasResult s hword hrd⟩

/-- Settles O20: LBBO and LBCO are one burst, from a register or a constant-table entry. -/
theorem burstLoad : Obligations.BurstLoad := fun _ _ _ _ _ _ hn h1 hfit =>
  ⟨fun _ ha => burst_load_effect hn h1 hfit ha, fun _ ha => burst_load_effect hn h1 hfit ha⟩

/-- Settles O21: SBBO and SBCO are one burst, to a register's address or a constant-table entry's. -/
theorem burstStore : Obligations.BurstStore := fun _ _ _ _ _ _ hwf hn h1 hfit =>
  ⟨burst_store_effect hwf hn h1 hfit, burst_store_effect hwf hn h1 hfit⟩

/-- Settles O22: each of the four is a burst. -/
theorem burstStops : Obligations.BurstStops := fun s start base op _ _ hn =>
  ⟨burst_stops s false start (s.x base) op hn, burst_stops s true start (s.x base) op hn,
    burst_stops s false start (s.ctEntry base) op hn, burst_stops s true start (s.ctEntry base) op hn⟩

/-- Settles O25: by the one check of the range. -/
theorem zeroEffect : Obligations.ZeroEffect := by
  refine fun s start len => ⟨fun hfit => ⟨_, if_pos hfit, ?_⟩, fun hout => if_neg (by omega)⟩
  exact (rfPut_zeros_wrote s hfit).advance_goes (quiet_rfPut ..)

/-- Settles O26: the device's answer is written to the range. -/
theorem xinEffect : Obligations.XinEffect := fun s dev start _ n hn h1 hfit =>
  ⟨_, transfer_of_fits hn h1 hfit, (xfrIn_wrote s dev start n hfit).advance_goes (quiet_rfPut ..)⟩

/-- Settles O27: the transfer only adds its event. -/
theorem xoutEffect : Obligations.XoutEffect := by
  intro s dev start cnt n hn h1 hfit
  have hregs : (s.xfrOut dev start n).advance.regs = s.regs := State.advance_regs _
  exact ⟨_, transfer_of_fits hn h1 hfit, State.advance_history _, fun _ hk => rf_congr hregs hk,
    (quiet_emit ..).advance_goes⟩

/-- Settles O28: by the value of the parameter. -/
theorem xchgEffect : Obligations.XchgEffect := by
  refine fun s dev start cnt => ⟨exec_xchg_refuse, exec_xchg_asXin, fun n hx hn h1 hfit => ?_⟩
  rw [exec_xchg_exchange hx, transfer_of_fits hn h1 hfit]
  exact ⟨_, rfl, (xfrExchange_wrote s dev start n hfit).advance_goes ((quiet_emit ..).trans (quiet_rfPut ..))⟩

/-- Settles O29: each of the three is a transfer where it runs. -/
theorem xfrStops : Obligations.XfrStops := by
  intro s dev start cnt n hn i hi hrefuse
  simp only [List.mem_cons, List.not_mem_nil, or_false] at hi
  rcases hi with rfl | rfl | rfl
  · exact rangeStops_of_transfer (move := s.xfrIn dev start) hn rfl
  · exact rangeStops_of_transfer (move := s.xfrOut dev start) hn rfl
  · obtain ⟨move, hmove⟩ := exec_xchg_transfer (hrefuse rfl)
    exact rangeStops_of_transfer hn hmove

end Sys2Proof.Machine

/-! Proofs of the family 43_control_flow.md: jumps, branches, waits, HALT, SLP, LOOP and its end, and the step of a running
core. An instruction that goes elsewhere ends in `State.next`, whose law is `next_arrives`; what is left to show is what the
instruction wrote before it, and the address it goes to. -/

namespace Sys2Proof.Machine

section Jumps

variable {s u : State}

/-- What an instruction leaves alone that only writes registers and adds events, and goes to the address `a`. -/
theorem Quiet.next_goes (h : Quiet s u) (a : Int) :
    (u.next a).carry = s.carry ∧ KeepsRest s (u.next a) ∧ Arrives s (u.next a) a :=
  ⟨(State.next_carry u a).trans h.carry,
    KeepsRest.intro ((State.next_run u a).trans h.run) ((State.next_dmem u a).trans h.dmem)
      ((State.next_imem u a).trans h.imem) ((State.next_params u a).trans h.params)
      ((State.next_host u a).trans h.host) ((State.next_moment u a).trans h.moment)
      ((State.next_meanwhile u a).trans h.meanwhile),
    (next_arrives u a).of_eq h.params h.loopCounter h.loopTop h.loopEnd⟩

theorem exec_jmp_of_le {target : Operand} (h : (s.val target).toNat ≤ 65535) :
    exec (.jmp target) s = .next (s.next (s.val target).toNat) := if_pos h

theorem exec_jmp_of_gt {target : Operand} (h : 65535 < (s.val target).toNat) :
    exec (.jmp target) s = .fault .jumpTargetRange := if_neg (Nat.not_le.mpr h)

theorem exec_jal_of_le {rd : Field} {target : Operand} (h : (s.val target).toNat ≤ 65535) :
    exec (.jal rd target) s = .next ((s.wr rd (BitVec.ofInt 32 s.following)).next (s.val target).toNat) := if_pos h

theorem exec_jal_of_gt {rd : Field} {target : Operand} (h : 65535 < (s.val target).toNat) :
    exec (.jal rd target) s = .fault .jumpTargetRange := if_neg (Nat.not_le.mpr h)

/-- The link of JAL is `pc + 1`: the address has 16 bits, so the word takes it whole (R263). -/
theorem link_toNat (s : State) : (BitVec.ofInt 32 s.following).toNat = s.pc.toNat + 1 := by
  have hpc := s.pc.isLt
  rw [BitVec.toNat_ofInt, State.following]
  omega

end Jumps

section Branches

variable {i : Instr} {s : State} {taken : Bool} {dist : Int}

theorem branches_of_branch (h : exec i s = s.branch taken dist) : Branches i s taken dist := by
  obtain ⟨t, ht, hcarry, hregs, harrives, hrest⟩ := branch_goes s taken dist
  exact ⟨t, h.trans ht, hcarry, hregs, hrest, harrives⟩

/-- A compare-and-branch is `State.branch` on its relation of the two numbers (R264, D6). -/
theorem exec_compareOps {p : (Int → Field → Operand → Instr) × (Nat → Nat → Bool)} (hp : p ∈ compareOps) (s : State)
    (dist : Int) (rs : Field) (op : Operand) :
    exec (p.1 dist rs op) s = s.branch (p.2 (s.val op).toNat (s.rd rs).toNat) dist := by
  simp only [compareOps, List.mem_cons, List.not_mem_nil, or_false] at hp
  rcases hp with rfl | rfl | rfl | rfl | rfl | rfl
  · rfl
  · rfl
  · rfl
  · rfl
  · simp only [exec, execQbeq, BitVec.toNat_eq]
  · simp only [exec, execQbne, BitVec.toNat_eq, ne_eq]

end Branches

section Steps

variable {i : Instr} {s t u : State}

/-- The step of a running core, where no host move is pending (R36). -/
theorem step_of_running (hh : s.host = []) (hrun : s.run = .running) :
    step s = s.runInstr := by
  rw [step_of_host_nil hh]
  simp only [State.coreStep, hrun]

theorem step_of_fetch_ok (hh : s.host = []) (hrun : s.run = .running) (hwf : ProgramWellFormed s)
    (hf : s.fetch = .ok i) : step s = tick (settled (exec i s)) := by
  rw [step_of_running hh hrun, runInstr_of_wellFormed hwf, hf]

theorem step_of_fetch_error {f : Fault} (hh : s.host = []) (hrun : s.run = .running) (hwf : ProgramWellFormed s)
    (hf : s.fetch = .error f) : step s = .fault f := by
  rw [step_of_running hh hrun, runInstr_of_wellFormed hwf, hf]

/-- The next address was none, or holds nothing (R261, D7). -/
theorem fetch_outside (h : s.pcOut = true ∨ s.imem.fetch s.pc = none) : s.fetch = .error .fetchOutside := by
  unfold State.fetch
  split
  · rfl
  · next hp =>
    rcases h with h | h
    · exact absurd h hp
    · rw [h]

/-- A word the decoder rejects (R130, U1). -/
theorem fetch_undefined {w : Word} {why : Reject} (hp : s.pcOut = false) (hs : s.imem.fetch s.pc = some (.word w))
    (hw : decode w = .error why) : s.fetch = .error (.undefinedWord why) := by
  simp [State.fetch, hp, hs, Slot.instr, hw]

/-- An instruction leaves no writes of other agents to settle where there were none: a store only drops some (R67). -/
theorem exec_meanwhile_nothing (h : exec i s = .next u) (hm : s.meanwhile = .nothing) : u.meanwhile = .nothing := by
  cases exec_next h with
  | plain hq => exact (State.next_meanwhile _ _).trans (hq.meanwhile.trans hm)
  | arith _ hq => exact (State.next_meanwhile _ _).trans (hq.meanwhile.trans hm)
  | store _ =>
    rw [State.advance_meanwhile]
    simp [State.storeRun, hm, Meanwhile.nothing, Meanwhile.left]
  | halt _ => exact hm
  | slp _ => exact (State.advance_meanwhile _).trans hm
  | loop _ => exact (State.next_meanwhile _ _).trans hm

/-- Enable takes a halted core back to Running, at the `pc` it stopped at (R330). -/
theorem step_of_enable {rest : List HostMove} (hh : s.host = .enable :: rest) (hrun : s.run = .halted) :
    step s = .next ((s.withHost rest).withRun .running) := by
  simp only [step, State.cycle, hh, State.hostStep, State.withHost_run, hrun, if_true]

end Steps

section Waits

variable {i : Instr} {s t : State} {rs : Field} {op : Operand}

/-- `i` is a wait whose bit has the value it waits on (R275, R276). -/
def Waits (s : State) (rs : Field) (op : Operand) (i : Instr) : Prop :=
  (i = .wbs rs op ∧ fieldBit s rs op = false) ∨ (i = .wbc rs op ∧ fieldBit s rs op = true)

/-- A bit of R0 to R30 is the same where the registers are the same. -/
theorem fieldBit_congr (h : t.regs = s.regs) (hrs : rs.reg ≠ 31) (hop : StoredOperand op) :
    fieldBit t rs op = fieldBit s rs op := by
  have hrd : t.rd rs = s.rd rs := val_congr (op := .reg rs) h hrs
  rw [fieldBit, fieldBit, hrd, val_congr h hop]

/-- A wait goes to itself while the bit is wrong. -/
theorem exec_of_waits (h : Waits s rs op i) : exec i s = .next (s.next s.pc.toNat) := by
  have hself : s.branch true 0 = .next (s.next s.pc.toNat) := by
    simp only [State.branch, State.label, if_true, Int.add_zero]
  rcases h with ⟨rfl, hbit⟩ | ⟨rfl, hbit⟩
  · have htaken : exec (.wbs rs op) s = s.branch (!fieldBit s rs op) 0 := rfl
    rw [htaken, hbit, Bool.not_false, hself]
  · have htaken : exec (.wbc rs op) s = s.branch (fieldBit s rs op) 0 := rfl
    rw [htaken, hbit, hself]

/-- The loop hardware does not catch an arrival at `pc` itself: the core has none, it is not armed, or its end is
elsewhere (R261, R291). -/
def Uncaught (s : State) : Prop := s.params.rev = .v1 ∨ s.loopCounter = 0 ∨ s.loopEnd ≠ s.pc

theorem atLoopEnd_of_uncaught (h : Uncaught s) : s.atLoopEnd s.pc.toNat = false := by
  rw [State.atLoopEnd, Bool.and_eq_false_iff, Bool.and_eq_false_iff]
  rcases h with h | h | h
  · exact .inl (.inl (by simp [h]))
  · exact .inl (.inr (by simp [h]))
  · refine .inr (decide_eq_false fun he => h (BitVec.eq_of_toNat_eq ?_))
    omega

theorem setPc_pc (hp : s.pcOut = false) : s.setPc s.pc.toNat = s := by
  have hpc := s.pc.isLt
  have hin : decide ((s.pc.toNat : Int) < 0 ∨ 65535 < (s.pc.toNat : Int)) = s.pcOut := by
    rw [hp]
    exact decide_eq_false (by omega)
  have hsame : BitVec.ofInt 16 s.pc.toNat = s.pc := by
    rw [BitVec.ofInt_natCast, BitVec.ofNat_toNat, BitVec.setWidth_eq]
  rw [State.setPc, hin, hsame]
  rfl

/-- To go to the address one is at changes nothing, where the loop hardware does not catch it. -/
theorem next_pc (hp : s.pcOut = false) (h : Uncaught s) : s.next s.pc.toNat = s := by
  simp only [State.next, atLoopEnd_of_uncaught h, Bool.false_eq_true, if_false]
  exact setPc_pc hp

/-- One step of a wait with the wrong bit. -/
theorem step_of_waits (hh : s.host = []) (hm : s.meanwhile = .nothing) (hwf : ProgramWellFormed s) (hruns : Runs s i)
    (hloop : Uncaught s) (hw : Waits s rs op i) : step s = .next (s.laterBy 1) := by
  obtain ⟨-, hrun, hf⟩ := hruns
  obtain ⟨hp, -⟩ := fetch_ok hf
  rw [step_of_fetch_ok hh hrun hwf hf, exec_of_waits hw, next_pc hp hloop, settled, State.settle_of_nothing hm]
  rfl

/-- A run in which each step only moves the environment on. -/
theorem run_laterBy (h : ∀ k, step (s.laterBy k) = .next (s.laterBy (k + 1))) (n k : Nat) :
    Host.Core.run Sys2Proof.core n (s.laterBy k) = .next (s.laterBy (k + n)) := by
  induction n generalizing k with
  | zero => rfl
  | succ n ih =>
    have hstep : Sys2Proof.core.step (s.laterBy k) = .next (s.laterBy (k + 1)) := h k
    have hlater : k + 1 + n = k + (n + 1) := by omega
    simp only [Host.Core.run, hstep]
    rw [← hlater]
    exact ih (k + 1)

end Waits

section Loops

variable {s : State} {dist : Int} {cnt : Operand}

theorem ofInt16_toNat {a : Int} (h0 : 0 ≤ a) (h : a ≤ 65535) : ((BitVec.ofInt 16 a).toNat : Int) = a := by
  rw [BitVec.toNat_ofInt]
  omega

theorem loopCount_imm {v : Nat} (s : State) (hv : v ≤ 256) : (s.loopCount (.imm v)).toNat = v := by
  rw [State.loopCount, BitVec.toNat_ofNat]
  omega

theorem loopCount_reg (s : State) (f : Field) : (s.loopCount (.reg f)).toNat = (s.rd f).toNat % 65536 :=
  BitVec.toNat_setWidth ..

/-- What LOOP arms (R290): its count, the body's first address and the label, where both are 16-bit addresses. -/
theorem armLoop_loop (s : State) (cnt : Operand) (hdist : 2 ≤ dist) (hlabel : (s.pc.toNat : Int) + dist ≤ 65535) :
    (s.armLoop dist cnt).loopCounter = s.loopCount cnt ∧ (s.armLoop dist cnt).loopTop.toNat = s.pc.toNat + 1
      ∧ ((s.armLoop dist cnt).loopEnd.toNat : Int) = s.pc.toNat + dist := by
  have htop := ofInt16_toNat (a := (s.pc.toNat : Int) + 1) (by omega) (by omega)
  have hfin := ofInt16_toNat (a := (s.pc.toNat : Int) + dist) (by omega) hlabel
  refine ⟨rfl, ?_, hfin⟩
  have h : ((s.armLoop dist cnt).loopTop.toNat : Int) = (s.pc.toNat : Int) + 1 := htop
  omega

/-- Where LOOP goes with the count `c` (R290). -/
def State.loopEntry (s : State) (dist : Int) (c : Nat) : Int := if c = 0 then s.label dist else s.following

theorem exec_loop {c : Nat} (hc : (s.loopCount cnt).toNat = c) :
    exec (.loop dist cnt) s = .next ((s.armLoop dist cnt).next (s.loopEntry dist c)) := by
  have hzero : s.loopCount cnt = 0 ↔ c = 0 := by rw [← hc, ← BitVec.toNat_inj]; rfl
  simp only [exec, execLoop, hzero, State.loopEntry]

/-- LOOP goes to its end only where the count is 0: the body starts below the label. -/
theorem loopEntry_ne_label {c : Nat} (s : State) (hdist : 2 ≤ dist) (hc : 0 < c) :
    s.loopEntry dist c ≠ (s.pc.toNat : Int) + dist := by
  rw [State.loopEntry, if_neg (by omega), State.following]
  omega

/-- A `next` that the loop hardware does not catch (R261). -/
theorem Arrives.of_not_caught {t : State} {a : Int} (h : Arrives s t a)
    (hno : ¬ (s.params.rev = .v3 ∧ 0 < s.loopCounter.toNat ∧ a = s.loopEnd.toNat)) :
    t.loopTop = s.loopTop ∧ t.loopEnd = s.loopEnd ∧ t.loopCounter = s.loopCounter ∧ PcAt t a := by
  obtain ⟨htop, hfin, hcount⟩ := h
  rw [if_neg hno] at hcount
  exact ⟨htop, hfin, hcount⟩

/-- One arrival at the end of the armed loop. -/
def State.loopPass (s : State) : State := s.next s.loopEnd.toNat

/-- An arrival at the end of an armed loop of a V3 core takes one off the counter (R291). -/
theorem loopPass_of_armed (hv : s.params.rev = .v3) (h0 : 0 < s.loopCounter.toNat) :
    s.loopPass.loopCounter.toNat + 1 = s.loopCounter.toNat
      ∧ PcAt s.loopPass (if s.loopCounter.toNat = 1 then (s.loopEnd.toNat : Int) else s.loopTop.toNat) := by
  obtain ⟨-, -, hcount⟩ := next_arrives s s.loopEnd.toNat
  rwa [if_pos ⟨hv, h0, rfl⟩] at hcount

/-- `next` sets the counter and `pc` and nothing else. -/
theorem next_eq (s : State) (a : Int) : ∃ n pc out, s.next a = (s.withCounter n).withPc pc out := by
  unfold State.next
  split
  · exact ⟨_, _, _, rfl⟩
  · exact ⟨s.loopCounter, _, _, rfl⟩

/-- So do any number of arrivals at the loop end. -/
theorem loopPasses_eq (s : State) (k : Nat) :
    ∃ n pc out, State.loopPass^[k] s = (s.withCounter n).withPc pc out := by
  induction k with
  | zero => exact ⟨s.loopCounter, s.pc, s.pcOut, rfl⟩
  | succ k ih =>
    obtain ⟨n, pc, out, hk⟩ := ih
    obtain ⟨n', pc', out', hpass⟩ := next_eq ((s.withCounter n).withPc pc out) s.loopEnd.toNat
    rw [Function.iterate_succ_apply', hk]
    exact ⟨n', pc', out', hpass⟩

/-- What arrivals at the loop end leave alone. -/
theorem loopPasses_keeps (s : State) (k : Nat) :
    (State.loopPass^[k] s).loopTop = s.loopTop ∧ (State.loopPass^[k] s).loopEnd = s.loopEnd
      ∧ (State.loopPass^[k] s).carry = s.carry ∧ KeepsRegs s (State.loopPass^[k] s)
      ∧ KeepsRest s (State.loopPass^[k] s) := by
  obtain ⟨n, pc, out, heq⟩ := loopPasses_eq s k
  rw [heq]
  exact ⟨rfl, rfl, rfl, ⟨fun _ _ => rfl, rfl⟩, KeepsRest.intro rfl rfl rfl rfl rfl rfl rfl⟩

theorem loopPasses_rev (hv : s.params.rev = .v3) (k : Nat) : (State.loopPass^[k] s).params.rev = .v3 := by
  obtain ⟨n, pc, out, heq⟩ := loopPasses_eq s k
  rw [heq]
  exact hv

/-- As long as the loop is armed, each arrival takes one off the counter. -/
theorem loopPasses_counter (hv : s.params.rev = .v3) {k : Nat} (hk : k ≤ s.loopCounter.toNat) :
    (State.loopPass^[k] s).loopCounter.toNat = s.loopCounter.toNat - k := by
  induction k with
  | zero => rfl
  | succ k ih =>
    have hbefore := ih (by omega)
    obtain ⟨hone, -⟩ := loopPass_of_armed (loopPasses_rev hv k) (by omega)
    rw [Function.iterate_succ_apply']
    omega

/-- Where the last of some arrivals goes: back to the top, or past the end if it was the last of all (R291, C5). -/
theorem loopPasses_pcAt (hv : s.params.rev = .v3) {k : Nat} (h1 : 1 ≤ k) (hk : k ≤ s.loopCounter.toNat) :
    PcAt (State.loopPass^[k] s)
      (if k = s.loopCounter.toNat then (s.loopEnd.toNat : Int) else (s.loopTop.toNat : Int)) := by
  obtain ⟨k, rfl⟩ : ∃ j, k = j + 1 := ⟨k - 1, by omega⟩
  have hbefore := loopPasses_counter hv (k := k) (by omega)
  obtain ⟨htop, hfin, -⟩ := loopPasses_keeps s k
  obtain ⟨-, hpc⟩ := loopPass_of_armed (loopPasses_rev hv k) (by omega)
  have hlast : (State.loopPass^[k] s).loopCounter.toNat = 1 ↔ k + 1 = s.loopCounter.toNat := by omega
  rw [Function.iterate_succ_apply']
  simpa only [hlast, htop, hfin] using hpc

end Loops

/-! The statements. -/

/-- Settles O30: the jump is one `next`. -/
theorem jmpEffect : Obligations.JmpEffect := by
  refine fun s target => ⟨fun hle => ?_, exec_jmp_of_gt⟩
  obtain ⟨hcarry, hregs, harrives, hrest⟩ := next_goes s (s.val target).toNat
  exact ⟨_, exec_jmp_of_le hle, hcarry, hregs, hrest, harrives⟩

/-- Settles O31: the write of the link and then one `next`, to the target as it was before. -/
theorem jalEffect : Obligations.JalEffect := by
  refine fun s rd target => ⟨fun hle => ?_, exec_jal_of_gt⟩
  have hlink : WroteField s (s.wr rd (BitVec.ofInt 32 s.following)) rd (s.pc.toNat + 1) :=
    link_toNat s ▸ wr_wrote s rd (BitVec.ofInt 32 s.following)
  obtain ⟨hcarry, hrest, harrives⟩ := (quiet_wr s rd (BitVec.ofInt 32 s.following)).next_goes (s.val target).toNat
  exact ⟨_, exec_jal_of_le hle, hcarry, hlink.of_eq (State.next_regs _ _) (State.next_history _ _), hrest, harrives⟩

/-- Settles O32: each of them is `State.branch`. -/
theorem compareBranches : Obligations.CompareBranches := fun s dist rs op =>
  ⟨fun _ hp => branches_of_branch (exec_compareOps hp s dist rs op), branches_of_branch rfl⟩

/-- Settles O33: each of them is `State.branch` on the bit or its opposite; a wait's distance is 0. -/
theorem bitBranches : Obligations.BitBranches := fun _ _ _ _ =>
  ⟨branches_of_branch rfl, branches_of_branch rfl, branches_of_branch rfl, branches_of_branch rfl⟩

/-- Settles O34: nothing a wait looks at depends on the moment, so every step of the run is the same. -/
theorem waitSpins : Obligations.WaitSpins := by
  intro s rs op i hrs hop hloop hh hm hwf hruns hw n
  have hspin : ∀ k, step (s.laterBy k) = .next (s.laterBy (k + 1)) := fun k => by
    have hbit : fieldBit (s.laterBy k) rs op = fieldBit s rs op := fieldBit_congr rfl hrs hop
    have hwaits : Waits (s.laterBy k) rs op i := by rwa [Waits, hbit]
    exact step_of_waits (s := s.laterBy k) hh hm hwf hruns hloop hwaits
  have hrun := run_laterBy hspin n 0
  rwa [Nat.zero_add] at hrun

/-- Settles O36: the run state is set, then `pc` advances. -/
theorem slpSleeps : Obligations.SlpSleeps := by
  intro s wake
  obtain ⟨hcarry, ⟨hrf, hhist⟩, -, ⟨⟨hrun, himem, hparams, hhost, hmoment⟩, hdmem⟩⟩ :=
    next_goes (s.withRun (.sleeping wake)) (s.withRun (.sleeping wake)).following
  exact ⟨_, rfl, hrun, hcarry, ⟨hrf, hhist⟩, advance_continues rfl rfl rfl rfl rfl, hdmem, himem, hparams, hhost, hmoment⟩

/-- Settles O37: LOOP arms the loop and goes to its body or past it; the loop hardware does not catch either. -/
theorem loopArms : Obligations.LoopArms := by
  intro s dist cnt c hdist hlabel hcnt
  have hc : (s.loopCount cnt).toNat = c := by
    cases cnt with
    | imm v =>
      obtain ⟨-, hv, rfl⟩ := hcnt
      exact loopCount_imm s hv
    | reg f => exact (loopCount_reg s f).trans hcnt.symm
  obtain ⟨hcounter, htop, hfin⟩ := armLoop_loop s cnt hdist hlabel
  obtain ⟨hcarry, hregs, harrives, hrest⟩ := next_goes (s.armLoop dist cnt) (s.loopEntry dist c)
  have hno : ¬ (s.params.rev = .v3 ∧ 0 < (s.armLoop dist cnt).loopCounter.toNat
      ∧ s.loopEntry dist c = (s.armLoop dist cnt).loopEnd.toNat) := by
    rw [hcounter, hc, hfin]
    exact fun ⟨_, hpos, hend⟩ => loopEntry_ne_label s hdist hpos hend
  obtain ⟨htop', hfin', hcounter', hpc⟩ := harrives.of_not_caught hno
  exact ⟨_, exec_loop hc, by rw [hcounter', hcounter, hc], by rw [htop', htop], by rw [hfin', hfin], hpc, hcarry, hregs,
    hrest⟩

/-- Settles O38: by induction on the arrivals, each of which takes one off the counter and changes nothing else but
`pc`. -/
theorem loopPasses : Obligations.LoopPasses := fun s k hv h1 hk =>
  ⟨loopPasses_counter hv hk, loopPasses_pcAt hv h1 hk, loopPasses_keeps s k⟩

/-- Settles O35: HALT sets the run state, and Enable sets it back. -/
theorem haltStops : Obligations.HaltStops := fun _ => ⟨rfl, fun _ hh hrun => step_of_enable hh hrun⟩

/-- Settles O39: by the fetch, and by what `settled` and `tick` make of the three outcomes. -/
theorem stepRuns : Obligations.StepRuns := by
  intro s i hh hrun hp hwf hslot
  have hf : s.fetch = .ok i := by
    rcases hslot with hs | ⟨w, hs, hw⟩
    · exact fetch_of_holds hp hs (.inl rfl)
    · exact fetch_of_holds hp hs (.inr ⟨w, rfl, hw⟩)
  rw [step_of_fetch_ok hh hrun hwf hf]
  refine ⟨fun t ht => ⟨?_, fun hmem a => ?_, fun hm => ?_⟩, fun f hfault => ?_, fun r href => ?_⟩
  · rw [ht]; rfl
  · exact Memory.read_writeAll _ _ a hmem
  · exact State.settle_of_nothing (exec_meanwhile_nothing ht hm)
  · rw [hfault]; rfl
  · rw [href]; rfl

/-- Settles O40: each of them is a fetch that ends in a fault. -/
theorem fetchStops : Obligations.FetchStops := fun _ hh hrun hwf =>
  ⟨fun h => step_of_fetch_error hh hrun hwf (fetch_outside h),
    fun _ _ hp hs hw => step_of_fetch_error hh hrun hwf (fetch_undefined hp hs hw)⟩

end Sys2Proof.Machine

/-! Proofs of the family 60_exceptions.md: the moves of the host and of other agents, and a breakpoint the host sets
while the core is halted. A step with a move pending takes it off the schedule and is that move's `State.hostStep`. -/

namespace Sys2Proof.Machine

section HostMoves

variable {s : State} {rest : List HostMove} {a : InstrAddr} {sl : Option Slot}

/-- With a host move pending the step is that move, from the state with the move taken off the schedule. -/
theorem step_of_host_cons {m : HostMove} (hh : s.host = m :: rest) : step s = (s.withHost rest).hostStep m := by
  simp only [step, State.cycle, hh]

/-- Enable does nothing on a core that is not halted (log entry 17). -/
theorem step_of_enable_not_halted (hh : s.host = .enable :: rest) (hrun : s.run ≠ .halted) :
    step s = .next (s.withHost rest) := by
  simp only [step_of_host_cons hh, State.hostStep, State.withHost_run, hrun, if_false]

/-- ClearSleeping wakes a sleeper of either kind (R331). -/
theorem step_of_clearSleeping {w : Bool} (hh : s.host = .clearSleeping :: rest) (hrun : s.run = .sleeping w) :
    step s = .next ((s.withHost rest).withRun .running) := by
  simp only [step_of_host_cons hh, State.hostStep, State.withHost_run, hrun]

/-- ClearSleeping does nothing on a core that is not asleep (log entry 17). -/
theorem step_of_clearSleeping_awake (hh : s.host = .clearSleeping :: rest) (hrun : ∀ w, s.run ≠ .sleeping w) :
    step s = .next (s.withHost rest) := by
  rw [step_of_host_cons hh]
  cases hr : s.run with
  | running => simp only [State.hostStep, State.withHost_run, hr]
  | halted => simp only [State.hostStep, State.withHost_run, hr]
  | sleeping w => exact absurd hr (hrun w)

/-- The host replaces what instruction memory holds at an address while the core is halted (R75, D16). -/
theorem step_of_writeImem (hh : s.host = .writeImem a sl :: rest) (hrun : s.run = .halted) :
    step s = .next ((s.withHost rest).withImem (s.imem.replace a sl)) := by
  simp only [step_of_host_cons hh, State.hostStep, State.withHost_run, State.withHost_imem, hrun, if_true]

/-- In any other run state the host may not (D16, log entry 19). -/
theorem step_of_writeImem_not_halted (hh : s.host = .writeImem a sl :: rest) (hrun : s.run ≠ .halted) :
    step s = .refused .noSuchHostMove := by
  simp only [step_of_host_cons hh, State.hostStep, State.withHost_run, hrun, if_false]

/-- What the host has put at an address is what stands there. -/
theorem fetch_replace_same {m : InstrMemory} (hwf : InstrMemory.wf m = true) : (m.replace a sl).fetch a = sl :=
  (InstrMemory.fetch_replace m a a sl hwf).trans (if_pos rfl)

/-- Settles O44: each move by its own arm of `State.hostStep`, the two writes by read after write; what Reset leaves,
`State.resetCore`, is field by field the state that is named. -/
theorem hostMoveEffects : Obligations.HostMoveEffects := by
  intro s rest a sl b v
  refine ⟨step_of_enable_not_halted, fun _ => step_of_clearSleeping, step_of_clearSleeping_awake, step_of_host_cons,
    fun hh hrun hwf => ⟨_, step_of_writeImem hh hrun, ?_, fun c hc => ?_, rfl⟩, step_of_writeImem_not_halted,
    fun hh hwf => ⟨_, step_of_host_cons hh, ?_, fun c hc => ?_, rfl⟩, fun _ => step_of_host_cons⟩
  · exact fetch_replace_same hwf
  · exact (InstrMemory.fetch_replace s.imem a c sl hwf).trans (if_neg hc)
  · exact (Memory.read_write s.dmem b.toNat b.toNat v hwf).trans (if_pos rfl)
  · exact (Memory.read_write s.dmem b.toNat c v hwf).trans (if_neg hc)

end HostMoves

section Breakpoints

variable {s t u : State}

/-- Two steps that both end in a next state are a run of two. -/
theorem run_two (h1 : step s = .next t) (h2 : step t = .next u) : Host.Core.run Sys2Proof.core 2 s = .next u := by
  have h1' : Sys2Proof.core.step s = .next t := h1
  have h2' : Sys2Proof.core.step t = .next u := h2
  simp only [Host.Core.run, h1', h2']

/-- Settles O45: the write puts the instruction at `pc`, and neither the write nor Enable moves `pc`. -/
theorem breakpoint : Obligations.Breakpoint := by
  intro s i rest hrun hpc hwf hh
  have hwrite := step_of_writeImem hh hrun
  have henable := step_of_enable (rest := rest)
    (s := (s.withHost (.enable :: rest)).withImem (s.imem.replace s.pc (some (.asm i)))) rfl hrun
  have hslot := fetch_replace_same (a := s.pc) (sl := some (.asm i)) hwf
  exact ⟨_, run_two hwrite henable, rfl, rfl, fetch_of_holds hpc hslot (.inl rfl), rfl, rfl, rfl⟩

end Breakpoints

end Sys2Proof.Machine

/-! Proofs of the family 70_reset_and_hazards.md: what a step makes of the history of events, and the invariant after reset.
That one history grew into another is said by `<+:`: the old one is a prefix of the new one. -/

namespace Sys2Proof.Machine

section History

variable {i : Instr} {s t u : State}

/-- A reset keeps the history (log entry 18). -/
@[simp] theorem State.resetCore_history (s : State) : s.resetCore.history = s.history := rfl

@[simp] theorem State.laterBy_history (s : State) (n : Nat) : (s.laterBy n).history = s.history := rfl

@[simp] theorem State.armLoop_history (s : State) (dist : Int) (cnt : Operand) :
    (s.armLoop dist cnt).history = s.history := rfl

/-- A store adds its access to the history (R62). -/
@[simp] theorem State.storeRun_history (s : State) (o n : Nat) (addr : Word) :
    (s.storeRun o n addr).history = s.history ++ [.memWrite addr (s.rfRun o n)] := rfl

theorem Quiet.history_prefix (h : Quiet s u) : s.history <+: u.history := by
  obtain ⟨es, hes⟩ := h.history
  exact ⟨es, hes.symm⟩

/-- An instruction takes no event back. -/
theorem exec_history_prefix (h : exec i s = .next u) : s.history <+: u.history := by
  cases exec_next h with
  | plain hq => simpa using hq.history_prefix
  | arith _ hq => simpa using hq.history_prefix
  | store _ => simp
  | halt _ => exact List.prefix_rfl
  | slp _ => simp
  | loop _ => simp

/-- A move of the core takes no event back: the settling of other agents' writes, the time and the waking of a sleeper leave
the history as it is. -/
theorem CoreMove.history_prefix (h : CoreMove s t) : s.history <+: t.history := by
  cases h with
  | ran _ _ _ he => simpa using exec_history_prefix he
  | idle _ => exact List.prefix_rfl
  | asleep _ _ => exact List.prefix_rfl
  | woke _ _ => exact List.prefix_rfl

/-- A step takes no event back: no move of the host or of another agent touches the history. -/
theorem step_history_prefix (h : step s = .next t) : s.history <+: t.history := by
  cases step_next h with
  | core _ hc => exact hc.history_prefix
  | enable _ => split <;> exact List.prefix_rfl
  | wake _ _ => exact List.prefix_rfl
  | clear _ _ => exact List.prefix_rfl
  | reset _ => simp
  | writeImem _ _ => exact List.prefix_rfl
  | agentWrite _ => exact List.prefix_rfl
  | meanwhile _ => exact List.prefix_rfl

end History

/-- A data memory that lists nothing is in canonical form. -/
theorem Memory.wf_nil : Memory.wf [] = true := rfl

/-- An instruction memory that holds nothing is in canonical form. -/
theorem InstrMemory.wf_nil : InstrMemory.wf [] = true := rfl

/-! The statements. -/

/-- Settles O52: what a step adds is the rest of the new history after the old one. -/
theorem historyGrows : Obligations.HistoryGrows := by
  intro s t h
  obtain ⟨es, hes⟩ := step_history_prefix h
  exact ⟨es, hes.symm⟩

/-- Settles O54: neither memory lists anything after reset (log entries 12 and 29), and the loop hardware of a core of either
revision is not armed. -/
theorem invReset : Obligations.InvReset := ⟨Memory.wf_nil, InstrMemory.wf_nil, fun _ => rfl⟩

end Sys2Proof.Machine
